-- ==== Sys2Proof/Word.lean ====
section
/-! DEFINITION. The word types of the model: bytes, registers, register numbers, CSR numbers. -/

namespace Sys2Proof

/-- A byte of memory, or one 8-bit configuration register `pmpicfg` (R13, R46). -/
abbrev Byte := BitVec 8

/-- The value of an MXLEN-bit register. With MXLEN = 32 the bits above 31 are zero (R28, R45). -/
abbrev Word := BitVec 64

/-- The number of a general register, x0 to x31 (R45, R86). -/
abbrev RegNum := BitVec 5

/-- A CSR number (R47, R86). -/
abbrev CsrNum := BitVec 12

/-- A 5-bit unsigned immediate (R86). -/
abbrev Uimm := BitVec 5

end Sys2Proof
end

