-- ==== Sys2Proof/Config.lean ====
section
/-! DEFINITION. What an implementation fixes (R8), and the free values: what the spec leaves open, as constants without
a body, so that nothing can be proved of a particular value. -/

namespace Sys2Proof

/-- MXLEN, 32 or 64 (R8). -/
inductive Mxlen where
  | rv32
  | rv64
deriving DecidableEq, Repr

/-- The parameter N: "Implementations may implement zero, 16, or 64 PMP CSRs" (R14, D4). -/
inductive EntryCount where
  | zero
  | sixteen
  | sixtyFour
deriving DecidableEq, Repr

/-- One PMP entry: the configuration register `pmpicfg` and the underlying value of `pmpaddri` (R13). -/
structure PmpEntry where
  cfg : Byte
  addr : Word
deriving DecidableEq, Repr

/-- What an implementation fixes of one entry (R8, R109, R110, R114). -/
structure EntryParams where
  /-- WMASK(i): the writable bits of `pmpicfg` (R109); its bits 6:5 have no effect. -/
  wmask : Byte
  /-- ADDR_MASK(i): the writable bits of `pmpaddri` (R114); its bits above the address bits have no effect. -/
  addrMask : Word
  /-- The constants of a hardwired entry (R39, R110), or none. -/
  hardwired : Option PmpEntry
deriving DecidableEq, Repr

/-- How `LegalAddr` treats a value outside the mask (R114, D10). -/
inductive AddrRule where
  /-- The default instance: unimplemented bits are dropped. -/
  | masked
  /-- Any function with the properties of R114. -/
  | unstated
deriving DecidableEq, Repr

/-- What an instruction does to memory: the access classes of R50, but for page-table accesses. -/
inductive RefClass where
  | fetch
  | load
  | loadReserved
  | store
  | storeConditional
  | amo
deriving DecidableEq, Repr

/-- Which partitions of a reference the relation `Decompose` admits (R8, D20; notes/assumptions/38.md). -/
inductive SplitRule where
  /-- The trivial one alone: the reference is one access. -/
  | whole
  /-- Any partition into consecutive accesses. -/
  | anyPartition
  /-- Any relation within that. -/
  | unstated
deriving DecidableEq, Repr

/-- The parameters of an implementation (R8), plain data. MXLEN is a field of State, since `SetMxlen` changes it. -/
structure Config where
  /-- N (R14). -/
  entryCount : EntryCount
  /-- G: the grain is 2^(G+2) bytes (R33). -/
  grain : Nat
  /-- HAS_VM: page-based virtual memory is implemented (R166, R169). -/
  hasVm : Bool
  /-- Per entry; an entry that is not listed is read-only zero (R26). -/
  entries : List EntryParams
  addrRule : AddrRule
  /-- `Decompose` for an instruction fetch (R157). -/
  fetchSplit : SplitRule
  /-- `Decompose` for every other class (R157, R158). -/
  dataSplit : SplitRule
  /-- PREFETCH_SIZE is 2 to this power (R61, R62): the accessor `prefetchSize`. -/
  prefetchExp : Nat
  /-- The smallest supported page size, in bytes (R62; notes/assumptions/36.md). -/
  smallestPage : Nat
deriving DecidableEq, Repr

/-- FREE VALUE. What `LegalCfg(i, old, w)` stores when the written byte is not legal (R108, R109, U1, U2): unconstrained
here; the operation that stores it keeps it legal (notes/assumptions/8.md). -/
opaque Config.freeCfg : Nat → Byte → Byte → Byte

/-- FREE VALUE. What `LegalAddr(i, old, v)` stores when `v` has bits outside the mask and the implementation does not use
the default instance (R113, R114, U3; notes/assumptions/9.md). -/
opaque Config.freeAddr : Nat → Word → Word → Word

/-- FREE VALUE. Which member of `stale` the k-th free choice takes (R166, U12; notes/assumptions/10.md). -/
opaque Config.freeIndex : Nat → Nat

/-- FREE VALUE. Whether the j-th write of a faulting instruction, at the k-th free choice, was performed (R156, U11;
notes/assumptions/11.md). -/
opaque Config.freeBit : Nat → Nat → Bool

/-- FREE VALUE. Whether `Decompose` admits these parts of the reference, where the implementation's relation is not given
(R8, U10; notes/assumptions/38.md). -/
opaque Config.freeDecompose : RefClass → Nat → Nat → List Nat → Bool

/-- FREE VALUE. Which admitted partition the fetch at the k-th free choice takes (R157, U10; notes/assumptions/38.md). -/
opaque Config.freeSplit : Nat → Nat

/-- FREE VALUE. `MisalignedBeforeAccessFault` (R181, U18): no default (notes/assumptions/12.md). -/
opaque Config.misalignedBeforeAccessFault : Bool

end Sys2Proof
end

