-- ==== Sys2Proof/Syntax.lean ====
section
/-! DEFINITION. The instructions: one constructor per row of spec/opcode_table.json. -/

namespace Sys2Proof

/-- The seven instructions of the opcode table (R87). -/
inductive Instr where
  /-- CSRRW rd, csr, rs1 (R120). -/
  | csrrw (rd : RegNum) (csr : CsrNum) (rs1 : RegNum)
  /-- CSRRS rd, csr, rs1 (R121). -/
  | csrrs (rd : RegNum) (csr : CsrNum) (rs1 : RegNum)
  /-- CSRRC rd, csr, rs1 (R122). -/
  | csrrc (rd : RegNum) (csr : CsrNum) (rs1 : RegNum)
  /-- CSRRWI rd, csr, uimm (R123). -/
  | csrrwi (rd : RegNum) (csr : CsrNum) (uimm : Uimm)
  /-- CSRRSI rd, csr, uimm (R124). -/
  | csrrsi (rd : RegNum) (csr : CsrNum) (uimm : Uimm)
  /-- CSRRCI rd, csr, uimm (R125). -/
  | csrrci (rd : RegNum) (csr : CsrNum) (uimm : Uimm)
  /-- SFENCE.VMA rs1, rs2 (R170). -/
  | sfenceVma (rs1 rs2 : RegNum)
deriving DecidableEq, Repr

end Sys2Proof
end

