-- ==== Sys2Proof/Machine/State.lean ====
section
/-! DEFINITION. The state of the machine, the ways a step can stop, the operations of the environment, and the state
right after reset. -/

namespace Sys2Proof.Machine

/-- A privilege mode (R12, R184). -/
inductive Priv where
  | U
  | S
  | M
deriving DecidableEq, Repr

/-- The exceptions the PMP can cause (R173). -/
inductive Exception where
  | instructionAccessFault
  | illegalInstruction
  | loadAccessFault
  | storeAccessFault
deriving DecidableEq, Repr

/-- The address-matching modes, the values of the A field (R18, R76). -/
inductive MatchMode where
  | off
  | tor
  | na4
  | napot
deriving DecidableEq, Repr

/-- The type of an access (R51). -/
inductive AccessType where
  | read
  | write
  | exec
deriving DecidableEq, Repr

/-- The class of one access (R50). A page-table access is a read or an update of a page-table entry, made to translate a
reference of the class `original` (R51, R155). -/
inductive AccessClass where
  | own (c : RefClass)
  | pageTable (update : Bool) (original : RefClass)
deriving DecidableEq, Repr

/-- PMP settings: a snapshot of every entry, entry 0 first (R11, R166). -/
abbrev Settings := List PmpEntry

/-- Memory: bytes by physical byte address, addresses strictly rising; an address not listed holds no value
(notes/assumptions/17.md). -/
abbrev Memory := List Host.Cell

/-- The state of the hart that the PMP reads and does not own (R41, R45, R170). -/
structure Hart where
  /-- The current privilege mode. -/
  priv : Priv
  /-- `mstatus.MPRV`. -/
  mprv : Bool
  /-- `mstatus.MPP`: U = 0, S = 1, M = 3. -/
  mpp : BitVec 2
  /-- `mstatus.TVM`. -/
  tvm : Bool
  /-- The general registers x0 to x31. -/
  regs : Vector Word 32
  /-- The program counter. -/
  pc : Word
deriving DecidableEq, Repr

/-- What `CsrRead` and `CsrWrite` find behind a CSR number (R92). -/
inductive PmpCsr where
  | cfg (c : Nat)
  | addr (i : Nat)
  | noSuchCsr
  | notPmp
deriving DecidableEq, Repr

/-- One access of an instruction, as the environment presents it (R7, R163). -/
structure Access where
  /-- none: the reference itself; some false: the read of a page-table entry; some true: the update of one. -/
  pageTable : Option Bool
  /-- The first physical byte address. -/
  y : Nat
  /-- The number of bytes. -/
  n : Nat
  /-- The bytes a write stores at y, y+1, ...; no part of a read. None for a store-conditional that is checked and stores
  nothing (D25; notes/assumptions/37.md). -/
  data : List Byte
  /-- The verdict of the PMA checks, which are the platform's (R49). -/
  pmaOk : Bool
deriving DecidableEq, Repr

/-- The memory accesses of one instruction of the hart (R156, R163). -/
structure MemInstr where
  cls : RefClass
  accesses : List Access
  /-- The hart raises an address-misaligned exception for this reference unless an access-fault goes first (R181). -/
  misaligned : Bool
deriving DecidableEq, Repr

/-- A memory reference at a physical address and the implementation's choice of its parts (R157, D20): sizes in order,
each with the verdict of the PMA checks. -/
structure Reference where
  cls : RefClass
  y : Nat
  n : Nat
  data : List Byte
  parts : List (Nat × Bool)
  misaligned : Bool
deriving DecidableEq, Repr

/-- One access to a page-table entry that translating an address makes (R163, R164): an input, with its own address, size
and verdict of the PMA checks. -/
structure WalkAccess where
  /-- false: the entry is read; true: it is updated. -/
  update : Bool
  y : Nat
  n : Nat
  /-- The bytes an update stores; no part of a read. -/
  data : List Byte
  pmaOk : Bool
deriving DecidableEq, Repr

/-- How fetches at the addresses from `virtual` up are translated (R163, R164): an input, since the translation algorithm is
outside the spec (notes/assumptions/15.md). -/
structure Translation where
  virtual : Nat
  /-- How many addresses. -/
  size : Nat
  /-- The physical address of `virtual`; none where translation ends in a page-fault. -/
  physical : Option Nat
  /-- The page-table accesses made, in order; none where the translation is cached. -/
  walk : List WalkAccess
deriving DecidableEq, Repr

/-- The unspecified values that `Reset()` draws for one entry (R192, R193). -/
structure ResetDraw where
  /-- ResetRWX(i): X, W, R as bits 2, 1, 0. -/
  rwx : BitVec 3
  /-- ResetAddr(i). -/
  addr : Word
deriving DecidableEq, Repr

/-- The operations the environment performs on the machine (R7), and its changes of state that is not the PMP's. -/
inductive EnvOp where
  /-- `CsrRead(priv, a)` (R96); `priv` is the hart's current mode (R7). -/
  | csrRead (a : CsrNum)
  /-- `CsrWrite(priv, a, v)` (R105); `priv` is the hart's current mode (R7). -/
  | csrWrite (a : CsrNum) (v : Word)
  /-- `PmpCheck(S, y, n, t, p)` (R149). -/
  | pmpCheck (S : Settings) (y n : Nat) (t : AccessType) (p : Priv)
  /-- `Access` for a reference and its parts (R151, R157). -/
  | reference (r : Reference)
  /-- `Access` for every access of one instruction, translation included (R156, R163). -/
  | accesses (m : MemInstr)
  /-- `SfenceVmaAll()` (R168). -/
  | sfenceVmaAll
  /-- `Reset()` (R196), with its draws and the hart state that the spec does not give. -/
  | reset (draws : List ResetDraw) (hart : Hart)
  /-- `SetMxlen(m)` (R118). -/
  | setMxlen (m : Mxlen)
  /-- The hart changed its own state: another instruction, trap entry, trap return (R6, R183, R185). -/
  | hart (h : Hart)
  /-- Something other than this hart wrote memory, unchecked by this PMP (R188). -/
  | foreignWrite (y : Nat) (data : List Byte)
  /-- The platform's PMAs deny instruction fetches in these ranges from now on (R49; notes/assumptions/22.md). -/
  | pmas (noFetch : List (Nat × Nat))
  /-- Fetches are translated so from now on (R163, R164; notes/assumptions/15.md). -/
  | translations (l : List Translation)
deriving DecidableEq, Repr

/-- What the last environment operation answered. -/
inductive Reply where
  /-- Nothing has been answered. -/
  | none
  /-- `CsrRead` returned a value. -/
  | value (v : Word)
  /-- `PmpCheck` returned Ok (true) or Fail (false). -/
  | decision (ok : Bool)
  /-- The operation was performed; every access proceeded. -/
  | done
  /-- The operation raised an exception (R180). -/
  | raised (e : Exception)
  /-- The hart raises its own address-misaligned exception (R181). -/
  | misaligned
deriving DecidableEq, Repr

/-- The whole state: the PMP's, the hart's, memory, the implementation's parameters, and the model's own fields. -/
structure State where
  /-- The parameters of the implementation; no step changes them (R8). -/
  params : Config
  /-- The current MXLEN (R8, R118). -/
  mxlen : Mxlen
  /-- `cur`: the current settings, `cfg(i)` and `addr(i)` (R13). -/
  pmp : Settings
  /-- The settings a check may still use, a set as a list without repeats (R43, R166). -/
  stale : List Settings
  hart : Hart
  mem : Memory
  /-- Where the platform's PMAs deny an instruction fetch (R49): ranges of physical bytes, first address and size. -/
  pmaNoFetch : List (Nat × Nat)
  /-- How the hart's fetches are translated (R163, R164); an address in none of them is its own physical address. -/
  translations : List Translation
  /-- The exception raised and not yet taken by the hart's trap unit (R11, R180). -/
  raised : Option Exception
  /-- The model's own: environment operations not yet performed, oldest first. -/
  pending : List EnvOp
  /-- The model's own: the answer to the last environment operation. -/
  reply : Reply
  /-- The model's own: how many free choices have been drawn. -/
  freeCount : Nat
deriving DecidableEq, Repr

/-- Why the machine stops with a fault. -/
inductive Fault where
  /-- `step`, when an exception has been raised, nothing is pending, and the hart's trap unit, which is outside the spec
  (R6, R183), would act. Safe: the hart goes on, the model stops. -/
  | untakenException (e : Exception)
  /-- `step`, when the fetch reads a byte that nothing has written. Safe: the hart reads some value, the model stops. -/
  | unwrittenCode (address : Nat)
  /-- `step`, when translating the pc ends in a page-fault, which is the hart's and outside the spec (R6, R181). Safe: the
  hart goes on, the model stops. -/
  | fetchPageFault (address : Nat)
deriving DecidableEq, Repr

/-- Why the model gives no next state. Every one is safe: the hardware goes on, the model stops. -/
inductive Refusal where
  /-- `exec`: the instruction has no meaning yet. -/
  | notModelled (mnemonic : String)
  /-- `step`: the word is none of the seven instructions (R89). -/
  | notInTable (word : List Byte)
  /-- A CSR operation on a number outside 0x3A0 to 0x3EF: another CSR of the hart (R89, R96, R105). -/
  | notPmpCsr (a : CsrNum)
  /-- A check of an access of no bytes (R150). -/
  | emptyAccess
  /-- A check of an access past the top of the physical address space (R150). -/
  | beyondPhysicalSpace
  /-- An explicit data access with MPRV = 1 and MPP = 2, which is no mode (R53, D29). -/
  | reservedMpp
  /-- `step`: the pc is not a multiple of 4, where none of the seven instructions can be (R85). -/
  | misalignedFetch
  /-- A reference in parts that `Decompose` does not admit (R157, D20). -/
  | notADecomposition
  /-- A write request without one byte of data for each byte written, but for a store-conditional without data (D25). -/
  | dataSizeMismatch
  /-- `SetMxlen` to a width too narrow for the grain (D5). -/
  | grainTooCoarse
deriving DecidableEq, Repr

/-- How a CSR operation ends when it does not complete. -/
inductive Stop where
  /-- It raises the exception (R97, R99). -/
  | exception (e : Exception)
  /-- The spec gives it no meaning (R89). -/
  | refusal (r : Refusal)
deriving DecidableEq, Repr

/-- A fully working entry: every field and every address bit writable, not hardwired (R109, R114). -/
def fullEntryParams : EntryParams :=
  { wmask := 0x9F#8, addrMask := 0x003FFFFFFFFFFFFF#64, hardwired := none }

/-- The implementation of `State.reset`: the conventions of 95_test_vectors.md (notes/assumptions/2.md). -/
def resetParams : Config :=
  { entryCount := .sixteen
    grain := 0
    hasVm := true
    entries := List.replicate 16 fullEntryParams
    addrRule := .masked
    fetchSplit := .whole
    dataSplit := .anyPartition
    prefetchExp := 6
    smallestPage := 4096 }

/-- The settings of `State.reset`: every entry OFF and unlocked (R190, R191); X, W, R and the addresses are unspecified
and named zero (R192, R193; notes/assumptions/3.md and 4.md). -/
def resetSettings : Settings := List.replicate 16 { cfg := 0x00#8, addr := 0#64 }

/-- The hart of `State.reset`: M-mode with MPRV = 0 (R195); the rest is unspecified and named zero
(notes/assumptions/5.md to 7.md). -/
def resetHart : Hart :=
  { priv := .M, mprv := false, mpp := 0#2, tvm := false, regs := Vector.replicate 32 0#64, pc := 0#64 }

/-- The machine right after reset (R44, R190 to R196). -/
def State.reset : State :=
  { params := resetParams
    mxlen := .rv32
    pmp := resetSettings
    stale := [resetSettings]
    hart := resetHart
    mem := []
    pmaNoFetch := []
    translations := []
    raised := none
    pending := []
    reply := .none
    freeCount := 0 }

end Sys2Proof.Machine
end

