-- ==== Sys2Proof/Machine/Operands.lean ====
section
/-! DEFINITION. Widths, and the operand forms of the instructions: general registers, the zero-extended immediate, and
the CSR number decoded into a PMP register. -/

namespace Sys2Proof.Machine

/-- `ones(k)`: k low bits set (R10). -/
def onesWord (k : Nat) : Word := BitVec.ofNat 64 (2 ^ k - 1)

/-- MXLEN in bits (R8). -/
def mxlenBits : Mxlen → Nat
  | .rv32 => 32
  | .rv64 => 64

/-- AW: how many address bits a `pmpaddr` register holds (R8, R29, R30). -/
def addrBits : Mxlen → Nat
  | .rv32 => 32
  | .rv64 => 54

/-- PALEN: the width of a physical byte address (R8, R46). -/
def palen (m : Mxlen) : Nat := addrBits m + 2

/-- K: how many configuration bytes a `pmpcfg` CSR holds (R24). -/
def cfgBytes (m : Mxlen) : Nat := mxlenBits m / 8

/-- The bits of an MXLEN-bit value. -/
def xlenMask (m : Mxlen) : Word := onesWord (mxlenBits m)

/-- The address bits of a `pmpaddr` register (R29, R30). -/
def addrBitsMask (m : Mxlen) : Word := onesWord (addrBits m)

/-- N as a number (R14). -/
def entryCountNat : EntryCount → Nat
  | .zero => 0
  | .sixteen => 16
  | .sixtyFour => 64

/-- N of the parameters (R14). -/
def entryTotal (p : Config) : Nat := entryCountNat p.entryCount

/-- `CfgCsrOf(i)`: the index of the `pmpcfg` CSR that holds entry i (R24). -/
def cfgCsrOf (m : Mxlen) (i : Nat) : Nat := cfgBytes m / 4 * (i / cfgBytes m)

/-- `CfgByteOf(i)`: the byte position of entry i in that CSR (R24). -/
def cfgByteOf (m : Mxlen) (i : Nat) : Nat := i % cfgBytes m

/-- `EntryOf(c, b)` (R24). -/
def entryOf (c b : Nat) : Nat := 4 * c + b

/-- `DecodePmpCsr(a)` (R92), with the numbers of R72 and R73. -/
def decodePmpCsr (m : Mxlen) (p : Config) (a : CsrNum) : PmpCsr :=
  if 0x3A0 ≤ a.toNat ∧ a.toNat ≤ 0x3AF then
    if m = .rv64 ∧ (a.toNat - 0x3A0) % 2 = 1 then .noSuchCsr
    else if entryTotal p ≤ 4 * (a.toNat - 0x3A0) then .noSuchCsr
    else .cfg (a.toNat - 0x3A0)
  else if 0x3B0 ≤ a.toNat ∧ a.toNat ≤ 0x3EF then
    if entryTotal p ≤ a.toNat - 0x3B0 then .noSuchCsr
    else .addr (a.toNat - 0x3B0)
  else .notPmp

/-- The number of `pmpcfgc` (R72). -/
def pmpcfgNum (c : Nat) : CsrNum := BitVec.ofNat 12 (0x3A0 + c)

/-- The number of `pmpaddri` (R73). -/
def pmpaddrNum (i : Nat) : CsrNum := BitVec.ofNat 12 (0x3B0 + i)

/-- `x[r]`: x0 reads as zero (R11, R45). -/
def readReg (s : State) (r : RegNum) : Word :=
  if r = 0#5 then 0#64
  else s.hart.regs[r.toNat]'(by have := r.isLt; omega) &&& xlenMask s.mxlen

/-- `x[r] <- v`: a write of x0 is ignored (R11, R45). -/
def writeReg (s : State) (r : RegNum) (v : Word) : State :=
  if r = 0#5 then s
  else
    { s with
      hart := { s.hart with
        regs := s.hart.regs.set r.toNat (v &&& xlenMask s.mxlen) (by have := r.isLt; omega) } }

/-- `zext_MXLEN(inst[19:15])` (R86). -/
def zextUimm (u : Uimm) : Word := u.setWidth 64

/-- `pc <- pc + 4` (R119), in MXLEN bits. -/
def advancePc (s : State) : State :=
  { s with hart := { s.hart with pc := (s.hart.pc + 4#64) &&& xlenMask s.mxlen } }

/-- The mode a two-bit MPP value stands for (R41): U = 0, S = 1, M = 3; 2 is no mode (D29). -/
def privOfMpp (v : BitVec 2) : Option Priv :=
  if v = 0#2 then some .U
  else if v = 1#2 then some .S
  else if v = 3#2 then some .M
  else none

end Sys2Proof.Machine
end

