-- ==== Sys2Proof/Machine/Flags.lean ====
section
/-! DEFINITION. RISC-V has no condition codes (R45). The flags of this unit are the fields L, A, X, W, R of a configuration
byte: reading them, which bytes are legal, and what a write of one stores. -/

namespace Sys2Proof.Machine

/-- L, bit 7 (R16, R93). -/
def cfgL (b : Byte) : Bool := b.getLsbD 7

/-- A, bits 4:3, as a number (R16, R93). -/
def cfgA (b : Byte) : BitVec 2 := b.extractLsb' 3 2

/-- `A[1]`, bit 4 (R18). -/
def cfgA1 (b : Byte) : Bool := b.getLsbD 4

/-- X, bit 2 (R16, R93). -/
def cfgX (b : Byte) : Bool := b.getLsbD 2

/-- W, bit 1 (R16, R93). -/
def cfgW (b : Byte) : Bool := b.getLsbD 1

/-- R, bit 0 (R16, R93). -/
def cfgR (b : Byte) : Bool := b.getLsbD 0

/-- The mode that the A field encodes (R18, R76). -/
def cfgMode (b : Byte) : MatchMode :=
  if cfgA b = 0#2 then .off
  else if cfgA b = 1#2 then .tor
  else if cfgA b = 2#2 then .na4
  else .napot

/-- The permission bit of an access type (R144, R149). -/
def cfgPermits (b : Byte) : AccessType → Bool
  | .read => cfgR b
  | .write => cfgW b
  | .exec => cfgX b

/-- `b = L<<7 | A<<3 | X<<2 | W<<1 | R` (R75, R93). -/
def cfgOfFields (l : Bool) (a : BitVec 2) (x w r : Bool) : Byte :=
  BitVec.ofBool l ++ 0#2 ++ a ++ BitVec.ofBool x ++ BitVec.ofBool w ++ BitVec.ofBool r

/-- The reserved combinations: R = 0 and W = 1 (R17, R81). -/
def cfgReserved (b : Byte) : Bool := cfgW b && !cfgR b

/-- NA4 is not selectable when G >= 1 (R18, R83). -/
def cfgSelectable (g : Nat) (b : Byte) : Bool := decide (g = 0) || !decide (cfgMode b = .na4)

/-- Properties 2 and 3 of R109. -/
def cfgLegal (g : Nat) (b : Byte) : Bool := !cfgReserved b && cfgSelectable g b

/-- What the parameters say of entry i; an entry that is not listed is read-only zero (R26). -/
def entryParams (p : Config) (i : Nat) : EntryParams :=
  p.entries.getD i { wmask := 0#8, addrMask := 0#64, hardwired := none }

/-- WMASK(i), without bits 6:5 (R8, R109). -/
def wmaskOf (p : Config) (i : Nat) : Byte := (entryParams p i).wmask &&& 0x9F#8

/-- ADDR_MASK(i), within the address bits of the width (R8, R114). -/
def addrMaskOf (m : Mxlen) (p : Config) (i : Nat) : Word := (entryParams p i).addrMask &&& addrBitsMask m

/-- The legal byte that stands for the free byte `b`: `b` within the mask if that is legal, else zero. Every legal byte
within the mask is reached. -/
def cfgMadeLegal (p : Config) (i : Nat) (b : Byte) : Byte :=
  if cfgLegal p.grain (b &&& wmaskOf p i) then b &&& wmaskOf p i else 0#8

/-- `LegalCfg(i, old, w)` (R108 to R110): a hardwired entry keeps its byte; a legal written value is stored as written
within WMASK(i); for any other the stored value is free among the legal ones. -/
def legalCfg (p : Config) (i : Nat) (old w : Byte) : Byte :=
  match (entryParams p i).hardwired with
  | some _ => old
  | none =>
    if cfgLegal p.grain (w &&& wmaskOf p i) then w &&& wmaskOf p i
    else cfgMadeLegal p i (Config.freeCfg i old w)

/-- `LegalAddr(i, old, v)` (R110, R113, R114). -/
def legalAddr (m : Mxlen) (p : Config) (i : Nat) (old v : Word) : Word :=
  match (entryParams p i).hardwired with
  | some _ => old
  | none =>
    match p.addrRule with
    | .masked => v &&& addrMaskOf m p i
    | .unstated =>
      if v &&& addrMaskOf m p i = v then v
      else Config.freeAddr i old v &&& addrMaskOf m p i

end Sys2Proof.Machine
end

