-- ==== Sys2Proof/Machine/Match.lean ====
section
/-! DEFINITION. Address matching (41_address_matching.md) and the read view of an address register (R37). Addresses are
natural numbers, comparisons unsigned (R10). -/

namespace Sys2Proof.Machine

/-- `cfg(i)` of settings; an entry that is not there is OFF. -/
def cfgAt (S : Settings) (i : Nat) : Byte := (S.getD i { cfg := 0#8, addr := 0#64 }).cfg

/-- `addr(i)` of settings, the underlying value (R11, R36). -/
def addrAt (S : Settings) (i : Nat) : Word := (S.getD i { cfg := 0#8, addr := 0#64 }).addr

/-- `addr_read(i)`: the value a CSR read returns, and the one NAPOT matching uses (R34, R35, R37, R135). -/
def addrRead (g : Nat) (S : Settings) (i : Nat) : Word :=
  if cfgA1 (cfgAt S i) then
    if 2 ≤ g then addrAt S i ||| onesWord (g - 1) else addrAt S i
  else
    if 1 ≤ g then addrAt S i &&& ~~~(onesWord g) else addrAt S i

/-- Trailing one bits of v, at most `fuel`. -/
def trailingOnesUpTo : Nat → Nat → Nat
  | 0, _ => 0
  | fuel + 1, v => if v % 2 = 1 then trailingOnesUpTo fuel (v / 2) + 1 else 0

/-- `cto(v)` (R10). An MXLEN-bit value of 32 bits has zeros above, so one bound serves both widths. -/
def cto (v : Word) : Nat := trailingOnesUpTo 64 v.toNat

/-- `TorBound(j)`: a byte address; the low G register bits do not count (R128, R131). -/
def torBound (g : Nat) (S : Settings) (j : Nat) : Nat := (((addrAt S j).toNat >>> g) <<< g) <<< 2

/-- The bottom of a TOR range: zero for entry 0 (R129). -/
def torBottom (g : Nat) (S : Settings) (i : Nat) : Nat := if i = 0 then 0 else torBound g S (i - 1)

/-- The base of the region that a NAPOT value names (R134). -/
def napotBase (v : Word) : Nat := (v.toNat >>> (cto v + 1)) <<< (cto v + 3)

/-- The size of the region that a NAPOT value names (R134). -/
def napotSize (v : Word) : Nat := 2 ^ (cto v + 3)

/-- `Match(S, i, y)` (R127, R128, R129, R133, R134, R136). -/
def matchByte (g : Nat) (S : Settings) (i y : Nat) : Bool :=
  match cfgMode (cfgAt S i) with
  | .off => false
  | .tor => decide (torBottom g S i ≤ y ∧ y < torBound g S i)
  | .na4 => decide (y >>> 2 = (addrAt S i).toNat)
  | .napot =>
    decide (y >>> (cto (addrRead g S i) + 3) = (addrRead g S i).toNat >>> (cto (addrRead g S i) + 1))

/-- `Region(S, i)` as an interval `[lo, hi)` of byte addresses (R136); `lo >= hi` when it is empty. -/
def regionOf (g : Nat) (S : Settings) (i : Nat) : Nat × Nat :=
  match cfgMode (cfgAt S i) with
  | .off => (0, 0)
  | .tor => (torBottom g S i, torBound g S i)
  | .na4 => ((addrAt S i).toNat <<< 2, ((addrAt S i).toNat <<< 2) + 4)
  | .napot => (napotBase (addrRead g S i), napotBase (addrRead g S i) + napotSize (addrRead g S i))

/-- Software-side encoding of a NAPOT region of 2^s bytes at base B, s >= 3 (R95). -/
def napotEncode (base s : Nat) : Nat := (base >>> 2) ||| (2 ^ (s - 3) - 1)

end Sys2Proof.Machine
end

