-- ==== Sys2Proof/Machine/Memory.lean ====
section
/-! DEFINITION. Memory: one byte at a physical address, and the operations on several. -/

namespace Sys2Proof.Machine

/-- Whether every address of the list is above `a`, rising. -/
def memRisesFrom : Nat → Memory → Bool
  | _, [] => true
  | a, (k, _) :: t => decide (a < k) && memRisesFrom k t

/-- The canonical form: addresses strictly rising. -/
def Memory.wf : Memory → Bool
  | [] => true
  | (k, _) :: t => memRisesFrom k t

/-- The byte at an address; none where nothing has been written (notes/assumptions/17.md). -/
def readByte : Memory → Nat → Option Byte
  | [], _ => none
  | (k, v) :: t, a => if k = a then some v else readByte t a

/-- Writes one byte, keeping the canonical form. -/
def writeByte : Memory → Nat → Byte → Memory
  | [], a, b => [(a, b)]
  | (k, v) :: t, a, b =>
    if a < k then (a, b) :: (k, v) :: t
    else if a = k then (a, b) :: t
    else (k, v) :: writeByte t a b

/-- Writes consecutive bytes from an address up. -/
def writeBytes : Memory → Nat → List Byte → Memory
  | m, _, [] => m
  | m, a, b :: t => writeBytes (writeByte m a b) (a + 1) t

/-- The first address, of n from a, that holds no value. -/
def firstUnwritten : Memory → Nat → Nat → Option Nat
  | _, _, 0 => none
  | m, a, n + 1 => if (readByte m a).isNone then some a else firstUnwritten m (a + 1) n

/-- The n bytes from an address up; an address without a value gives zero, and is caught by `firstUnwritten`. -/
def readBytes : Memory → Nat → Nat → List Byte
  | _, _, 0 => []
  | m, a, n + 1 => (readByte m a).getD 0#8 :: readBytes m (a + 1) n

end Sys2Proof.Machine
end

