-- ==== Sys2Proof/Machine/Check.lean ====
section
/-! DEFINITION. The check of an access: `PmpCheck`, effective privilege, `Access`, decomposition, the additional reads
(20_memory.md, 42_access_check.md, 43_paging_sync.md). -/

namespace Sys2Proof.Machine

/-- Entry i matches some byte of the access (R141, R149). -/
def matchesAny (g : Nat) (S : Settings) (i y n : Nat) : Bool :=
  (List.range n).any fun k => matchByte g S i (y + k)

/-- Entry i matches every byte of the access (R142, R149). -/
def matchesAll (g : Nat) (S : Settings) (i y n : Nat) : Bool :=
  (List.range n).all fun k => matchByte g S i (y + k)

/-- The decision of the deciding entry (R142 to R144). -/
def entryDecision (g : Nat) (S : Settings) (i y n : Nat) (t : AccessType) (p : Priv) : Bool :=
  matchesAll g S i y n && ((!cfgL (cfgAt S i) && decide (p = .M)) || cfgPermits (cfgAt S i) t)

/-- The deciding entry among `count` entries from entry i up: the lowest-numbered that matches any byte (R140, R141). -/
def decidingFrom (g : Nat) (S : Settings) (y n : Nat) : Nat → Nat → Option Nat
  | 0, _ => none
  | count + 1, i => if matchesAny g S i y n then some i else decidingFrom g S y n count (i + 1)

/-- The deciding entry of an access (R141). -/
def decidingEntry (p : Config) (S : Settings) (y n : Nat) : Option Nat :=
  decidingFrom p.grain S y n (entryTotal p) 0

/-- `PmpCheck(S, y, n, t, p)` = Ok (R149); with no deciding entry the defaults of R145 to R147. -/
def pmpCheck (c : Config) (S : Settings) (y n : Nat) (t : AccessType) (p : Priv) : Bool :=
  match decidingEntry c S y n with
  | some i => entryDecision c.grain S i y n t p
  | none => decide (p = .M) || decide (entryTotal c = 0)

/-- The type checked for a reference (R51). -/
def refType : RefClass → AccessType
  | .fetch => .exec
  | .load => .read
  | .loadReserved => .read
  | .store => .write
  | .storeConditional => .write
  | .amo => .write

/-- The type checked for an access (R51). -/
def accessType : AccessClass → AccessType
  | .own c => refType c
  | .pageTable update _ => if update then .write else .read

/-- The access-fault of a reference (R152 to R154). -/
def refFault : RefClass → Exception
  | .fetch => .instructionAccessFault
  | .load => .loadAccessFault
  | .loadReserved => .loadAccessFault
  | .store => .storeAccessFault
  | .storeConditional => .storeAccessFault
  | .amo => .storeAccessFault

/-- The access-fault of an access: for a page-table access that of the reference being translated (R155). -/
def accessFault : AccessClass → Exception
  | .own c => refFault c
  | .pageTable _ original => refFault original

/-- `EffPriv(cls, priv, MPRV, MPP)` (R52 to R55); none when MPP holds no mode (D29). -/
def effPriv (cls : AccessClass) (priv : Priv) (mprv : Bool) (mpp : BitVec 2) : Option Priv :=
  match cls with
  | .pageTable _ _ => some .S
  | .own .fetch => some priv
  | .own _ => if mprv then privOfMpp mpp else some priv

/-- The member that a free index picks: the only one when there is one, `other` when there is none. -/
def pickOne {α : Type} (index : Nat) (other : α) : List α → α
  | [] => other
  | [x] => x
  | x :: y :: rest => (x :: y :: rest).getD (index % (rest.length + 2)) other

/-- The settings the check at the k-th free choice uses: any member of `stale` when HAS_VM, the current ones otherwise
(R166, R169). -/
def checkSettings (s : State) (k : Nat) : Settings :=
  if s.params.hasVm then pickOne (Config.freeIndex k) s.pmp s.stale else s.pmp

/-- The precondition of `PmpCheck` (R150). -/
def accessRefusal (m : Mxlen) (y n : Nat) : Option Refusal :=
  if n = 0 then some .emptyAccess
  else if 2 ^ palen m < y + n then some .beyondPhysicalSpace
  else none

/-- `Access(cls, y, n, priv, MPRV, MPP)` at the k-th free choice (R151), and the PMA verdict beside it (R49): whether the
access proceeds, or the refusal of its precondition. -/
def accessCheck (s : State) (k : Nat) (cls : AccessClass) (y n : Nat) (pmaOk : Bool) : Except Refusal Bool :=
  match accessRefusal s.mxlen y n with
  | some r => .error r
  | none =>
    match effPriv cls s.hart.priv s.hart.mprv s.hart.mpp with
    | none => .error .reservedMpp
    | some p => .ok (pmpCheck s.params (checkSettings s k) y n (accessType cls) p && pmaOk)

/-- The class of one access of an instruction (R50, R155). -/
def classOf (cls : RefClass) (a : Access) : AccessClass :=
  match a.pageTable with
  | none => .own cls
  | some update => .pageTable update cls

/-- Whether an access of an instruction writes memory (R51). -/
def isWrite (cls : RefClass) (a : Access) : Bool := decide (accessType (classOf cls a) = .write)

/-- A write comes with one byte of data for each byte it writes; or, where it is the access of a store-conditional, with
none: whether one that lost its reservation still presents an access is left to the hart (R70, D25), so it may be presented
and checked and store nothing. DESIGN CHOICE (notes/assumptions/37.md). -/
def dataFits (cls : RefClass) (a : Access) : Bool :=
  !isWrite cls a || decide (a.data.length = a.n)
    || (decide (classOf cls a = .own .storeConditional) && a.data.isEmpty)

/-- The verdicts of the accesses of an instruction, each at a free choice of its own (R156, R166), or the first refusal. -/
def checkAll (s : State) (cls : RefClass) : Nat → List Access → Except Refusal (List Bool)
  | _, [] => .ok []
  | k, a :: rest =>
    if dataFits cls a then
      match accessCheck s k (classOf cls a) a.y a.n a.pmaOk with
      | .error r => .error r
      | .ok v =>
        match checkAll s cls (k + 1) rest with
        | .error r => .error r
        | .ok vs => .ok (v :: vs)
    else .error .dataSizeMismatch

/-- Memory after those writes of the list that `performed` says of the access's place and verdict (R156). -/
def performWrites (cls : RefClass) (performed : Nat → Bool → Bool) : Nat → Memory → List Access → List Bool → Memory
  | _, m, [], _ => m
  | _, m, _ :: _, [] => m
  | j, m, a :: rest, v :: vs =>
    performWrites cls performed (j + 1)
      (if isWrite cls a && performed j v then writeBytes m a.y a.data else m) rest vs

/-- Memory after the accesses of an instruction (R156): when all pass, every write was performed; when one fails, any subset
of the writes that pass, a free value for each (notes/assumptions/11.md). -/
def accessedMem (s : State) (cls : RefClass) (accesses : List Access) (verdicts : List Bool) : Memory :=
  performWrites cls (fun j v => v && (verdicts.all id || Config.freeBit s.freeCount j)) 0 s.mem accesses verdicts

/-- Sizes of consecutive parts, none empty, that make up n bytes (D20). -/
def isPartition (n : Nat) (sizes : List Nat) : Bool :=
  sizes.all (fun k => decide (0 < k)) && decide (sizes.sum = n)

/-- The rule of the class (R8). -/
def splitRule (p : Config) (cls : RefClass) : SplitRule := if cls = .fetch then p.fetchSplit else p.dataSplit

/-- The relation `Decompose(cls, y, n)` (R8, R157, R158): the partitions of `[y, y+n)` that the parameter admits. -/
def decomposes (p : Config) (cls : RefClass) (y n : Nat) (sizes : List Nat) : Bool :=
  isPartition n sizes &&
    match splitRule p cls with
    | .whole => decide (sizes = [n])
    | .anyPartition => true
    | .unstated => Config.freeDecompose cls y n sizes

/-- The accesses of a reference cut into the given parts (R157). -/
def partsOf : Nat → List Byte → List (Nat × Bool) → List Access
  | _, _, [] => []
  | y, data, (k, pma) :: rest =>
    { pageTable := none, y := y, n := k, data := data.take k, pmaOk := pma } :: partsOf (y + k) (data.drop k) rest

/-- PREFETCH_SIZE, a power of two (R8, R62). -/
def prefetchSize (p : Config) : Nat := 2 ^ p.prefetchExp

/-- The regions of the additional reads that a non-speculative implicit read at `a` permits, as (base, size) pairs
(R61): the aligned region of the address, and for a fetch the next one, modulo 2^XLEN. They are not performed, not
checked, and raise nothing (R62, D24; notes/assumptions/24.md). -/
def additionalReads (m : Mxlen) (p : Config) (fetch : Bool) (a : Nat) : List (Nat × Nat) :=
  let base := a - a % prefetchSize p
  (base, prefetchSize p)
    :: (if fetch then [((base + prefetchSize p) % 2 ^ mxlenBits m, prefetchSize p)] else [])

end Sys2Proof.Machine
end

