-- ==== Sys2Proof/Machine/Ops.lean ====
section
/-! DEFINITION. The shared operations: raising an exception, reading and writing the PMP CSRs, the synchronisation,
`Reset`, `SetMxlen`. -/

namespace Sys2Proof.Machine

/-- Whether an exception is outstanding after an operation is State's `raised`; this is the one way it is set.
`raise e` (R11, R119, R180): no register is written, the pc is not advanced, PMP state is unchanged; what is reported is
the kind alone. Trap entry and return are the hart's (R6, R183): the environment operation `hart`. -/
def raiseException (e : Exception) (s : State) : State := { s with raised := some e }

/-- The exception codes (R178). -/
def exceptionCode : Exception → Nat
  | .instructionAccessFault => 1
  | .illegalInstruction => 2
  | .loadAccessFault => 5
  | .storeAccessFault => 7

/-- How an instruction ends: its next state; or the exception it raised, from the state it began in (R119); or a
refusal. -/
def settle (s : State) : Except Stop State → Host.Outcome State Fault Refusal
  | .ok t => .next t
  | .error (.exception e) => .next (raiseException e s)
  | .error (.refusal r) => .refused r

/-- The set of settings with one more member (R43). -/
def insertSettings (S : Settings) (l : List Settings) : List Settings := if S ∈ l then l else S :: l

/-- `if HAS_VM then stale = stale ∪ {cur}` (R105, R166). -/
def recordCurrent (s : State) : State :=
  if s.params.hasVm then { s with stale := insertSettings s.pmp s.stale } else s

/-- The bytes of a CSR value, lowest first, put together (R78, R79). -/
def packBytes : List Byte → Word
  | [] => 0#64
  | b :: rest => b.setWidth 64 ||| (packBytes rest <<< 8)

/-- `v[8b+7:8b]` (R106). -/
def byteOfWord (v : Word) (b : Nat) : Byte := v.extractLsb' (8 * b) 8

/-- `CfgCsrValue(c)` (R100). -/
def cfgCsrValue (m : Mxlen) (S : Settings) (c : Nat) : Word :=
  packBytes ((List.range (cfgBytes m)).map fun b => cfgAt S (entryOf c b))

/-- `CsrRead(priv, a)` (R96 to R104). -/
def csrRead (s : State) (priv : Priv) (a : CsrNum) : Except Stop Word :=
  match decodePmpCsr s.mxlen s.params a with
  | .notPmp => .error (.refusal (.notPmpCsr a))
  | .noSuchCsr => .error (.exception .illegalInstruction)
  | .cfg c =>
    if priv = .M then .ok (cfgCsrValue s.mxlen s.pmp c) else .error (.exception .illegalInstruction)
  | .addr i =>
    if priv = .M then .ok (addrRead s.params.grain s.pmp i &&& xlenMask s.mxlen)
    else .error (.exception .illegalInstruction)

/-- What a write of the byte w leaves in `pmpicfg` (R106, R107): ignored when the entry is locked. -/
def writeCfgByte (p : Config) (i : Nat) (old w : Byte) : Byte := if cfgL old then old else legalCfg p i old w

/-- `WriteCfgCsr(c, v)` (R106): K independent writes, all against the state before. -/
def writeCfgCsr (m : Mxlen) (p : Config) (S : Settings) (c : Nat) (v : Word) : Settings :=
  S.mapIdx fun i e =>
    if entryOf c 0 ≤ i ∧ i < entryOf c (cfgBytes m) then
      { e with cfg := writeCfgByte p i e.cfg (byteOfWord v (i - entryOf c 0)) }
    else e

/-- Whether writes of `pmpaddri` are ignored (R112): entry i locked, or entry i+1 locked with A = TOR. -/
def addrLocked (p : Config) (S : Settings) (i : Nat) : Bool :=
  cfgL (cfgAt S i)
    || (decide (i + 1 < entryTotal p) && cfgL (cfgAt S (i + 1)) && decide (cfgMode (cfgAt S (i + 1)) = .tor))

/-- `WriteAddr(i, v)` (R111, R115). -/
def writeAddr (m : Mxlen) (p : Config) (S : Settings) (i : Nat) (v : Word) : Settings :=
  if addrLocked p S i then S
  else S.mapIdx fun j e => if j = i then { e with addr := legalAddr m p i e.addr v } else e

/-- `CsrWrite(priv, a, v)` (R105 to R116); v counts in MXLEN bits. -/
def csrWrite (s : State) (priv : Priv) (a : CsrNum) (v : Word) : Except Stop State :=
  match decodePmpCsr s.mxlen s.params a with
  | .notPmp => .error (.refusal (.notPmpCsr a))
  | .noSuchCsr => .error (.exception .illegalInstruction)
  | .cfg c =>
    if priv = .M then
      .ok (recordCurrent { s with pmp := writeCfgCsr s.mxlen s.params s.pmp c (v &&& xlenMask s.mxlen) })
    else .error (.exception .illegalInstruction)
  | .addr i =>
    if priv = .M then
      .ok (recordCurrent { s with pmp := writeAddr s.mxlen s.params s.pmp i (v &&& xlenMask s.mxlen) })
    else .error (.exception .illegalInstruction)

/-- The read and write of CSRRW and CSRRWI (R120, R123): with rd = x0 the CSR is not read. -/
def csrSwap (s : State) (rd : RegNum) (a : CsrNum) (v : Word) : Except Stop State :=
  match (if rd = 0#5 then .ok 0#64 else csrRead s s.hart.priv a) with
  | .error e => .error e
  | .ok t =>
    match csrWrite s s.hart.priv a v with
    | .error e => .error e
    | .ok s' => .ok (advancePc (writeReg s' rd t))

/-- The read and the write of CSRRS, CSRRC and their immediate forms (R121, R122, R124, R125): no write when `writes` is
false; the value written is built from the value read. -/
def csrModify (s : State) (rd : RegNum) (a : CsrNum) (writes : Bool) (f : Word → Word) : Except Stop State :=
  match csrRead s s.hart.priv a with
  | .error e => .error e
  | .ok t =>
    match (if writes then csrWrite s s.hart.priv a (f t) else .ok s) with
    | .error e => .error e
    | .ok s' => .ok (advancePc (writeReg s' rd t))

/-- `SfenceVmaAll()` (R168). What a fence does to address-translation caches is outside the spec (R170): the inputs
`translations` stay as they are, those without page-table accesses too, until the environment sets others. DESIGN CHOICE
(notes/assumptions/35.md). -/
def sfenceVmaAll (s : State) : State := { s with stale := [s.pmp] }

/-- What `Reset()` leaves in entry i (R190 to R193, R196): a hardwired entry its constants; else L = 0, A = 0, bits 6:5 = 0,
and legal draws of X, W, R and the address. -/
def resetEntry (m : Mxlen) (p : Config) (i : Nat) (d : ResetDraw) : PmpEntry :=
  match (entryParams p i).hardwired with
  | some c => { cfg := c.cfg, addr := c.addr &&& addrBitsMask m }
  | none => { cfg := cfgMadeLegal p i (d.rwx.setWidth 8), addr := d.addr &&& addrMaskOf m p i }

/-- The settings `Reset()` establishes; a draw that is not given is zero (R196). -/
def resetEntries (m : Mxlen) (p : Config) (draws : List ResetDraw) : Settings :=
  (List.range (entryTotal p)).map fun i => resetEntry m p i (draws.getD i { rwx := 0#3, addr := 0#64 })

/-- `Reset()` (R194 to R196). The hart runs in M-mode with MPRV = 0; its other state is what the environment says. -/
def resetUnit (s : State) (draws : List ResetDraw) (hart : Hart) : State :=
  { s with
    pmp := resetEntries s.mxlen s.params draws
    stale := [resetEntries s.mxlen s.params draws]
    hart := { hart with priv := .M, mprv := false }
    raised := none }

/-- What a change of MXLEN leaves in an address register (R117): narrowing keeps the low bits, widening zero-extends. -/
def modulateAddr (old new : Mxlen) (v : Word) : Word := v &&& xlenMask old &&& xlenMask new

/-- `SetMxlen(m)` (R117, R118): every `cfg(i)` is preserved. The new settings are current, so a check may use them too
(R166; notes/assumptions/19.md). -/
def setMxlen (s : State) (m : Mxlen) : State :=
  recordCurrent
    { s with
      mxlen := m
      pmp := s.pmp.map fun e => { e with addr := modulateAddr s.mxlen m e.addr } }

end Sys2Proof.Machine
end

