-- ==== Sys2Proof/Machine/Csr.lean ====
section
/-! DEFINITION. The meanings of the six CSR instructions (R119 to R125). -/

namespace Sys2Proof.Machine

/-- CSRRW rd, csr, rs1 (R120). -/
def execCsrrw (rd : RegNum) (csr : CsrNum) (rs1 : RegNum) (s : State) : Host.Outcome State Fault Refusal :=
  settle s (csrSwap s rd csr (readReg s rs1))

/-- CSRRS rd, csr, rs1 (R121): no write when rs1 is x0, whatever its value. -/
def execCsrrs (rd : RegNum) (csr : CsrNum) (rs1 : RegNum) (s : State) : Host.Outcome State Fault Refusal :=
  settle s (csrModify s rd csr (decide (rs1 ≠ 0#5)) fun t => t ||| readReg s rs1)

/-- CSRRC rd, csr, rs1 (R122). -/
def execCsrrc (rd : RegNum) (csr : CsrNum) (rs1 : RegNum) (s : State) : Host.Outcome State Fault Refusal :=
  settle s (csrModify s rd csr (decide (rs1 ≠ 0#5)) fun t => t &&& ~~~(readReg s rs1))

/-- CSRRWI rd, csr, uimm (R123). -/
def execCsrrwi (rd : RegNum) (csr : CsrNum) (uimm : Uimm) (s : State) : Host.Outcome State Fault Refusal :=
  settle s (csrSwap s rd csr (zextUimm uimm))

/-- CSRRSI rd, csr, uimm (R124): no write when uimm = 0. -/
def execCsrrsi (rd : RegNum) (csr : CsrNum) (uimm : Uimm) (s : State) : Host.Outcome State Fault Refusal :=
  settle s (csrModify s rd csr (decide (uimm ≠ 0#5)) fun t => t ||| zextUimm uimm)

/-- CSRRCI rd, csr, uimm (R125). -/
def execCsrrci (rd : RegNum) (csr : CsrNum) (uimm : Uimm) (s : State) : Host.Outcome State Fault Refusal :=
  settle s (csrModify s rd csr (decide (uimm ≠ 0#5)) fun t => t &&& ~~~(zextUimm uimm))

end Sys2Proof.Machine
end

