-- ==== Sys2Proof/Machine/Fence.lean ====
section
/-! DEFINITION. The meaning of SFENCE.VMA (R170, R171). -/

namespace Sys2Proof.Machine

/-- Whether SFENCE.VMA raises illegal-instruction: in U-mode, and in S-mode with TVM = 1 (R170). -/
def fenceIllegal (h : Hart) : Bool := decide (h.priv = .U) || (decide (h.priv = .S) && h.tvm)

/-- SFENCE.VMA rs1, rs2 (R170); decided by the register numbers; any other form than x0, x0 leaves `stale` alone
(R171). No form changes `translations`: DESIGN CHOICE (notes/assumptions/35.md). -/
def execSfenceVma (rs1 rs2 : RegNum) (s : State) : Host.Outcome State Fault Refusal :=
  settle s
    (if fenceIllegal s.hart then .error (.exception .illegalInstruction)
     else if rs1 = 0#5 ∧ rs2 = 0#5 then .ok (advancePc (sfenceVmaAll s))
     else .ok (advancePc s))

end Sys2Proof.Machine
end

