-- ==== Sys2Proof/Machine/Env.lean ====
section
/-! DEFINITION. The operations of the environment (R7), performed by a step when one is pending. -/

namespace Sys2Proof.Machine

/-- An operation of the environment raised an exception: the instruction of the hart that made it takes it (R180). -/
def replyRaised (e : Exception) (s : State) : State := { raiseException e s with reply := .raised e }

/-- How an environment operation ends when it stops. -/
def replyStop (s : State) : Stop → Host.Outcome State Fault Refusal
  | .exception e => .next (replyRaised e s)
  | .refusal r => .refused r

/-- `CsrRead(priv, a)` (R96): `priv` is the mode the hart is in (R7). -/
def envCsrRead (s : State) (a : CsrNum) : Host.Outcome State Fault Refusal :=
  match csrRead s s.hart.priv a with
  | .ok v => .next { s with reply := .value v }
  | .error e => replyStop s e

/-- `CsrWrite(priv, a, v)` (R105): `priv` is the mode the hart is in (R7), so below M it changes no settings (R97, R189). -/
def envCsrWrite (s : State) (a : CsrNum) (v : Word) : Host.Outcome State Fault Refusal :=
  match csrWrite s s.hart.priv a v with
  | .ok t => .next { t with reply := .done }
  | .error e => replyStop s e

/-- `PmpCheck(S, y, n, t, p)` with its precondition (R149, R150). -/
def envPmpCheck (s : State) (S : Settings) (y n : Nat) (t : AccessType) (p : Priv) :
    Host.Outcome State Fault Refusal :=
  match accessRefusal s.mxlen y n with
  | some r => .refused r
  | none => .next { s with reply := .decision (pmpCheck s.params S y n t p) }

/-- The accesses of one instruction, given their verdicts (R156, R181): if one fails, the access-fault of the instruction
is certain and any subset of the passing writes was performed; a misaligned reference ends in the hart's own exception
unless the access-fault goes first. -/
def performInstr (s : State) (m : MemInstr) (verdicts : List Bool) : State :=
  let t := { s with freeCount := s.freeCount + m.accesses.length + 1 }
  if m.misaligned && (verdicts.all id || Config.misalignedBeforeAccessFault) then { t with reply := .misaligned }
  else
    let u := { t with mem := accessedMem s m.cls m.accesses verdicts }
    if verdicts.all id then { u with reply := .done } else replyRaised (refFault m.cls) u

/-- `Access` for every access of one instruction (R151, R156, R163). -/
def envAccesses (s : State) (m : MemInstr) : Host.Outcome State Fault Refusal :=
  match checkAll s m.cls s.freeCount m.accesses with
  | .error r => .refused r
  | .ok verdicts => .next (performInstr s m verdicts)

/-- A reference as one access, before it is split. -/
def wholeOf (r : Reference) : Access := { pageTable := none, y := r.y, n := r.n, data := r.data, pmaOk := true }

/-- A memory reference and a decomposition of it that `Decompose` admits (R157, R158). -/
def envReference (s : State) (r : Reference) : Host.Outcome State Fault Refusal :=
  match accessRefusal s.mxlen r.y r.n with
  | some e => .refused e
  | none =>
    if decomposes s.params r.cls r.y r.n (r.parts.map Prod.fst) then
      if dataFits r.cls (wholeOf r) then
        envAccesses s { cls := r.cls, accesses := partsOf r.y r.data r.parts, misaligned := r.misaligned }
      else .refused .dataSizeMismatch
    else .refused .notADecomposition

/-- `SetMxlen(m)` (R118); refused when the grain does not fit the width (D5). -/
def envSetMxlen (s : State) (m : Mxlen) : Host.Outcome State Fault Refusal :=
  if s.params.grain < addrBits m then .next { setMxlen s m with reply := .done } else .refused .grainTooCoarse

/-- A write of memory that is not this hart's (R188). -/
def envForeignWrite (s : State) (y : Nat) (data : List Byte) : Host.Outcome State Fault Refusal :=
  if 2 ^ palen s.mxlen < y + data.length then .refused .beyondPhysicalSpace
  else .next { s with mem := writeBytes s.mem y data, reply := .done }

/-- Performs one operation of the environment (R7). -/
def runEnv (op : EnvOp) (s : State) : Host.Outcome State Fault Refusal :=
  match op with
  | .csrRead a => envCsrRead s a
  | .csrWrite a v => envCsrWrite s a v
  | .pmpCheck S y n t p => envPmpCheck s S y n t p
  | .reference r => envReference s r
  | .accesses m => envAccesses s m
  | .sfenceVmaAll => .next { sfenceVmaAll s with reply := .done }
  | .reset draws hart => .next { resetUnit s draws hart with reply := .done }
  | .setMxlen m => envSetMxlen s m
  | .hart h => .next { s with hart := h, raised := none, reply := .done }
  | .foreignWrite y data => envForeignWrite s y data
  | .pmas noFetch => .next { s with pmaNoFetch := noFetch, reply := .done }
  | .translations l => .next { s with translations := l, reply := .done }

end Sys2Proof.Machine
end

