-- ==== Sys2Proof/WellFormed.lean ====
section
/-! DEFINITION. Which instructions belong to this spec: a CSR instruction is well formed when its CSR number is a PMP
CSR number (R89). Register numbers and immediates are bounded by their types. -/

namespace Sys2Proof

/-- The PMP occupies the CSR numbers 0x3A0 to 0x3EF (R47). -/
def CsrNum.inPmpRange (a : CsrNum) : Bool :=
  decide (0x3A0 ≤ a.toNat ∧ a.toNat ≤ 0x3EF)

/-- An instruction this spec gives a meaning to (R89): one of the seven, and a CSR instruction names a PMP CSR number. -/
def Instr.wellFormed : Instr → Bool
  | .csrrw _ csr _ => CsrNum.inPmpRange csr
  | .csrrs _ csr _ => CsrNum.inPmpRange csr
  | .csrrc _ csr _ => CsrNum.inPmpRange csr
  | .csrrwi _ csr _ => CsrNum.inPmpRange csr
  | .csrrsi _ csr _ => CsrNum.inPmpRange csr
  | .csrrci _ csr _ => CsrNum.inPmpRange csr
  | .sfenceVma _ _ => true

end Sys2Proof
end

