-- ==== Sys2Proof/Decode.lean ====
section
/-! DEFINITION. Decoding: total on any bytes, rejecting by name; and the encoder, from the same opcode map (R85 to R88). -/

namespace Sys2Proof

/-- Why bytes are none of the seven instructions. -/
inductive DecodeError where
  /-- Fewer than four bytes. -/
  | truncated
  /-- The major opcode is not SYSTEM (R85). -/
  | notSystem
  /-- SYSTEM with funct3 = 100, which is not in the table (R87). -/
  | funct3NotInTable
  /-- SYSTEM with funct3 = 000 and not SFENCE.VMA: another privileged instruction (R87). -/
  | otherPrivileged
deriving DecidableEq, Repr

/-- One row of the opcode map: a word `w` is this instruction iff `w AND mask = pattern` (R87). -/
structure OpcodeRow where
  mask : BitVec 32
  pattern : BitVec 32
deriving DecidableEq, Repr

/-- `w AND mask = match` (R87). -/
def rowCovers (r : OpcodeRow) (w : BitVec 32) : Bool := w &&& r.mask == r.pattern

/-- The row of CSRRW (R87). -/
def rowCsrrw : OpcodeRow := { mask := 0x0000707F#32, pattern := 0x00001073#32 }
/-- The row of CSRRS (R87). -/
def rowCsrrs : OpcodeRow := { mask := 0x0000707F#32, pattern := 0x00002073#32 }
/-- The row of CSRRC (R87). -/
def rowCsrrc : OpcodeRow := { mask := 0x0000707F#32, pattern := 0x00003073#32 }
/-- The row of CSRRWI (R87). -/
def rowCsrrwi : OpcodeRow := { mask := 0x0000707F#32, pattern := 0x00005073#32 }
/-- The row of CSRRSI (R87). -/
def rowCsrrsi : OpcodeRow := { mask := 0x0000707F#32, pattern := 0x00006073#32 }
/-- The row of CSRRCI (R87). -/
def rowCsrrci : OpcodeRow := { mask := 0x0000707F#32, pattern := 0x00007073#32 }
/-- The row of SFENCE.VMA (R87). -/
def rowSfenceVma : OpcodeRow := { mask := 0xFE007FFF#32, pattern := 0x12000073#32 }

/-- The opcode map (R87). -/
def opcodeTable : List OpcodeRow :=
  [rowCsrrw, rowCsrrs, rowCsrrc, rowCsrrwi, rowCsrrsi, rowCsrrci, rowSfenceVma]

/-- `inst[31:20]` (R86). -/
def fieldCsr (w : BitVec 32) : CsrNum := w.extractLsb' 20 12
/-- `inst[24:20]` (R85). -/
def fieldRs2 (w : BitVec 32) : RegNum := w.extractLsb' 20 5
/-- `inst[19:15]`: rs1 or uimm (R86). -/
def fieldRs1 (w : BitVec 32) : RegNum := w.extractLsb' 15 5
/-- `inst[14:12]` (R85). -/
def fieldFunct3 (w : BitVec 32) : BitVec 3 := w.extractLsb' 12 3
/-- `inst[11:7]` (R86). -/
def fieldRd (w : BitVec 32) : RegNum := w.extractLsb' 7 5
/-- `inst[6:0]` (R85). -/
def fieldOpcode (w : BitVec 32) : BitVec 7 := w.extractLsb' 0 7

/-- The name under which a word outside the table is rejected (R87, R89). -/
def rejectionOf (w : BitVec 32) : DecodeError :=
  if fieldOpcode w ≠ 0b1110011#7 then .notSystem
  else if fieldFunct3 w = 0b100#3 then .funct3NotInTable
  else .otherPrivileged

/-- The instruction a 32-bit word encodes (R85 to R87). -/
def decodeWord (w : BitVec 32) : Except DecodeError Instr :=
  if rowCovers rowCsrrw w then .ok (.csrrw (fieldRd w) (fieldCsr w) (fieldRs1 w))
  else if rowCovers rowCsrrs w then .ok (.csrrs (fieldRd w) (fieldCsr w) (fieldRs1 w))
  else if rowCovers rowCsrrc w then .ok (.csrrc (fieldRd w) (fieldCsr w) (fieldRs1 w))
  else if rowCovers rowCsrrwi w then .ok (.csrrwi (fieldRd w) (fieldCsr w) (fieldRs1 w))
  else if rowCovers rowCsrrsi w then .ok (.csrrsi (fieldRd w) (fieldCsr w) (fieldRs1 w))
  else if rowCovers rowCsrrci w then .ok (.csrrci (fieldRd w) (fieldCsr w) (fieldRs1 w))
  else if rowCovers rowSfenceVma w then .ok (.sfenceVma (fieldRs1 w) (fieldRs2 w))
  else .error (rejectionOf w)

/-- The little-endian word of four bytes, the first at the lowest address (R85). -/
def wordOfBytes (b0 b1 b2 b3 : Byte) : BitVec 32 := b3 ++ b2 ++ b1 ++ b0

/-- Decodes the instruction at the front of the bytes; answers it with the bytes that follow. -/
def decode : List Byte → Except DecodeError (Instr × List Byte)
  | b0 :: b1 :: b2 :: b3 :: rest =>
    match decodeWord (wordOfBytes b0 b1 b2 b3) with
    | .ok i => .ok (i, rest)
    | .error e => .error e
  | _ => .error .truncated

/-- The four bytes of a word, lowest address first (R85). -/
def bytesOfWord (w : BitVec 32) : List Byte :=
  [w.extractLsb' 0 8, w.extractLsb' 8 8, w.extractLsb' 16 8, w.extractLsb' 24 8]

/-- An I-type word of opcode SYSTEM (R85). -/
def iTypeWord (csr : CsrNum) (src : BitVec 5) (funct3 : BitVec 3) (rd : RegNum) : BitVec 32 :=
  csr ++ src ++ funct3 ++ rd ++ 0b1110011#7

/-- The R-type word of SFENCE.VMA (R85). -/
def rTypeWord (rs2 rs1 : RegNum) : BitVec 32 :=
  0b0001001#7 ++ rs2 ++ rs1 ++ 0b000#3 ++ 0b00000#5 ++ 0b1110011#7

/-- The word of an instruction (R85 to R88). -/
def encodeWord : Instr → BitVec 32
  | .csrrw rd csr rs1 => iTypeWord csr rs1 0b001#3 rd
  | .csrrs rd csr rs1 => iTypeWord csr rs1 0b010#3 rd
  | .csrrc rd csr rs1 => iTypeWord csr rs1 0b011#3 rd
  | .csrrwi rd csr uimm => iTypeWord csr uimm 0b101#3 rd
  | .csrrsi rd csr uimm => iTypeWord csr uimm 0b110#3 rd
  | .csrrci rd csr uimm => iTypeWord csr uimm 0b111#3 rd
  | .sfenceVma rs1 rs2 => rTypeWord rs2 rs1

/-- The bytes of an instruction, lowest address first. -/
def encode (i : Instr) : List Byte := bytesOfWord (encodeWord i)

/-- The instruction the decoder reads from the word whose low `nbits` bits are `w`, the rest zero, laid out in memory as
the hart stores it. -/
def decodeTableWord (nbits w : Nat) : Option Instr :=
  match decode (bytesOfWord (BitVec.ofNat 32 (w % 2 ^ nbits))) with
  | .ok (i, _) => some i
  | .error _ => none

end Sys2Proof
end

