-- ==== Sys2Proof/Machine/Fetch.lean ====
section
/-! DEFINITION. Fetching an instruction: the checked accesses at the pc, then the four bytes (R11, R85, R152). -/

namespace Sys2Proof.Machine

/-- What a fetch gives, and the memory it leaves: an update of a page-table entry is a write (R163). -/
inductive Fetched where
  /-- The four bytes at the pc. -/
  | bytes (l : List Byte) (mem : Memory)
  /-- An access failed: instruction access-fault (R152, R155, R156). -/
  | denied (mem : Memory)
  /-- Translation ended in the hart's own page-fault. -/
  | pageFault
  /-- A byte that nothing has written. -/
  | unwritten (address : Nat)
  /-- The fetch is none of this spec. -/
  | refused (r : Refusal)
deriving DecidableEq, Repr

/-- The address the hart fetches at: the pc, in MXLEN bits. -/
def fetchPc (s : State) : Nat := (s.hart.pc &&& xlenMask s.mxlen).toNat

/-- The translation of the pc: none in M-mode and without virtual memory, where the mapping is the identity (R165, R169;
notes/assumptions/15.md). -/
def translationOf (s : State) : Option Translation :=
  if s.params.hasVm && !decide (s.hart.priv = .M) then
    s.translations.find? fun t => decide (t.virtual ≤ fetchPc s) && decide (fetchPc s < t.virtual + t.size)
  else none

/-- A page-table access as an access of the fetch (R50, R164). -/
def walkAccess (w : WalkAccess) : Access :=
  { pageTable := some w.update, y := w.y, n := w.n, data := w.data, pmaOk := w.pmaOk }

/-- The page-table accesses of this fetch (R163). -/
def fetchWalk (s : State) : List Access :=
  match translationOf s with
  | some t => t.walk.map walkAccess
  | none => []

/-- Whether translating the pc ends in a page-fault, so that no byte is fetched (R181). -/
def fetchPageFaults (s : State) : Bool :=
  match translationOf s with
  | some t => t.physical.isNone
  | none => false

/-- The physical address of the fetch (R163): the translated pc. -/
def fetchAddress (s : State) : Nat :=
  match translationOf s with
  | some t => t.physical.getD t.virtual + (fetchPc s - t.virtual)
  | none => fetchPc s

/-- How many free choices a fetch draws: one for each page-table access, and as many as the word has bytes, since it has no
more parts than that. -/
def fetchDraws (s : State) : Nat := (fetchWalk s).length + 4

/-- The state after a fetch that leaves the memory m. -/
def drawn (s : State) (m : Memory) : State := { s with mem := m, freeCount := s.freeCount + fetchDraws s }

/-- The partitions of an instruction word. -/
def wordSplits : List (List Nat) := [[4], [1, 3], [2, 2], [3, 1], [1, 1, 2], [1, 2, 1], [2, 1, 1], [1, 1, 1, 1]]

/-- The sizes of the parts of this fetch: a free choice among those that `Decompose` admits (R157; notes/assumptions/38.md);
one access where it admits none. -/
def fetchSizes (s : State) : List Nat :=
  pickOne (Config.freeSplit s.freeCount) [4] (wordSplits.filter (decomposes s.params .fetch (fetchAddress s) 4))

/-- The verdict of the PMA checks on a fetch of n bytes at y: no byte in a range they deny (R49; notes/assumptions/22.md). -/
def pmaAllowsFetch (noFetch : List (Nat × Nat)) (y n : Nat) : Bool :=
  (List.range n).all fun k => noFetch.all fun r => !(decide (r.1 ≤ y + k) && decide (y + k < r.1 + r.2))

/-- The parts of a fetch from an address up, each with the verdict of the PMA checks. -/
def fetchParts (noFetch : List (Nat × Nat)) : Nat → List Nat → List (Nat × Bool)
  | _, [] => []
  | y, n :: rest => (n, pmaAllowsFetch noFetch y n) :: fetchParts noFetch (y + n) rest

/-- The accesses of the fetch at the pc (R152, R157, R163): those that translate it, then the parts of the word. -/
def fetchAccesses (s : State) : List Access :=
  fetchWalk s ++
    if fetchPageFaults s then []
    else partsOf (fetchAddress s) [] (fetchParts s.pmaNoFetch (fetchAddress s) (fetchSizes s))

/-- The fetch of the instruction at the pc, a multiple of 4: the page-table accesses that translate it and the accesses of
class Fetch that make up its 4 bytes, each of which must pass the PMP and the PMA checks (R49, R85, R119, R152, R156,
R163). -/
def fetch (s : State) : Fetched :=
  if fetchPc s % 4 ≠ 0 then .refused .misalignedFetch
  else
    match checkAll s .fetch s.freeCount (fetchAccesses s) with
    | .error r => .refused r
    | .ok verdicts =>
      let m := accessedMem s .fetch (fetchAccesses s) verdicts
      if verdicts.all id then
        if fetchPageFaults s then .pageFault
        else
          match firstUnwritten m (fetchAddress s) 4 with
          | some a => .unwritten a
          | none => .bytes (readBytes m (fetchAddress s) 4) m
      else .denied m

/-- The instruction of the fetched bytes, or the refusal of a word outside the table (R89). -/
def decodeFetched (l : List Byte) : Except Refusal Instr :=
  match decode l with
  | .ok (i, _) => .ok i
  | .error _ => .error (.notInTable l)

/-- The bytes of a word of `nbits` bits, the rest zero, put where `fetch` reads. -/
def placeAtPc (s : State) (nbits w : Nat) : Memory :=
  writeBytes s.mem (fetchAddress s) (bytesOfWord (BitVec.ofNat 32 (w % 2 ^ nbits)))

end Sys2Proof.Machine
end

