-- ==== Sys2Proof/Machine/Step.lean ====
section
/-! DEFINITION. One step: the oldest pending operation of the environment; or, when none is pending, the instruction at
the pc. -/

namespace Sys2Proof.Machine

/-- The step of the instruction at the pc (R119, R152): the fetch is checked first; a denied fetch raises
instruction access-fault and nothing is decoded (R174, R181). -/
def stepInstr (s : State) : Host.Outcome State Fault Refusal :=
  match fetch s with
  | .refused r => .refused r
  | .unwritten a => .fault (.unwrittenCode a)
  | .pageFault => .fault (.fetchPageFault (fetchPc s))
  | .denied m => .next (raiseException .instructionAccessFault (drawn s m))
  | .bytes l m =>
    match decodeFetched l with
    | .error r => .refused r
    | .ok i => exec i (drawn s m)

/-- One step of the machine. -/
def step (s : State) : Host.Outcome State Fault Refusal :=
  match s.pending with
  | op :: rest => runEnv op { s with pending := rest }
  | [] =>
    match s.raised with
    | some e => .fault (.untakenException e)
    | none => stepInstr s

/-- The state with an instruction of `nbits` bits stored where `step` fetches, and nothing before it: no operation of the
environment pending, no exception outstanding. -/
def State.withFetchWord (s : State) (nbits w : Nat) : State :=
  { s with mem := placeAtPc s nbits w, pending := [], raised := none }

end Sys2Proof.Machine
end

