-- ==== Sys2Proof/Safety.lean ====
section
/-! DEFINITION. The terms that claims use: what well-formed parameters and settings are, the invariant that every step
keeps (R196), and when an entry is locked. -/

namespace Sys2Proof.Machine

/-- The constants of a hardwired entry are legal (R110), with bits 6:5 zero (R191) and no bit that is not an address bit. -/
abbrev HardwiredLegal (p : Config) (c : PmpEntry) : Prop :=
  c.cfg &&& 0x60#8 = 0#8 ∧ cfgLegal p.grain c.cfg = true ∧ c.addr &&& ~~~(addrBitsMask .rv64) = 0#64

/-- Parameters that R8, R9, R62 and R110 allow: legal constants of hardwired entries, and with virtual memory a
PREFETCH_SIZE not above the smallest page. The rest holds otherwise: N by its type; WMASK(i), ADDR_MASK(i) and the power of
two of PREFETCH_SIZE by the accessors `wmaskOf`, `addrMaskOf` and `prefetchSize`; the bound of G in `State.Inv`. -/
abbrev ConfigWf (p : Config) : Prop :=
  (∀ i, i < entryTotal p → ∀ c ∈ (entryParams p i).hardwired, HardwiredLegal p c) ∧
    (p.hasVm = true → prefetchSize p ≤ p.smallestPage)

/-- What every state says of one entry (R196): bits 6:5 zero, no reserved combination, no NA4 with G >= 1, no address bit
above the width; a hardwired entry has its constant byte (R110), any other has its read-only-zero bits zero (R109, R114). -/
abbrev EntryWf (m : Mxlen) (p : Config) (i : Nat) (e : PmpEntry) : Prop :=
  e.cfg &&& 0x60#8 = 0#8 ∧ cfgLegal p.grain e.cfg = true ∧ e.addr &&& ~~~(addrBitsMask m) = 0#64 ∧
    (∀ c ∈ (entryParams p i).hardwired, e.cfg = c.cfg) ∧
    ((entryParams p i).hardwired = none →
      e.cfg &&& ~~~(wmaskOf p i) = 0#8 ∧ e.addr &&& ~~~(addrMaskOf m p i) = 0#64)

/-- Settings of the right length, every entry well formed. -/
abbrev SettingsWf (m : Mxlen) (p : Config) (S : Settings) : Prop :=
  S.length = entryTotal p ∧ ∀ i, i < S.length → EntryWf m p i (S.getD i { cfg := 0#8, addr := 0#64 })

/-- The invariant of every state that `Reset()` leaves and every operation keeps (R196): the grain fits the width (D5), the
current settings are well formed, every settings value that may still be used was so at one width or the other, the
current ones are among them when HAS_VM, `stale` is a set, memory is in canonical form. -/
abbrev State.Inv (s : State) : Prop :=
  ConfigWf s.params ∧ s.params.grain < addrBits s.mxlen ∧ SettingsWf s.mxlen s.params s.pmp ∧
    (∀ S ∈ s.stale, SettingsWf .rv64 s.params S) ∧ (s.params.hasVm = true → s.pmp ∈ s.stale) ∧
    s.stale.Nodup ∧ Memory.wf s.mem = true

/-- The accesses of an instruction can be checked: none is empty or past the address space (R150), each has an effective
mode (D29), and a write has its data, or none for a store-conditional (D25). -/
abbrev Presentable (s : State) (cls : RefClass) (accesses : List Access) : Prop :=
  ∀ a ∈ accesses, a.n ≠ 0 ∧ a.y + a.n ≤ 2 ^ palen s.mxlen ∧
    (effPriv (classOf cls a) s.hart.priv s.hart.mprv s.hart.mpp).isSome = true ∧
    (isWrite cls a = true → a.data.length = a.n ∨ (classOf cls a = .own .storeConditional ∧ a.data = []))

/-- The verdicts of an instruction's accesses (R49, R51, R55, R151, R166): each is that of `PmpCheck` for the access's type
at its effective mode, with settings of its own, and of the PMA checks. -/
def Verdicts (s : State) (cls : RefClass) (accesses : List Access) (vs : List Bool) : Prop :=
  vs.length = accesses.length ∧
  ∀ (j : Nat) (a : Access), accesses[j]? = some a →
    ∃ p, effPriv (classOf cls a) s.hart.priv s.hart.mprv s.hart.mpp = some p ∧
      vs[j]? = some
        (pmpCheck s.params (checkSettings s (s.freeCount + j)) a.y a.n (accessType (classOf cls a)) p && a.pmaOk)

/-- The access, a write, stores to the address. -/
abbrev WritesTo (cls : RefClass) (a : Access) (q : Nat) : Prop :=
  isWrite cls a = true ∧ a.y ≤ q ∧ q < a.y + a.data.length

/-- Memory `new` is `old` after exactly the writes of the list that `done` says (R156): an address that none of them stores
to reads as before, and a byte of one of them reads as stored unless a later one stores there too. -/
def Performed (cls : RefClass) (accesses : List Access) (done : Nat → Bool) (old new : Memory) : Prop :=
  (∀ q, (∀ (j : Nat) (a : Access), accesses[j]? = some a → done j = true → ¬WritesTo cls a q) →
    readByte new q = readByte old q) ∧
  ∀ (j : Nat) (a : Access) (k : Nat) (hk : k < a.data.length),
    accesses[j]? = some a → done j = true → isWrite cls a = true →
    (∀ (j' : Nat) (a' : Access), j < j' → accesses[j']? = some a' → done j' = true → ¬WritesTo cls a' (a.y + k)) →
    readByte new (a.y + k) = some a.data[k]

/-- Entry i is locked (R19). -/
def entryLocked (S : Settings) (i : Nat) : Bool := cfgL (cfgAt S i)

/-- The next operation is a hart reset (R190). -/
def resetIsNext (s : State) : Bool :=
  match s.pending with
  | .reset _ _ :: _ => true
  | _ => false

/-- The next operation changes MXLEN (R118). -/
def mxlenChangeIsNext (s : State) : Bool :=
  match s.pending with
  | .setMxlen _ :: _ => true
  | _ => false

end Sys2Proof.Machine
end

