-- ==== Sys2Proof/Certificates/Slice0/Obligations.lean ====
section
/-! DEFINITION. The statements for the provers, and the few notions they share (Sys2Proof.Claims). -/

namespace Sys2Proof.Claims

open Sys2Proof.Machine

/-- A register stands behind the CSR number (R92). -/
def CsrExists (s : State) (a : CsrNum) : Prop :=
  (∃ c, decodePmpCsr s.mxlen s.params a = .cfg c) ∨ ∃ i, decodePmpCsr s.mxlen s.params a = .addr i

/-- The value a read of the CSR returns: the packed configuration bytes (R100), or the read view of the address register
(R101). -/
def csrView (s : State) (a : CsrNum) : Word :=
  match decodePmpCsr s.mxlen s.params a with
  | .cfg c => cfgCsrValue s.mxlen s.pmp c
  | .addr i => addrRead s.params.grain s.pmp i &&& xlenMask s.mxlen
  | _ => 0#64

/-- Writes of `pmpaddri` are ignored (R112): entry i is locked, or entry i+1 is locked with A = TOR. -/
def AddrFrozen (s : State) (i : Nat) : Prop :=
  cfgL (cfgAt s.pmp i) = true ∨
    (i + 1 < entryTotal s.params ∧ cfgL (cfgAt s.pmp (i + 1)) = true ∧ cfgMode (cfgAt s.pmp (i + 1)) = .tor)

/-- What a write of v to the CSR leaves (R105, R106, R107, R111, R112): in every entry's byte, at the place of R24, the
legalised byte when the CSR holds it and it is unlocked; in the address register the CSR names the legalised value when
it is not frozen; everything else as before; and the settings are recorded when HAS_VM. -/
def Stored (s t : State) (a : CsrNum) (v : Word) : Prop :=
  t.pmp.length = s.pmp.length ∧
  (∀ j, j < s.pmp.length →
    (decodePmpCsr s.mxlen s.params a = .cfg (cfgCsrOf s.mxlen j) ∧ cfgL (cfgAt s.pmp j) = false →
      cfgAt t.pmp j
        = legalCfg s.params j (cfgAt s.pmp j) (v.extractLsb' (8 * cfgByteOf s.mxlen j) 8)) ∧
    (¬(decodePmpCsr s.mxlen s.params a = .cfg (cfgCsrOf s.mxlen j) ∧ cfgL (cfgAt s.pmp j) = false) →
      cfgAt t.pmp j = cfgAt s.pmp j) ∧
    (decodePmpCsr s.mxlen s.params a = .addr j ∧ ¬AddrFrozen s j →
      addrAt t.pmp j = legalAddr s.mxlen s.params j (addrAt s.pmp j) (v &&& xlenMask s.mxlen)) ∧
    (¬(decodePmpCsr s.mxlen s.params a = .addr j ∧ ¬AddrFrozen s j) → addrAt t.pmp j = addrAt s.pmp j)) ∧
  ∀ S, S ∈ t.stale ↔ S ∈ s.stale ∨ (s.params.hasVm = true ∧ S = t.pmp)

/-- No settings were written: the settings and `stale` are as before. -/
def NothingStored (s t : State) : Prop := t.pmp = s.pmp ∧ t.stale = s.stale

/-- What a CSR instruction with destination rd leaves alone, and the pc it leaves (R119): every register but rd; x0; the
mode and the mstatus fields; every byte of memory; where the platform denies fetches and how they are translated; the
parameters and the width; the outstanding exception; the model's own fields. -/
def CsrFrame (rd : RegNum) (s t : State) : Prop :=
  (∀ r, r ≠ rd → readReg t r = readReg s r) ∧ readReg t 0#5 = 0#64 ∧
  t.hart.pc = (s.hart.pc + 4#64) &&& xlenMask s.mxlen ∧
  t.hart.priv = s.hart.priv ∧ t.hart.mprv = s.hart.mprv ∧ t.hart.mpp = s.hart.mpp ∧ t.hart.tvm = s.hart.tvm ∧
  (∀ a, readByte t.mem a = readByte s.mem a) ∧
  t.params = s.params ∧ t.mxlen = s.mxlen ∧ t.raised = s.raised ∧ t.pmaNoFetch = s.pmaNoFetch ∧
  t.translations = s.translations ∧ t.pending = s.pending ∧ t.reply = s.reply ∧ t.freeCount = s.freeCount

/-- Where a CSR instruction on the number a is turned away: a number of no PMP CSR is refused (R89); a number without a
register, or a mode below M, raises illegal-instruction and changes nothing else (R97, R99, R119). -/
def TurnedAway (i : Instr) (a : CsrNum) (s : State) : Prop :=
  (decodePmpCsr s.mxlen s.params a = .notPmp → exec i s = .refused (.notPmpCsr a)) ∧
  (decodePmpCsr s.mxlen s.params a = .noSuchCsr ∨ (CsrExists s a ∧ s.hart.priv ≠ .M) →
    exec i s = .next { s with raised := some .illegalInstruction })

/-- The deciding entry by the regions' intervals instead of byte by byte (R136): the region is not empty and meets
`[y, y+n)`. -/
def intervalMeets (g : Nat) (S : Settings) (i y n : Nat) : Bool :=
  decide ((regionOf g S i).1 < (regionOf g S i).2 ∧ (regionOf g S i).1 < y + n ∧ y < (regionOf g S i).2)

/-- The region covers `[y, y+n)` (R136). -/
def intervalCovers (g : Nat) (S : Settings) (i y n : Nat) : Bool :=
  decide ((regionOf g S i).1 ≤ y ∧ y + n ≤ (regionOf g S i).2)

/-- `PmpCheck` by intervals, over the entries from `i` up in ascending order (R149). -/
def intervalCheckFrom (c : Config) (S : Settings) (y n : Nat) (t : AccessType) (p : Priv) : Nat → Nat → Bool
  | 0, _ => decide (p = .M ∨ entryTotal c = 0)
  | count + 1, i =>
    if intervalMeets c.grain S i y n then
      intervalCovers c.grain S i y n && ((!cfgL (cfgAt S i) && decide (p = .M)) || cfgPermits (cfgAt S i) t)
    else intervalCheckFrom c S y n t p count (i + 1)

/-- Where the j-th part of a reference begins. -/
def partStart (r : Reference) (j : Nat) : Nat := r.y + ((r.parts.map Prod.fst).take j).sum

/-- The size of the j-th part of a reference. -/
def partSize (r : Reference) (j : Nat) : Nat := (r.parts.getD j (0, false)).1

/-- The j-th part of a writing reference passes at mode p: `PmpCheck` for Write with settings of its own, and the PMA
checks (R49, R51, R156). -/
def partPasses (s : State) (r : Reference) (p : Priv) (j : Nat) : Bool :=
  pmpCheck s.params (checkSettings s (s.freeCount + j)) (partStart r j) (partSize r j) .write p
    && (r.parts.getD j (0, false)).2

/-- The j-th page-table access of the fetch, a, passes: `PmpCheck` at mode S with settings of its own, and the PMA checks
(R49, R51, R54, R163). -/
abbrev WalkPasses (s : State) (j : Nat) (a : Access) : Prop :=
  pmpCheck s.params (checkSettings s (s.freeCount + j)) a.y a.n (accessType (classOf .fetch a)) .S = true ∧ a.pmaOk = true

/-- The fetch at the pc can be checked: a pc that is a multiple of 4, page-table accesses that can be checked, and, unless
translation ends in a page-fault, a word inside the address space. -/
abbrev FetchPresentable (s : State) : Prop :=
  fetchPc s % 4 = 0 ∧ Presentable s .fetch (fetchWalk s) ∧
    (fetchPageFaults s = false → fetchAddress s + 4 ≤ 2 ^ palen s.mxlen)

/-- The fetch at the pc passes: each page-table access, and, unless translation ends in a page-fault, each part of the word:
`PmpCheck` for Exec at the current mode with settings of its own, and none of its bytes where the PMA checks deny a fetch
(R49, R52, R152, R156, R157, R163). -/
abbrev FetchPasses (s : State) : Prop :=
  (∀ (j : Nat) (h : j < (fetchWalk s).length), WalkPasses s j (fetchWalk s)[j]) ∧
  (fetchPageFaults s = false → ∀ j, j < (fetchSizes s).length →
    pmpCheck s.params (checkSettings s (s.freeCount + ((fetchWalk s).length + j)))
        (fetchAddress s + ((fetchSizes s).take j).sum) ((fetchSizes s).getD j 0) .exec s.hart.priv = true ∧
      ∀ k, k < (fetchSizes s).getD j 0 → ∀ r ∈ s.pmaNoFetch,
        ¬(r.1 ≤ fetchAddress s + ((fetchSizes s).take j).sum + k ∧
          fetchAddress s + ((fetchSizes s).take j).sum + k < r.1 + r.2))

/-- The translation covers the pc. -/
abbrev CoversPc (s : State) (t : Translation) : Prop := t.virtual ≤ fetchPc s ∧ fetchPc s < t.virtual + t.size

/-- The step is a reset, a fence of all, or the instruction SFENCE.VMA x0, x0 in a mode that may execute it (R168, R170,
R194). -/
def RenewsSettings (s : State) : Prop :=
  (∃ draws h rest, s.pending = .reset draws h :: rest) ∨ (∃ rest, s.pending = .sfenceVmaAll :: rest) ∨
    (s.pending = [] ∧ (∃ m, fetch s = .bytes (encode (.sfenceVma 0#5 0#5)) m) ∧
      (s.hart.priv = .M ∨ (s.hart.priv = .S ∧ s.hart.tvm = false)))

end Sys2Proof.Claims

open Sys2Proof Sys2Proof.Machine Sys2Proof.Claims

/-! Encoding and decoding -/

/-- R85 to R87: decoding the bytes of an instruction, with any bytes after them, gives it back and leaves those bytes. -/
def Obligations.DecodeOfEncodeIsIdentity : Prop :=
  ∀ (i : Instr) (rest : List Byte), decode (encode i ++ rest) = .ok (i, rest)

/-- R87: a word that decodes is the word of the instruction it decodes to: no bit is ignored. -/
def Obligations.EncodeOfDecodeIsIdentity : Prop :=
  ∀ (w : BitVec 32) (i : Instr), decodeWord w = .ok i → encodeWord i = w

/-- R88: the worked encodings. -/
def Obligations.WorkedEncodingsDecode : Prop :=
  decodeWord 0x3A001073#32 = .ok (.csrrw 0#5 (pmpcfgNum 0) 0#5) ∧
  decodeWord 0x3B029073#32 = .ok (.csrrw 0#5 (pmpaddrNum 0) 5#5) ∧
  decodeWord 0x3B002573#32 = .ok (.csrrs 10#5 (pmpaddrNum 0) 0#5) ∧
  decodeWord 0x3A0025F3#32 = .ok (.csrrs 11#5 (pmpcfgNum 0) 0#5) ∧
  decodeWord 0x3A005073#32 = .ok (.csrrwi 0#5 (pmpcfgNum 0) 0#5) ∧
  decodeWord 0x12000073#32 = .ok (.sfenceVma 0#5 0#5) ∧
  decodeWord 0x12B50073#32 = .ok (.sfenceVma 10#5 11#5)

/-- R87, R89: no word is covered by two rows of the opcode map, and a word decodes exactly when a row covers it. -/
def Obligations.DecodesExactlyTheTable : Prop :=
  (opcodeTable.Pairwise fun r q => ∀ w : BitVec 32, ¬(rowCovers r w = true ∧ rowCovers q w = true)) ∧
  ∀ w : BitVec 32, (∃ i, decodeWord w = .ok i) ↔ ∃ r ∈ opcodeTable, rowCovers r w = true

/-! The step -/

/-- R163 to R165, R169: how the pc is translated is an input (log entry 15). In M-mode, without virtual memory, and where no
translation covers the pc, the fetch is at the pc and makes no page-table access. Otherwise the first translation that covers
it gives the page-table accesses, and the physical address or a page-fault; each page-table access has mode S and is checked
for Write when it updates, else for Read. The environment sets the translations, and where the PMA checks deny a fetch. -/
def Obligations.FetchIsTranslatedByItsInput : Prop :=
  ∀ s : State,
    (s.hart.priv = .M ∨ s.params.hasVm = false ∨ (∀ t ∈ s.translations, ¬CoversPc s t) →
      fetchWalk s = [] ∧ fetchPageFaults s = false ∧ fetchAddress s = fetchPc s) ∧
    (∀ (t : Translation) (before after : List Translation), s.translations = before ++ t :: after →
      s.hart.priv ≠ .M → s.params.hasVm = true → CoversPc s t → (∀ u ∈ before, ¬CoversPc s u) →
      fetchWalk s = t.walk.map walkAccess ∧ (t.physical = none → fetchPageFaults s = true) ∧
      ∀ p, t.physical = some p → fetchPageFaults s = false ∧ fetchAddress s = p + (fetchPc s - t.virtual)) ∧
    (∀ w : WalkAccess, (walkAccess w).y = w.y ∧ (walkAccess w).n = w.n ∧ (walkAccess w).data = w.data ∧
      (walkAccess w).pmaOk = w.pmaOk ∧
      accessType (classOf .fetch (walkAccess w)) = (if w.update then .write else .read) ∧
      effPriv (classOf .fetch (walkAccess w)) s.hart.priv s.hart.mprv s.hart.mpp = some .S ∧
      accessFault (classOf .fetch (walkAccess w)) = .instructionAccessFault) ∧
    (∀ l rest, s.pending = .translations l :: rest →
      step s = .next { s with translations := l, pending := rest, reply := .done }) ∧
    (∀ l rest, s.pending = .pmas l :: rest →
      step s = .next { s with pmaNoFetch := l, pending := rest, reply := .done })

/-- R49, R119, R152, R163: with nothing pending and no exception outstanding, an aligned pc all of whose accesses pass the
PMP and the PMA checks, and bytes at its physical address that decode, the step is the meaning of the decoded instruction.
Before it the fetch performs its updates of page-table entries, so the bytes are those of memory after them, and draws its
free choices, which changes the model's counter alone. -/
def Obligations.StepRunsTheDecodedInstruction : Prop :=
  ∀ s : State, s.pending = [] → s.raised = none → FetchPresentable s → fetchPageFaults s = false → FetchPasses s →
    ∃ m, Performed .fetch (fetchWalk s) (fun _ => true) s.mem m ∧ (fetchWalk s = [] → m = s.mem) ∧
      ∀ (b0 b1 b2 b3 : Byte) (i : Instr),
        readByte m (fetchAddress s) = some b0 → readByte m (fetchAddress s + 1) = some b1 →
        readByte m (fetchAddress s + 2) = some b2 → readByte m (fetchAddress s + 3) = some b3 →
        decode [b0, b1, b2, b3] = .ok (i, []) →
        step s = exec i { s with mem := m, freeCount := s.freeCount + ((fetchWalk s).length + 4) }

/-- R49, R152, R155, R156, R163, R174: a fetch one access of which fails the PMP or the PMA check, a page-table access too,
raises instruction access-fault; no register, no PMP state and not the pc is changed, whatever the bytes at the pc; memory
is as before but for updates of page-table entries that passed, any of which may have been performed. -/
def Obligations.DeniedFetchRaisesInstructionAccessFault : Prop :=
  ∀ s : State, s.pending = [] → s.raised = none → FetchPresentable s → ¬FetchPasses s →
    ∃ (m : Memory) (done : Nat → Bool),
      (∀ (j : Nat) (a : Access), (fetchWalk s)[j]? = some a → done j = true → WalkPasses s j a) ∧
      Performed .fetch (fetchWalk s) done s.mem m ∧ (fetchWalk s = [] → m = s.mem) ∧
      step s = .next { s with
        raised := some .instructionAccessFault, mem := m, freeCount := s.freeCount + ((fetchWalk s).length + 4) }

/-- R89, R163: bytes that are none of the seven instructions are refused, not treated as illegal. The bytes are those of
memory after the updates of page-table entries that the fetch performs: how the pc is translated is an input (log entry 15),
and that an update is seen by the fetch at once is the model's choice (log entry 18). -/
def Obligations.WordOutsideTheTableIsRefused : Prop :=
  ∀ s : State, s.pending = [] → s.raised = none → FetchPresentable s → fetchPageFaults s = false → FetchPasses s →
    ∃ m, Performed .fetch (fetchWalk s) (fun _ => true) s.mem m ∧ (fetchWalk s = [] → m = s.mem) ∧
      ∀ b0 b1 b2 b3 : Byte,
        readByte m (fetchAddress s) = some b0 → readByte m (fetchAddress s + 1) = some b1 →
        readByte m (fetchAddress s + 2) = some b2 → readByte m (fetchAddress s + 3) = some b3 →
        (∀ r ∈ opcodeTable, rowCovers r (wordOfBytes b0 b1 b2 b3) = false) →
        step s = .refused (.notInTable [b0, b1, b2, b3])

/-- The model's own convention (log entries 13 to 15): a pending operation of the environment goes first, the oldest of
them; with none pending an exception not yet taken stops the machine under its name, and so does a fetch whose page-table
accesses pass and whose translation ends in a page-fault, which is the hart's (R6, R181). -/
def Obligations.StepOrderOfOperationsAndExceptions : Prop :=
  (∀ (s : State) (op : EnvOp) (rest : List EnvOp),
    s.pending = op :: rest → step s = runEnv op { s with pending := rest }) ∧
  (∀ (s : State) (e : Exception), s.pending = [] → s.raised = some e → step s = .fault (.untakenException e)) ∧
  (∀ s : State, s.pending = [] → s.raised = none → FetchPresentable s → FetchPasses s → fetchPageFaults s = true →
    step s = .fault (.fetchPageFault (fetchPc s)))

/-! The six CSR instructions and SFENCE.VMA -/

/-- R120. -/
def Obligations.CsrrwWritesRegisterAndReturnsOldView : Prop :=
  ∀ (s : State) (rd : RegNum) (a : CsrNum) (rs1 : RegNum),
    (s.hart.priv = .M → CsrExists s a →
      ∃ t, exec (.csrrw rd a rs1) s = .next t ∧ (rd ≠ 0#5 → readReg t rd = csrView s a) ∧
        Stored s t a (readReg s rs1) ∧ CsrFrame rd s t) ∧
    TurnedAway (.csrrw rd a rs1) a s

/-- R121. -/
def Obligations.CsrrsReadsAndSetsBits : Prop :=
  ∀ (s : State) (rd : RegNum) (a : CsrNum) (rs1 : RegNum),
    (s.hart.priv = .M → CsrExists s a →
      ∃ t, exec (.csrrs rd a rs1) s = .next t ∧ (rd ≠ 0#5 → readReg t rd = csrView s a) ∧
        (rs1 ≠ 0#5 → Stored s t a (csrView s a ||| readReg s rs1)) ∧ (rs1 = 0#5 → NothingStored s t) ∧
        CsrFrame rd s t) ∧
    TurnedAway (.csrrs rd a rs1) a s

/-- R122. -/
def Obligations.CsrrcReadsAndClearsBits : Prop :=
  ∀ (s : State) (rd : RegNum) (a : CsrNum) (rs1 : RegNum),
    (s.hart.priv = .M → CsrExists s a →
      ∃ t, exec (.csrrc rd a rs1) s = .next t ∧ (rd ≠ 0#5 → readReg t rd = csrView s a) ∧
        (rs1 ≠ 0#5 → Stored s t a (csrView s a &&& ~~~(readReg s rs1))) ∧ (rs1 = 0#5 → NothingStored s t) ∧
        CsrFrame rd s t) ∧
    TurnedAway (.csrrc rd a rs1) a s

/-- R123. -/
def Obligations.CsrrwiWritesImmediateAndReturnsOldView : Prop :=
  ∀ (s : State) (rd : RegNum) (a : CsrNum) (u : Uimm),
    (s.hart.priv = .M → CsrExists s a →
      ∃ t, exec (.csrrwi rd a u) s = .next t ∧ (rd ≠ 0#5 → readReg t rd = csrView s a) ∧
        Stored s t a (u.setWidth 64) ∧ CsrFrame rd s t) ∧
    TurnedAway (.csrrwi rd a u) a s

/-- R124. -/
def Obligations.CsrrsiReadsAndSetsImmediateBits : Prop :=
  ∀ (s : State) (rd : RegNum) (a : CsrNum) (u : Uimm),
    (s.hart.priv = .M → CsrExists s a →
      ∃ t, exec (.csrrsi rd a u) s = .next t ∧ (rd ≠ 0#5 → readReg t rd = csrView s a) ∧
        (u ≠ 0#5 → Stored s t a (csrView s a ||| u.setWidth 64)) ∧ (u = 0#5 → NothingStored s t) ∧
        CsrFrame rd s t) ∧
    TurnedAway (.csrrsi rd a u) a s

/-- R125. -/
def Obligations.CsrrciReadsAndClearsImmediateBits : Prop :=
  ∀ (s : State) (rd : RegNum) (a : CsrNum) (u : Uimm),
    (s.hart.priv = .M → CsrExists s a →
      ∃ t, exec (.csrrci rd a u) s = .next t ∧ (rd ≠ 0#5 → readReg t rd = csrView s a) ∧
        (u ≠ 0#5 → Stored s t a (csrView s a &&& ~~~(u.setWidth 64))) ∧ (u = 0#5 → NothingStored s t) ∧
        CsrFrame rd s t) ∧
    TurnedAway (.csrrci rd a u) a s

/-- R168, R170, R171: in U-mode, and in S-mode with TVM = 1, illegal-instruction and nothing else; otherwise the pc
advances, and `stale` becomes the current settings alone for x0, x0 and stays for every other form; nothing else changes.
That `translations` is among what stays is the model's choice (log entry 35). -/
def Obligations.SfenceVmaEmptiesStale : Prop :=
  ∀ (s : State) (rs1 rs2 : RegNum),
    (s.hart.priv = .U ∨ (s.hart.priv = .S ∧ s.hart.tvm = true) →
      exec (.sfenceVma rs1 rs2) s = .next { s with raised := some .illegalInstruction }) ∧
    (s.hart.priv = .M ∨ (s.hart.priv = .S ∧ s.hart.tvm = false) →
      (rs1 = 0#5 ∧ rs2 = 0#5 →
        exec (.sfenceVma rs1 rs2) s = .next { s with
          stale := [s.pmp], hart := { s.hart with pc := (s.hart.pc + 4#64) &&& xlenMask s.mxlen } }) ∧
      (¬(rs1 = 0#5 ∧ rs2 = 0#5) →
        exec (.sfenceVma rs1 rs2) s = .next { s with
          hart := { s.hart with pc := (s.hart.pc + 4#64) &&& xlenMask s.mxlen } }))

/-- R11, R45: x0 reads as zero and ignores writes; another register reads as written, in MXLEN bits, and every register
but the one written reads as before. -/
def Obligations.RegisterFileHardwiresX0 : Prop :=
  ∀ (s : State) (r q : RegNum) (v : Word),
    readReg s 0#5 = 0#64 ∧ writeReg s 0#5 v = s ∧
    (r ≠ 0#5 → readReg (writeReg s r v) r = v &&& xlenMask s.mxlen) ∧
    (q ≠ r → readReg (writeReg s r v) q = readReg s q)

/-! The PMP CSRs -/

/-- R92, with the numbers of R72 and R73 and the table of R25. -/
def Obligations.CsrNumbersNameTheRegisters : Prop :=
  ∀ p : Config,
    (∀ c, c < 16 → decodePmpCsr .rv32 p (pmpcfgNum c) = if 4 * c < entryTotal p then .cfg c else .noSuchCsr) ∧
    (∀ c, c < 16 → decodePmpCsr .rv64 p (pmpcfgNum c)
      = if c % 2 = 0 ∧ 4 * c < entryTotal p then .cfg c else .noSuchCsr) ∧
    (∀ m i, i < 64 → decodePmpCsr m p (pmpaddrNum i) = if i < entryTotal p then .addr i else .noSuchCsr) ∧
    (∀ m a, a.toNat < 0x3A0 ∨ 0x3EF < a.toNat → decodePmpCsr m p a = .notPmp)

/-- R21, R22: where entry i stands in its configuration CSR, at both widths. The model's reading (log entry 20): an MXLEN-bit
value stands in 64 bits, so with MXLEN = 32 nothing stands above bit 31. -/
def Obligations.ConfigurationCsrHoldsEachEntry : Prop :=
  ∀ (S : Settings) (i : Nat),
    (cfgCsrValue .rv32 S (i / 4)).extractLsb' (8 * (i % 4)) 8 = cfgAt S i ∧
    (cfgCsrValue .rv64 S (2 * (i / 8))).extractLsb' (8 * (i % 8)) 8 = cfgAt S i ∧
    (cfgCsrValue .rv32 S (i / 4)).extractLsb' 32 32 = 0#32

/-- R34 for A[1] set, R35 for A[1] clear, R37 (derived there) and R101 for the stored bits: every bit of the read view: with
A[1] set bits G-2:0 are ones, with A[1] clear bits G-1:0 are zeros,
every other bit is as stored. -/
def Obligations.AddressReadViewBitByBit : Prop :=
  ∀ (g : Nat) (S : Settings) (i k : Nat), k < 64 →
    (cfgA1 (cfgAt S i) = true → k + 1 < g → (addrRead g S i).getLsbD k = true) ∧
    (cfgA1 (cfgAt S i) = true → ¬k + 1 < g → (addrRead g S i).getLsbD k = (addrAt S i).getLsbD k) ∧
    (cfgA1 (cfgAt S i) = false → k < g → (addrRead g S i).getLsbD k = false) ∧
    (cfgA1 (cfgAt S i) = false → ¬k < g → (addrRead g S i).getLsbD k = (addrAt S i).getLsbD k)

/-- R107: no write in M-mode changes a locked entry's byte or address register, whatever is written, also when its A is
OFF, and such a write raises nothing; a write of a configuration CSR completes, and an unlocked byte that is not hardwired
stores a written byte that is legal within WMASK(i), its L with its R, W, X, A. That a legal byte is stored as written is
property 4 of R109, the spec's decision D9; WMASK(i) counts without bits 6:5 (log entry 29). -/
def Obligations.LockedConfigurationByteIgnoresWrites : Prop :=
  ∀ (s : State) (j : Nat) (v : Word), j < s.pmp.length → j < entryTotal s.params →
    (cfgL (cfgAt s.pmp j) = true → ∀ a : CsrNum, CsrExists s a →
      ∃ t, csrWrite s .M a v = .ok t ∧ cfgAt t.pmp j = cfgAt s.pmp j ∧ addrAt t.pmp j = addrAt s.pmp j) ∧
    (cfgL (cfgAt s.pmp j) = false → (entryParams s.params j).hardwired = none →
      cfgLegal s.params.grain (v.extractLsb' (8 * cfgByteOf s.mxlen j) 8 &&& wmaskOf s.params j) = true →
      ∃ t, csrWrite s .M (pmpcfgNum (cfgCsrOf s.mxlen j)) v = .ok t ∧
        cfgAt t.pmp j = v.extractLsb' (8 * cfgByteOf s.mxlen j) 8 &&& wmaskOf s.params j)

/-- R111, R112: a write of `pmpaddri` in M-mode completes; it is ignored exactly when entry i is locked or entry i+1 is
locked with A = TOR, and else stores the legalised value; no configuration byte and no other address register changes. -/
def Obligations.AddressRegisterIsFrozenByLocks : Prop :=
  ∀ (s : State) (i : Nat) (v : Word), i < s.pmp.length → i < entryTotal s.params →
    ∃ t, csrWrite s .M (pmpaddrNum i) v = .ok t ∧
      (AddrFrozen s i → t.pmp = s.pmp) ∧
      (¬AddrFrozen s i →
        addrAt t.pmp i = legalAddr s.mxlen s.params i (addrAt s.pmp i) (v &&& xlenMask s.mxlen)) ∧
      (∀ j, cfgAt t.pmp j = cfgAt s.pmp j) ∧ (∀ j, j ≠ i → addrAt t.pmp j = addrAt s.pmp j)

/-- R109: the properties of `LegalCfg` for an entry that is not hardwired: nothing outside WMASK(i), bits 6:5 zero; never
the reserved combination; never NA4 with G >= 1; a legal written value is stored as written. (Property 5 is that it is a
function of the parameters, i, old and w.) -/
def Obligations.LegalCfgStoresLegalBytes : Prop :=
  ∀ (p : Config) (i : Nat) (old w : Byte), (entryParams p i).hardwired = none →
    legalCfg p i old w &&& ~~~(wmaskOf p i) = 0#8 ∧ legalCfg p i old w &&& 0x60#8 = 0#8 ∧
    ¬(cfgR (legalCfg p i old w) = false ∧ cfgW (legalCfg p i old w) = true) ∧
    (1 ≤ p.grain → cfgA (legalCfg p i old w) ≠ 2#2) ∧
    (¬(cfgR (w &&& wmaskOf p i) = false ∧ cfgW (w &&& wmaskOf p i) = true) →
      (1 ≤ p.grain → cfgA (w &&& wmaskOf p i) ≠ 2#2) → legalCfg p i old w = w &&& wmaskOf p i)

/-- R114: the properties of `LegalAddr` for an entry that is not hardwired, and its default instance. -/
def Obligations.LegalAddrStoresRepresentableAddresses : Prop :=
  ∀ (m : Mxlen) (p : Config) (i : Nat) (old v : Word), (entryParams p i).hardwired = none →
    legalAddr m p i old v &&& ~~~(addrMaskOf m p i) = 0#64 ∧
    (v &&& ~~~(addrMaskOf m p i) = 0#64 → legalAddr m p i old v = v) ∧
    (p.addrRule = .masked → legalAddr m p i old v = v &&& addrMaskOf m p i) ∧
    (addrMaskOf .rv64 p i).extractLsb' 54 10 = 0#10

/-- R39, R110: in every state that meets the invariant a hardwired entry has its constant byte after every step, and its
address changes only by a reset or a change of MXLEN. -/
def Obligations.HardwiredEntryIsConstant : Prop :=
  ∀ (s t : State) (i : Nat) (c : PmpEntry), State.Inv s → i < entryTotal s.params →
    (entryParams s.params i).hardwired = some c → step s = .next t →
    cfgAt t.pmp i = c.cfg ∧
    (resetIsNext s = false → mxlenChangeIsNext s = false → addrAt t.pmp i = addrAt s.pmp i)

/-- R116: in M-mode a write to an existing CSR completes whatever the value; a read there returns the new settings' view at
once; and a check after it uses the new settings, or, with virtual memory, any settings that may still be used, the new ones
among them: the set is R166, the spec's decision D16, and the member is a free choice of the model (log entry 10). -/
def Obligations.MachineModeCsrWriteNeverRaises : Prop :=
  ∀ (s : State) (a : CsrNum) (v : Word), CsrExists s a →
    ∃ t, csrWrite s .M a v = .ok t ∧ t.mxlen = s.mxlen ∧ t.params = s.params ∧ csrRead t .M a = .ok (csrView t a) ∧
      (s.params.hasVm = false → ∀ k, checkSettings t k = t.pmp) ∧
      (s.params.hasVm = true → t.pmp ∈ t.stale ∧ ∀ k, checkSettings t k ∈ t.stale)

/-! Address matching -/

/-- R128, R129: TOR, A = 1: byte addresses, the bottom inclusive, the top exclusive, the low G register bits dropped; the
bottom of entry 0 is zero. -/
def Obligations.TorMatchesTheRangeBelowItsTop : Prop :=
  ∀ (g : Nat) (S : Settings) (y : Nat),
    (∀ i, cfgA (cfgAt S (i + 1)) = 1#2 →
      (matchByte g S (i + 1) y = true ↔
        4 * ((addrAt S i).toNat / 2 ^ g * 2 ^ g) ≤ y ∧ y < 4 * ((addrAt S (i + 1)).toNat / 2 ^ g * 2 ^ g))) ∧
    (cfgA (cfgAt S 0) = 1#2 →
      (matchByte g S 0 y = true ↔ y < 4 * ((addrAt S 0).toNat / 2 ^ g * 2 ^ g)))

/-- R130: a TOR entry matches nothing exactly when its bottom is not below its top. -/
def Obligations.TorRangeIsEmptyWhenBottomReachesTop : Prop :=
  ∀ (g : Nat) (S : Settings) (i : Nat), cfgA (cfgAt S i) = 1#2 →
    ((∀ y, matchByte g S i y = false) ↔ torBound g S i ≤ if i = 0 then 0 else torBound g S (i - 1)) ∧
    ∀ y, torBound g S i ≤ y → matchByte g S i y = false

/-- R131, R132: a TOR match depends on the two address registers above their low G bits alone: not on those bits, not on
the configuration of the entry before. -/
def Obligations.TorIgnoresLowBitsAndNeighbourConfiguration : Prop :=
  ∀ (g : Nat) (S T : Settings) (i y : Nat),
    cfgA (cfgAt S i) = 1#2 → cfgA (cfgAt T i) = 1#2 →
    (addrAt S i).toNat / 2 ^ g = (addrAt T i).toNat / 2 ^ g →
    (addrAt S (i - 1)).toNat / 2 ^ g = (addrAt T (i - 1)).toNat / 2 ^ g →
    matchByte g S i y = matchByte g T i y

/-- R133: NA4, A = 2: the four bytes at the register's address; a legal byte holds it only when G = 0. -/
def Obligations.Na4MatchesFourBytes : Prop :=
  ∀ (g : Nat) (S : Settings) (i y : Nat), cfgA (cfgAt S i) = 2#2 →
    (cfgLegal g (cfgAt S i) = true → g = 0) ∧
    (matchByte g S i y = true ↔ 4 * (addrAt S i).toNat ≤ y ∧ y < 4 * (addrAt S i).toNat + 4)

/-- R134: NAPOT, A = 3: with k trailing ones ended by a zero at bit k, the naturally aligned 2^(k+3) bytes whose upper
address bits are the register bits above bit k. The value used for matching is the read view: R135, the spec's decision
D14. -/
def Obligations.NapotMatchesItsAlignedRegion : Prop :=
  ∀ (g : Nat) (S : Settings) (i y k : Nat), cfgA (cfgAt S i) = 3#2 → k < 64 →
    (addrRead g S i).toNat % 2 ^ (k + 1) = 2 ^ k - 1 →
    (matchByte g S i y = true ↔
      (addrRead g S i).toNat / 2 ^ (k + 1) * 2 ^ (k + 3) ≤ y ∧
        y < (addrRead g S i).toNat / 2 ^ (k + 1) * 2 ^ (k + 3) + 2 ^ (k + 3))

/-- R135: the smallest NAPOT region is the grain, or 8 bytes: with G >= 1 at least 2^(G+2) bytes, exactly that when the
stored bit G-1 is zero; with G <= 1 the value used is the stored one. -/
def Obligations.NapotRegionIsAtLeastTheGrain : Prop :=
  ∀ (g : Nat) (S : Settings) (i : Nat), cfgA (cfgAt S i) = 3#2 → g < 54 →
    8 ≤ napotSize (addrRead g S i) ∧ 2 ^ (g + 2) ≤ napotSize (addrRead g S i) ∧
    (1 ≤ g → (addrAt S i).getLsbD (g - 1) = false → napotSize (addrRead g S i) = 2 ^ (g + 2)) ∧
    (g ≤ 1 → addrRead g S i = addrAt S i)

/-- R127: an entry with A = 0, OFF, matches no address. R136: the bytes an entry matches are one interval, that of
`regionOf`. -/
def Obligations.MatchIsOneInterval : Prop :=
  ∀ (g : Nat) (S : Settings) (i y : Nat),
    (cfgA (cfgAt S i) = 0#2 → matchByte g S i y = false) ∧
    (matchByte g S i y = true ↔ (regionOf g S i).1 ≤ y ∧ y < (regionOf g S i).2)

/-- R138: with grain G the ends of every region of a legal entry are multiples of 2^(G+2). -/
def Obligations.RegionsAreAlignedToTheGrain : Prop :=
  ∀ (g : Nat) (S : Settings) (i : Nat), cfgLegal g (cfgAt S i) = true → g < 54 →
    2 ^ (g + 2) ∣ (regionOf g S i).1 ∧ 2 ^ (g + 2) ∣ (regionOf g S i).2

/-- R95: the register value that R95 gives for 2^s bytes at B makes a NAPOT entry match exactly those bytes. -/
def Obligations.NapotEncodingNamesItsRegion : Prop :=
  ∀ (g : Nat) (S : Settings) (i base e : Nat), cfgA (cfgAt S i) = 3#2 → g < 54 → 3 ≤ e → g + 2 ≤ e → 2 ^ e ∣ base →
    (addrAt S i).toNat = napotEncode base e → regionOf g S i = (base, base + 2 ^ e)

/-! The check of an access -/

/-- R140, R141: the deciding entry is the lowest-numbered that matches any byte; it is never one whose A is OFF; there is
none exactly when no entry matches any. -/
def Obligations.DecidingEntryIsTheLowestThatMatches : Prop :=
  ∀ (c : Config) (S : Settings) (y n : Nat),
    (∀ i, decidingEntry c S y n = some i ↔
      i < entryTotal c ∧ (∃ k, k < n ∧ matchByte c.grain S i (y + k) = true) ∧
        ∀ j, j < i → ∀ k, k < n → matchByte c.grain S j (y + k) = false) ∧
    (∀ i, cfgA (cfgAt S i) = 0#2 → decidingEntry c S y n ≠ some i) ∧
    (decidingEntry c S y n = none ↔ ∀ j, j < entryTotal c → ∀ k, k < n → matchByte c.grain S j (y + k) = false)

/-- R142, R143, R144: a partial match fails for every type and mode; a full match of an unlocked entry succeeds in M-mode;
otherwise the one permission bit of the type decides. -/
def Obligations.DecidingEntryDecidesTheAccess : Prop :=
  ∀ (c : Config) (S : Settings) (y n : Nat) (t : AccessType) (p : Priv) (i : Nat), decidingEntry c S y n = some i →
    ((∃ k, k < n ∧ matchByte c.grain S i (y + k) = false) → pmpCheck c S y n t p = false) ∧
    ((∀ k, k < n → matchByte c.grain S i (y + k) = true) →
      (cfgL (cfgAt S i) = false → p = .M → pmpCheck c S y n t p = true) ∧
      (cfgL (cfgAt S i) = true ∨ p ≠ .M →
        pmpCheck c S y n t p = match t with
          | .read => cfgR (cfgAt S i)
          | .write => cfgW (cfgAt S i)
          | .exec => cfgX (cfgAt S i)))

/-- R145, R146, R147: when no entry matches, M-mode succeeds, S and U fail when an entry is implemented, and everything
succeeds when none is. R148: with an entry implemented and every A field OFF, every S-mode and U-mode access fails and every
M-mode access succeeds. -/
def Obligations.UnmatchedAccessTakesTheDefault : Prop :=
  ∀ (c : Config) (S : Settings) (y n : Nat) (t : AccessType) (p : Priv),
    ((∀ i, i < entryTotal c → ∀ k, k < n → matchByte c.grain S i (y + k) = false) →
      (p = .M → pmpCheck c S y n t p = true) ∧
      (p ≠ .M → c.entryCount ≠ .zero → pmpCheck c S y n t p = false) ∧
      (c.entryCount = .zero → pmpCheck c S y n t p = true)) ∧
    (c.entryCount ≠ .zero → (∀ i, i < entryTotal c → cfgA (cfgAt S i) = 0#2) →
      pmpCheck c S y n t .S = false ∧ pmpCheck c S y n t .U = false ∧ pmpCheck c S y n t .M = true)

/-- R136, R149: `PmpCheck` byte by byte is the check by interval tests over the entries in ascending order. -/
def Obligations.PmpCheckEqualsIntervalCheck : Prop :=
  ∀ (c : Config) (S : Settings) (y n : Nat) (t : AccessType) (p : Priv), 1 ≤ n →
    pmpCheck c S y n t p = intervalCheckFrom c S y n t p (entryTotal c) 0

/-- R160: with every L clear an M-mode access fails only by a partial match of its deciding entry. -/
def Obligations.UnlockedEntriesBindMachineModeOnlyByPartialMatch : Prop :=
  ∀ (c : Config) (S : Settings) (y n : Nat) (t : AccessType),
    (∀ i, i < entryTotal c → cfgL (cfgAt S i) = false) →
    (pmpCheck c S y n t .M = false ↔
      ∃ i, decidingEntry c S y n = some i ∧ ∃ k, k < n ∧ matchByte c.grain S i (y + k) = false)

/-- R52 to R55. -/
def Obligations.EffectivePrivilegeOfEachClass : Prop :=
  (∀ u c priv mprv mpp, effPriv (.pageTable u c) priv mprv mpp = some .S) ∧
  (∀ priv mprv mpp, effPriv (.own .fetch) priv mprv mpp = some priv) ∧
  (∀ c, c ≠ .fetch → ∀ priv mpp,
    effPriv (.own c) priv false mpp = some priv ∧
    effPriv (.own c) priv true 0#2 = some .U ∧ effPriv (.own c) priv true 1#2 = some .S ∧
    effPriv (.own c) priv true 3#2 = some .M ∧ effPriv (.own c) priv true 2#2 = none)

/-- R50, R51, R152 to R155: the class of a presented access, the type checked and the access-fault raised for each class; a
page-table access raises the fault of the reference it translates. -/
def Obligations.AccessTypeAndFaultOfEachClass : Prop :=
  (accessType (.own .fetch) = .exec ∧ accessFault (.own .fetch) = .instructionAccessFault) ∧
  (∀ c, c = .load ∨ c = .loadReserved → accessType (.own c) = .read ∧ accessFault (.own c) = .loadAccessFault) ∧
  (∀ c, c = .store ∨ c = .storeConditional ∨ c = .amo →
    accessType (.own c) = .write ∧ accessFault (.own c) = .storeAccessFault) ∧
  (∀ c, accessType (.pageTable false c) = .read ∧ accessType (.pageTable true c) = .write) ∧
  (∀ u c, accessFault (.pageTable u c) = accessFault (.own c)) ∧
  (∀ c a, a.pageTable = none → classOf c a = .own c) ∧
  (∀ c a u, a.pageTable = some u → classOf c a = .pageTable u c)

/-! Settings that a check may use -/

/-- R166, R168, R169: without virtual memory a check uses the current settings; with it, a member of `stale`; and after a
fence the current settings. -/
def Obligations.CheckUsesAPermittedSettingsValue : Prop :=
  ∀ (s : State) (k : Nat),
    (s.params.hasVm = false → checkSettings s k = s.pmp) ∧
    (s.params.hasVm = true → s.stale ≠ [] → checkSettings s k ∈ s.stale) ∧
    checkSettings (sfenceVmaAll s) k = s.pmp

/-- R43, R166, R168, R172, R194: with virtual memory, after a reset, a fence of all, or an executed SFENCE.VMA x0, x0, `stale`
is the current settings alone; after any other step it is exactly what it was with the current settings added. For a change
of MXLEN that is the model's inference (log entry 19); which modes may execute the instruction is R170's privilege rule, the
spec's general knowledge (D27, log entry 21). -/
def Obligations.StaleHoldsEverySettingsSinceTheFence : Prop :=
  ∀ s t : State, s.params.hasVm = true → s.pmp ∈ s.stale → step s = .next t →
    (RenewsSettings s → t.stale = [t.pmp]) ∧
    (¬RenewsSettings s → ∀ S, S ∈ t.stale ↔ S ∈ s.stale ∨ S = t.pmp)

/-! Accesses presented by the environment -/

/-- R150: an access of no bytes, or past the top of the physical address space, is refused; any other is decided. -/
def Obligations.PmpCheckOperationAnswersInsideTheAddressSpace : Prop :=
  ∀ (s : State) (S : Settings) (y n : Nat) (t : AccessType) (p : Priv) (rest : List EnvOp),
    s.pending = .pmpCheck S y n t p :: rest →
    (n = 0 → step s = .refused .emptyAccess) ∧
    (n ≠ 0 → 2 ^ palen s.mxlen < y + n → step s = .refused .beyondPhysicalSpace) ∧
    (n ≠ 0 → y + n ≤ 2 ^ palen s.mxlen →
      step s = .next { s with pending := rest, reply := .decision (pmpCheck s.params S y n t p) })

/-- R7, R96, R97, R99, R105: the environment's own `CsrRead` and `CsrWrite`, in the hart's current mode. A number of no PMP
CSR is refused (R89); a number without a register, or a mode below M, raises illegal-instruction and changes nothing else; in
M-mode a read answers the view of the register, and a write stores as R105 says. The queue and the reply are the model's
(log entry 14). -/
def Obligations.EnvironmentCsrOperationsAnswerOrRaise : Prop :=
  ∀ (s : State) (a : CsrNum) (v : Word) (rest : List EnvOp),
    (s.pending = .csrRead a :: rest ∨ s.pending = .csrWrite a v :: rest →
      (decodePmpCsr s.mxlen s.params a = .notPmp → step s = .refused (.notPmpCsr a)) ∧
      (decodePmpCsr s.mxlen s.params a = .noSuchCsr ∨ (CsrExists s a ∧ s.hart.priv ≠ .M) →
        step s = .next { s with
          pending := rest, raised := some .illegalInstruction, reply := .raised .illegalInstruction })) ∧
    (s.pending = .csrRead a :: rest → CsrExists s a → s.hart.priv = .M →
      step s = .next { s with pending := rest, reply := .value (csrView s a) }) ∧
    (s.pending = .csrWrite a v :: rest → CsrExists s a → s.hart.priv = .M →
      ∃ t, step s = .next t ∧ Stored s t a v ∧ t.reply = .done ∧ t.pending = rest ∧ t.raised = s.raised ∧
        t.hart = s.hart ∧ (∀ q, readByte t.mem q = readByte s.mem q) ∧ t.params = s.params ∧ t.mxlen = s.mxlen ∧
        t.pmaNoFetch = s.pmaNoFetch ∧ t.translations = s.translations ∧ t.freeCount = s.freeCount)

/-- R8, R157, R158, U10: `Decompose` is a parameter. Under its rule for the class it admits the reference as one access, or
any partition into consecutive parts, or what an implementation's own relation admits of those. A reference in parts that it
does not admit is refused by name, and so is a write without its data; any other, a load too, is the accesses of its parts
presented in order (R151). A fetch is split into parts that make up its 4 bytes, as the rule admits (log entries 16, 37 and
38). -/
def Obligations.DecomposeSaysWhichPartsAreAdmitted : Prop :=
  (∀ (c : Config) (cls : RefClass) (y n : Nat) (sizes : List Nat), 1 ≤ n →
    (splitRule c cls = .whole → (decomposes c cls y n sizes = true ↔ sizes = [n])) ∧
    (splitRule c cls = .anyPartition →
      (decomposes c cls y n sizes = true ↔ (∀ k ∈ sizes, 0 < k) ∧ sizes.sum = n)) ∧
    (splitRule c cls = .unstated →
      (decomposes c cls y n sizes = true ↔
        ((∀ k ∈ sizes, 0 < k) ∧ sizes.sum = n) ∧ Config.freeDecompose cls y n sizes = true))) ∧
  (∀ (s : State) (r : Reference) (rest : List EnvOp),
    s.pending = .reference r :: rest → 1 ≤ r.n → r.y + r.n ≤ 2 ^ palen s.mxlen →
    (decomposes s.params r.cls r.y r.n (r.parts.map Prod.fst) = false → step s = .refused .notADecomposition) ∧
    (decomposes s.params r.cls r.y r.n (r.parts.map Prod.fst) = true → refType r.cls = .write → r.data.length ≠ r.n →
      ¬(r.cls = .storeConditional ∧ r.data = []) → step s = .refused .dataSizeMismatch) ∧
    (decomposes s.params r.cls r.y r.n (r.parts.map Prod.fst) = true →
      (refType r.cls = .write → r.data.length = r.n ∨ (r.cls = .storeConditional ∧ r.data = [])) →
      ∃ m : MemInstr, m.cls = r.cls ∧ m.misaligned = r.misaligned ∧ m.accesses.length = r.parts.length ∧
        (∀ j, j < r.parts.length → m.accesses[j]? = some
          { pageTable := none, y := partStart r j, n := partSize r j,
            data := (r.data.drop (partStart r j - r.y)).take (partSize r j), pmaOk := (r.parts.getD j (0, false)).2 }) ∧
        step s = step { s with pending := .accesses m :: rest })) ∧
  ∀ s : State, (∀ k ∈ fetchSizes s, 0 < k) ∧ (fetchSizes s).sum = 4 ∧
    (s.params.fetchSplit = .whole → fetchSizes s = [4]) ∧
    (decomposes s.params .fetch (fetchAddress s) 4 (fetchSizes s) = true ∨ fetchSizes s = [4])

/-- R49, R51, R53 to R55, R151, R153 to R157, R163: the accesses of one instruction, page-table accesses included, each with
the verdict of its own check. When one fails, the access-fault of the instruction is certain, and any subset of the writes
that pass was performed, each whole; when all pass, no exception is raised and every write was. No other byte changes; the
PMP and the hart are as before. -/
def Obligations.FaultOfAnInstructionIsCertain : Prop :=
  ∀ (s : State) (m : MemInstr) (rest : List EnvOp),
    s.pending = .accesses m :: rest → m.misaligned = false → Presentable s m.cls m.accesses →
    ∃ (vs : List Bool) (t : State) (done : Nat → Bool), Verdicts s m.cls m.accesses vs ∧
      step s = .next t ∧ t.pmp = s.pmp ∧ t.stale = s.stale ∧ t.hart = s.hart ∧ t.mxlen = s.mxlen ∧
      t.params = s.params ∧ t.pmaNoFetch = s.pmaNoFetch ∧ t.translations = s.translations ∧ t.pending = rest ∧
      (∀ j, done j = true → vs[j]? = some true) ∧ Performed m.cls m.accesses done s.mem t.mem ∧
      (false ∈ vs → t.raised = some (refFault m.cls) ∧ t.reply = .raised (refFault m.cls)) ∧
      (¬false ∈ vs → t.raised = s.raised ∧ t.reply = .done ∧ ∀ j, j < m.accesses.length → done j = true)

/-- R154, R157, R158, R204: a store, store-conditional or AMO presented in parts that `Decompose` admits, the effective mode
being p. When every part passes, every byte of its data is stored, no other changes, and no exception is raised. When one
fails, store access-fault is raised, no byte of a part that fails changes, nor any outside the reference, and any other byte
reads as before or as stored; so one that is a single access is all or nothing. A store-conditional without data (D25, log
entry 37) is checked and stores nothing. -/
def Obligations.StoreInPartsLandsWhereItsPartsPass : Prop :=
  ∀ (s : State) (r : Reference) (p : Priv) (rest : List EnvOp),
    s.pending = .reference r :: rest → r.cls = .store ∨ r.cls = .storeConditional ∨ r.cls = .amo →
    r.misaligned = false → r.data.length = r.n ∨ (r.cls = .storeConditional ∧ r.data = []) →
    1 ≤ r.n → r.y + r.n ≤ 2 ^ palen s.mxlen →
    decomposes s.params r.cls r.y r.n (r.parts.map Prod.fst) = true →
    effPriv (.own r.cls) s.hart.priv s.hart.mprv s.hart.mpp = some p →
    ∃ t, step s = .next t ∧ t.pmp = s.pmp ∧ t.stale = s.stale ∧ t.hart = s.hart ∧ t.mxlen = s.mxlen ∧
      t.params = s.params ∧ t.pmaNoFetch = s.pmaNoFetch ∧ t.translations = s.translations ∧ t.pending = rest ∧
      (∀ a, a < r.y ∨ r.y + r.data.length ≤ a → readByte t.mem a = readByte s.mem a) ∧
      ((∀ j, j < r.parts.length → partPasses s r p j = true) →
        t.raised = s.raised ∧ t.reply = .done ∧
        ∀ k (h : k < r.data.length), readByte t.mem (r.y + k) = some r.data[k]) ∧
      ((∃ j, j < r.parts.length ∧ partPasses s r p j = false) →
        t.raised = some .storeAccessFault ∧ t.reply = .raised .storeAccessFault ∧
        (∀ j, j < r.parts.length → partPasses s r p j = false → ∀ k, k < partSize r j →
          readByte t.mem (partStart r j + k) = readByte s.mem (partStart r j + k)) ∧
        (∀ k (h : k < r.data.length),
          readByte t.mem (r.y + k) = readByte s.mem (r.y + k) ∨ readByte t.mem (r.y + k) = some r.data[k]) ∧
        (r.parts.length = 1 → ∀ a, readByte t.mem a = readByte s.mem a))

/-- R181: a reference for which the hart would raise address-misaligned. When no access of it fails, or the parameter
`MisalignedBeforeAccessFault` is true, whatever it is, it ends in that exception of the hart's, and no byte is written and no
exception of the PMP raised (log entry 34); when an access fails and the parameter is false, in the access-fault, and any
subset of the writes that pass was performed (R156). -/
def Obligations.MisalignedAndAccessFaultOrderIsTheParameter : Prop :=
  ∀ (s : State) (m : MemInstr) (rest : List EnvOp),
    s.pending = .accesses m :: rest → m.misaligned = true → Presentable s m.cls m.accesses →
    ∃ (vs : List Bool) (t : State), Verdicts s m.cls m.accesses vs ∧
      step s = .next t ∧ t.pmp = s.pmp ∧ t.stale = s.stale ∧ t.hart = s.hart ∧ t.mxlen = s.mxlen ∧
      t.params = s.params ∧ t.pmaNoFetch = s.pmaNoFetch ∧ t.translations = s.translations ∧ t.pending = rest ∧
      (¬false ∈ vs ∨ Config.misalignedBeforeAccessFault = true →
        t.reply = .misaligned ∧ t.raised = s.raised ∧ t.mem = s.mem) ∧
      (false ∈ vs → Config.misalignedBeforeAccessFault = false →
        t.reply = .raised (refFault m.cls) ∧ t.raised = some (refFault m.cls) ∧
        ∃ done : Nat → Bool, (∀ j, done j = true → vs[j]? = some true) ∧
          Performed m.cls m.accesses done s.mem t.mem)

/-- R61, R62: the regions that the model computes for the additional reads: that of the address, naturally aligned and of
PREFETCH_SIZE bytes; for a fetch the next one of the same size too, modulo 2^XLEN, with XLEN taken to be MXLEN (log entry
20). With virtual memory, well-formed parameters keep the size within the smallest page. The reads themselves are not
performed and not checked: the spec's decision D24 (log entry 24). -/
def Obligations.AdditionalReadRegionsAsComputed : Prop :=
  ∀ (m : Mxlen) (p : Config) (a : Nat),
    (∃ e, prefetchSize p = 2 ^ e) ∧
    (∃ base, prefetchSize p ∣ base ∧ base ≤ a ∧ a < base + prefetchSize p ∧
      additionalReads m p false a = [(base, prefetchSize p)] ∧
      additionalReads m p true a
        = [(base, prefetchSize p), ((base + prefetchSize p) % 2 ^ mxlenBits m, prefetchSize p)]) ∧
    (ConfigWf p → p.hasVm = true →
      ∀ f, ∀ r ∈ additionalReads m p f a, r.2 ≤ p.smallestPage)

/-! Reset and the width -/

/-- R190, R191, R194, R195, R196: `Reset()` completes whatever the draws; every entry that is not hardwired is unlocked and
OFF with bits 6:5 zero, a legal combination of X, W, R within WMASK(i) and an address within ADDR_MASK(i); a hardwired
entry holds its constants; `stale` is the current settings alone; the hart is in M-mode with MPRV = 0. -/
def Obligations.ResetEstablishesUnlockedOffEntries : Prop :=
  ∀ (s : State) (draws : List ResetDraw) (h : Hart) (rest : List EnvOp), s.pending = .reset draws h :: rest →
    ∃ t, step s = .next t ∧ t.pmp.length = entryTotal s.params ∧ t.stale = [t.pmp] ∧
      t.hart.priv = .M ∧ t.hart.mprv = false ∧ t.raised = none ∧
      ∀ i, i < entryTotal s.params →
        ((entryParams s.params i).hardwired = none →
          cfgL (cfgAt t.pmp i) = false ∧ cfgA (cfgAt t.pmp i) = 0#2 ∧ cfgAt t.pmp i &&& 0x60#8 = 0#8 ∧
          ¬(cfgR (cfgAt t.pmp i) = false ∧ cfgW (cfgAt t.pmp i) = true) ∧
          cfgAt t.pmp i &&& ~~~(wmaskOf s.params i) = 0#8 ∧
          addrAt t.pmp i &&& ~~~(addrMaskOf s.mxlen s.params i) = 0#64) ∧
        (∀ c, (entryParams s.params i).hardwired = some c →
          cfgAt t.pmp i = c.cfg ∧ addrAt t.pmp i = c.addr &&& addrBitsMask s.mxlen)

/-- R192, R193: `Reset()` may leave in each entry that is not hardwired, independently, any legal combination of X, W, R within
WMASK(i) and any address within ADDR_MASK(i): for some draws, the step that performs it does. -/
def Obligations.ResetReachesEveryLegalDraw : Prop :=
  ∀ (s : State) (rwx : Nat → BitVec 3) (addr : Nat → Word),
    (∀ i, i < entryTotal s.params → (entryParams s.params i).hardwired = none →
      (rwx i).setWidth 8 &&& ~~~(wmaskOf s.params i) = 0#8 ∧ cfgReserved ((rwx i).setWidth 8) = false ∧
      addr i &&& ~~~(addrMaskOf s.mxlen s.params i) = 0#64) →
    ∃ draws, ∀ (h : Hart) (rest : List EnvOp),
      ∃ t, step { s with pending := .reset draws h :: rest } = .next t ∧
        ∀ i, i < entryTotal s.params → (entryParams s.params i).hardwired = none →
          cfgAt t.pmp i = (rwx i).setWidth 8 ∧ addrAt t.pmp i = addr i

/-- R117, R118: a change of MXLEN that the grain allows keeps every configuration byte and the address bits that both widths
have (the treatment of addresses: the spec's decision D3). The model's inference (log entry 19): the new settings join those
a check may use, and the hart is left as it is. Memory and the parameters stay. -/
def Obligations.MxlenChangePreservesConfiguration : Prop :=
  ∀ (s : State) (m : Mxlen) (rest : List EnvOp), s.pending = .setMxlen m :: rest → s.params.grain < addrBits m →
    ∃ t, step s = .next t ∧ t.mxlen = m ∧ t.pmp.length = s.pmp.length ∧
      (∀ i, cfgAt t.pmp i = cfgAt s.pmp i) ∧
      (∀ i, addrAt t.pmp i = addrAt s.pmp i &&& xlenMask s.mxlen &&& xlenMask m) ∧
      (∀ S, S ∈ t.stale ↔ S ∈ s.stale ∨ (s.params.hasVm = true ∧ S = t.pmp)) ∧
      t.hart = s.hart ∧ (∀ a, readByte t.mem a = readByte s.mem a) ∧ t.params = s.params ∧
      t.pmaNoFetch = s.pmaNoFetch ∧ t.translations = s.translations ∧ t.raised = s.raised

/-- R202: the recipe for the grain. Zero written to the configuration CSR that holds entry 0, then all ones to `pmpaddr0`,
then `pmpaddr0` read: the lowest bit set of what is read is bit G. It presupposes an entry, entry 0 unlocked and not
hardwired, entry 1 not locked with A = TOR, the default LegalAddr, and bit G of ADDR_MASK(0). -/
def Obligations.GrainDiscoveryFindsG : Prop :=
  ∀ s : State, s.params.entryCount ≠ .zero → s.pmp.length = entryTotal s.params →
    s.params.grain < addrBits s.mxlen →
    ¬AddrFrozen s 0 → (entryParams s.params 0).hardwired = none → s.params.addrRule = .masked →
    (addrMaskOf s.mxlen s.params 0).getLsbD s.params.grain = true →
    ∃ t u r, csrWrite s .M (pmpcfgNum 0) 0#64 = .ok t ∧
      csrWrite t .M (pmpaddrNum 0) (xlenMask s.mxlen) = .ok u ∧ csrRead u .M (pmpaddrNum 0) = .ok r ∧
      r.getLsbD s.params.grain = true ∧ ∀ k, k < s.params.grain → r.getLsbD k = false

/-! Invariants and rules about the whole machine -/

/-- R196: every step keeps the invariant. -/
def Obligations.EveryStepKeepsTheInvariant : Prop :=
  ∀ s t : State, State.Inv s → step s = .next t → State.Inv t

/-- R196: the state after reset meets the invariant. -/
def Obligations.ResetMeetsTheInvariant : Prop := State.Inv State.reset

/-- R107, R112, R189, R200, R201: whatever any software and the environment do, a step other than a reset leaves a locked
entry's byte as it is, and, unless it changes MXLEN, its address register; and the address register below a locked TOR
entry too. -/
def Obligations.LockedEntryIsConstantUntilReset : Prop :=
  ∀ (s t : State) (i : Nat), i < entryTotal s.params → step s = .next t → resetIsNext s = false →
    entryLocked s.pmp i = true →
    cfgAt t.pmp i = cfgAt s.pmp i ∧
    (mxlenChangeIsNext s = false →
      addrAt t.pmp i = addrAt s.pmp i ∧
      (1 ≤ i → cfgMode (cfgAt s.pmp i) = .tor → addrAt t.pmp (i - 1) = addrAt s.pmp (i - 1)))

/-- R7, R97, R177, R189: while the hart is in S-mode or U-mode, no instruction and no operation of the environment but a
reset or a change of MXLEN changes any entry, or adds a settings value that a check may use; so after a fence `stale` is
constant too. An instruction that completes there is an SFENCE.VMA, decoded from the bytes that its fetch gave and executed
on the memory that its fetch left (R163; log entries 15, 18). That only in S-mode with TVM clear an instruction changes
`stale` is the privilege rule of R170, the spec's general knowledge (D27, log entry 21). In which mode MXLEN may change is open
(R118, log entry 19). -/
def Obligations.LowerModesCannotChangeThePmp : Prop :=
  ∀ s t : State, s.hart.priv ≠ .M → step s = .next t → resetIsNext s = false →
    (mxlenChangeIsNext s = false →
      t.pmp = s.pmp ∧ (t.stale = s.stale ∨ t.stale = [s.pmp]) ∧ (s.stale = [s.pmp] → t.stale = [t.pmp])) ∧
    (s.pending = [] →
      (t.stale = s.stale ∨ (s.hart.priv = .S ∧ s.hart.tvm = false ∧ t.stale = [s.pmp])) ∧
      (t.raised ≠ none ∨ ∃ rs1 rs2 l m, fetch s = .bytes l m ∧ decodeFetched l = .ok (.sfenceVma rs1 rs2) ∧
        exec (.sfenceVma rs1 rs2) { s with mem := m, freeCount := s.freeCount + ((fetchWalk s).length + 4) } = .next t))

/-- R66, R119, R185: no instruction changes the mode, the mstatus fields, the parameters or the width, nor memory, but for the
updates of page-table entries that its fetch makes (R163); it changes at most one general register; and when it raises an
exception it changes no register, not the pc and no PMP state. -/
def Obligations.InstructionStepFrame : Prop :=
  ∀ s t : State, s.pending = [] → step s = .next t →
    t.hart.priv = s.hart.priv ∧ t.hart.mprv = s.hart.mprv ∧ t.hart.mpp = s.hart.mpp ∧ t.hart.tvm = s.hart.tvm ∧
    t.params = s.params ∧ t.mxlen = s.mxlen ∧ t.pmaNoFetch = s.pmaNoFetch ∧ t.translations = s.translations ∧
    t.pending = [] ∧ t.reply = s.reply ∧
    (∀ q, (∀ a ∈ fetchWalk s, ¬WritesTo .fetch a q) → readByte t.mem q = readByte s.mem q) ∧
    (fetchWalk s = [] → t.mem = s.mem) ∧
    (∃ rd, ∀ r, r ≠ rd → readReg t r = readReg s r) ∧
    (t.raised ≠ none → t.hart = s.hart ∧ t.pmp = s.pmp ∧ t.stale = s.stale) ∧
    (t.raised = none → t.hart.pc = (s.hart.pc + 4#64) &&& xlenMask s.mxlen)
end

