-- ==== Sys2Proof/Laws/Memory.lean ====
section
/-! SUPPORT. The laws of memory: read after write, and that every operation keeps the canonical form. -/

namespace Sys2Proof.Machine

/-- A byte written reads back. -/
@[simp] theorem readByte_writeByte_self (m : Memory) (a : Nat) (b : Byte) : readByte (writeByte m a b) a = some b := by
  induction m with
  | nil => simp [writeByte, readByte]
  | cons c t ih =>
    obtain ⟨k, v⟩ := c
    unfold writeByte
    split
    · simp [readByte]
    · split
      · simp [readByte]
      · rename_i hne; simp [readByte, ih, Ne.symm hne]

/-- Every other byte reads as before. -/
theorem readByte_writeByte_other (m : Memory) (a q : Nat) (b : Byte) (h : q ≠ a) :
    readByte (writeByte m a b) q = readByte m q := by
  induction m with
  | nil => simp [writeByte, readByte, h.symm]
  | cons c t ih =>
    obtain ⟨k, v⟩ := c
    unfold writeByte
    split
    · simp [readByte, h.symm]
    · split
      · rename_i he; subst he; simp [readByte, h.symm]
      · simp [readByte, ih]

theorem memRisesFrom_mono {a b : Nat} {m : Memory} (hab : a ≤ b) (h : memRisesFrom b m = true) :
    memRisesFrom a m = true := by
  cases m with
  | nil => rfl
  | cons c t =>
    obtain ⟨k, v⟩ := c
    simp only [memRisesFrom, Bool.and_eq_true, decide_eq_true_eq] at h ⊢
    exact ⟨by omega, h.2⟩

theorem memRisesFrom_writeByte {a q : Nat} {m : Memory} (b : Byte) (hq : a < q) (h : memRisesFrom a m = true) :
    memRisesFrom a (writeByte m q b) = true := by
  induction m generalizing a with
  | nil => simp [writeByte, memRisesFrom, hq]
  | cons c t ih =>
    obtain ⟨k, v⟩ := c
    simp only [memRisesFrom, Bool.and_eq_true, decide_eq_true_eq] at h
    unfold writeByte
    split
    · simp_all [memRisesFrom]
    · split
      · rename_i he; subst he; simp_all [memRisesFrom]
      · simp only [memRisesFrom, Bool.and_eq_true, decide_eq_true_eq]
        exact ⟨h.1, ih (by omega) h.2⟩

/-- Writing a byte keeps the canonical form. -/
theorem wf_writeByte {m : Memory} (a : Nat) (b : Byte) (h : Memory.wf m = true) : Memory.wf (writeByte m a b) = true := by
  cases m with
  | nil => rfl
  | cons c t =>
    obtain ⟨k, v⟩ := c
    unfold writeByte
    split
    · rename_i hlt
      simp only [Memory.wf, memRisesFrom, Bool.and_eq_true, decide_eq_true_eq] at h ⊢
      exact ⟨hlt, h⟩
    · split
      · rename_i he; subst he; exact h
      · exact memRisesFrom_writeByte b (by omega) h

/-- Writing several bytes keeps the canonical form. -/
theorem wf_writeBytes {m : Memory} (a : Nat) (l : List Byte) (h : Memory.wf m = true) :
    Memory.wf (writeBytes m a l) = true := by
  induction l generalizing m a with
  | nil => exact h
  | cons b t ih => exact ih _ (wf_writeByte a b h)

/-- Bytes outside those written read as before. -/
theorem readByte_writeBytes_outside (m : Memory) (a q : Nat) (l : List Byte) (h : q < a ∨ a + l.length ≤ q) :
    readByte (writeBytes m a l) q = readByte m q := by
  induction l generalizing m a with
  | nil => rfl
  | cons b t ih =>
    simp only [List.length_cons] at h
    unfold writeBytes
    rw [ih _ _ (by omega), readByte_writeByte_other _ _ _ _ (by omega)]

/-- A byte among those written reads as written. -/
theorem readByte_writeBytes_inside (m : Memory) (a k : Nat) (l : List Byte) (h : k < l.length) :
    readByte (writeBytes m a l) (a + k) = some l[k] := by
  induction l generalizing m a k with
  | nil => simp at h
  | cons b t ih =>
    unfold writeBytes
    cases k with
    | zero => rw [readByte_writeBytes_outside _ _ _ _ (by omega)]; simp
    | succ k =>
      have := ih (writeByte m a b) (a + 1) k (by simpa using h)
      simpa [Nat.add_assoc, Nat.add_comm 1 k] using this

/-- The writes of an instruction's accesses keep the canonical form. -/
theorem wf_performWrites (cls : RefClass) (f : Nat → Bool → Bool) (j : Nat) {m : Memory} (as : List Access)
    (vs : List Bool) (h : Memory.wf m = true) : Memory.wf (performWrites cls f j m as vs) = true := by
  induction as generalizing j m vs with
  | nil => unfold performWrites; exact h
  | cons a rest ih =>
    cases vs with
    | nil => unfold performWrites; exact h
    | cons v vs =>
      unfold performWrites
      apply ih
      split
      · exact wf_writeBytes _ _ h
      · exact h

/-- Memory after an instruction's accesses is in canonical form when it was before. -/
theorem wf_accessedMem (s : State) (cls : RefClass) (as : List Access) (vs : List Bool) (h : Memory.wf s.mem = true) :
    Memory.wf (accessedMem s cls as vs) = true := wf_performWrites _ _ _ _ _ h

/-- As many bytes are read as asked for. -/
@[simp] theorem length_readBytes (m : Memory) (a n : Nat) : (readBytes m a n).length = n := by
  induction n generalizing a with
  | zero => rfl
  | succ n ih => simp [readBytes, ih]

/-- The bytes of a stretch that is wholly written are read in order. -/
theorem readBytes_of_readByte {m : Memory} {a : Nat} {l : List Byte}
    (h : ∀ k (hk : k < l.length), readByte m (a + k) = some l[k]) :
    readBytes m a l.length = l ∧ firstUnwritten m a l.length = none := by
  induction l generalizing a with
  | nil => exact ⟨rfl, rfl⟩
  | cons b t ih =>
    have h0 := h 0 (by simp)
    have ht := ih (a := a + 1) (fun k hk => by
      have := h (k + 1) (by simpa using hk)
      simpa [Nat.add_assoc, Nat.add_comm 1 k] using this)
    simp only [Nat.add_zero, List.getElem_cons_zero] at h0
    simp [readBytes, firstUnwritten, h0, ht.1, ht.2]

end Sys2Proof.Machine
end

