-- ==== Sys2Proof/Laws/Check.lean ====
section
/-! SUPPORT. The laws of checking an instruction's accesses: what a free choice of settings can be, what the verdicts are
about, and where the writes of the accesses land. -/

namespace Sys2Proof.Machine

/-- A free choice among values takes one of them (R157, R166). -/
theorem pickOne_mem {α : Type} (index : Nat) (other : α) {l : List α} (h : l ≠ []) : pickOne index other l ∈ l := by
  match l with
  | [] => exact absurd rfl h
  | [x] => simp [pickOne]
  | x :: y :: rest =>
    have hlt : index % (rest.length + 2) < (x :: y :: rest).length := by
      simp only [List.length_cons]; exact Nat.mod_lt _ (by omega)
    have he : pickOne index other (x :: y :: rest) = (x :: y :: rest)[index % (rest.length + 2)] :=
      List.getD_eq_getElem _ _ hlt
    rw [he]
    exact List.getElem_mem hlt

/-- The settings of a check: the current ones without virtual memory, else a member of `stale` (R166, R169). -/
theorem checkSettings_spec (s : State) (k : Nat) :
    (s.params.hasVm = false → checkSettings s k = s.pmp) ∧
      (s.params.hasVm = true → checkSettings s k = pickOne (Config.freeIndex k) s.pmp s.stale) := by
  constructor <;> intro h <;> simp [checkSettings, h]

/-- The precondition of a check holds exactly inside the address space (R150). -/
theorem accessRefusal_none_iff (m : Mxlen) (y n : Nat) :
    accessRefusal m y n = none ↔ n ≠ 0 ∧ y + n ≤ 2 ^ palen m := by
  unfold accessRefusal
  split
  · simp_all
  · split
    · simp; omega
    · simp_all

/-- An access that is checked lies in the address space and has an effective mode; its verdict is that of `PmpCheck` and
of the PMA checks (R150, R151). -/
theorem accessCheck_ok {s : State} {k : Nat} {cls : AccessClass} {y n : Nat} {pma v : Bool}
    (h : accessCheck s k cls y n pma = .ok v) :
    n ≠ 0 ∧ y + n ≤ 2 ^ palen s.mxlen ∧ ∃ p, effPriv cls s.hart.priv s.hart.mprv s.hart.mpp = some p ∧
      v = (pmpCheck s.params (checkSettings s k) y n (accessType cls) p && pma) := by
  unfold accessCheck at h
  split at h
  · cases h
  · rename_i ha
    split at h
    · cases h
    · rename_i p hp
      cases h
      exact ⟨((accessRefusal_none_iff _ _ _).mp ha).1, ((accessRefusal_none_iff _ _ _).mp ha).2, p, hp, rfl⟩

/-- Where a check ends in a verdict (R150, R151). -/
theorem accessCheck_eq {s : State} {k : Nat} {cls : AccessClass} {y n : Nat} {pma : Bool} {p : Priv}
    (hn : n ≠ 0) (hy : y + n ≤ 2 ^ palen s.mxlen)
    (hp : effPriv cls s.hart.priv s.hart.mprv s.hart.mpp = some p) :
    accessCheck s k cls y n pma = .ok (pmpCheck s.params (checkSettings s k) y n (accessType cls) p && pma) := by
  have ha := (accessRefusal_none_iff s.mxlen y n).mpr ⟨hn, hy⟩
  simp [accessCheck, ha, hp]

/-- What a check reads of the state: the parameters, the width, the settings and the hart. -/
theorem accessCheck_congr {s t : State} (h1 : t.params = s.params) (h2 : t.mxlen = s.mxlen) (h3 : t.pmp = s.pmp)
    (h4 : t.stale = s.stale) (h5 : t.hart = s.hart) (k : Nat) (cls : AccessClass) (y n : Nat) (pma : Bool) :
    accessCheck t k cls y n pma = accessCheck s k cls y n pma := by
  simp only [accessCheck, checkSettings, h1, h2, h3, h4, h5]

/-- The verdicts of an instruction's accesses depend on nothing else of the state either. -/
theorem checkAll_congr {s t : State} (h1 : t.params = s.params) (h2 : t.mxlen = s.mxlen) (h3 : t.pmp = s.pmp)
    (h4 : t.stale = s.stale) (h5 : t.hart = s.hart) (cls : RefClass) (k : Nat) (as : List Access) :
    checkAll t cls k as = checkAll s cls k as := by
  induction as generalizing k with
  | nil => rfl
  | cons a rest ih => simp only [checkAll, ih, accessCheck_congr h1 h2 h3 h4 h5]

/-- The data of a write: one byte for each byte, or none for a store-conditional (D25). -/
theorem dataFits_iff (cls : RefClass) (a : Access) :
    dataFits cls a = true ↔
      (isWrite cls a = true → a.data.length = a.n ∨ (classOf cls a = .own .storeConditional ∧ a.data = [])) := by
  cases h : isWrite cls a <;> simp [dataFits, h]

/-- Verdicts stand one for each access, and a write among the accesses has its data (R156, D25). -/
theorem checkAll_ok {s : State} {cls : RefClass} {k : Nat} {as : List Access} {vs : List Bool}
    (h : checkAll s cls k as = .ok vs) :
    vs.length = as.length ∧
      ∀ a ∈ as, isWrite cls a = true →
        a.data.length = a.n ∨ (classOf cls a = .own .storeConditional ∧ a.data = []) := by
  induction as generalizing k vs with
  | nil => simp only [checkAll, Except.ok.injEq] at h; subst h; simp
  | cons a rest ih =>
    unfold checkAll at h
    split at h
    · rename_i hf
      split at h
      · cases h
      · split at h
        · cases h
        · rename_i w hw
          cases h
          obtain ⟨h1, h2⟩ := ih hw
          refine ⟨by simp [h1], fun b hb hwb => ?_⟩
          rcases List.mem_cons.mp hb with rfl | hb
          · exact (dataFits_iff cls b).mp hf hwb
          · exact h2 b hb hwb
    · cases h

/-- Each access of a list that is checked has its data, and its verdict is that of its own check, at its own free choice
(R156). -/
theorem checkAll_getElem {s : State} {cls : RefClass} {k : Nat} {as : List Access} {vs : List Bool}
    (h : checkAll s cls k as = .ok vs) (j : Nat) {a : Access} (ha : as[j]? = some a) :
    dataFits cls a = true ∧ ∃ v, vs[j]? = some v ∧ accessCheck s (k + j) (classOf cls a) a.y a.n a.pmaOk = .ok v := by
  induction as generalizing k vs j with
  | nil => simp at ha
  | cons b rest ih =>
    unfold checkAll at h
    split at h
    · rename_i hf
      split at h
      · cases h
      · rename_i v hv
        split at h
        · cases h
        · rename_i ws hw
          cases h
          cases j with
          | zero => cases ha; exact ⟨hf, v, rfl, hv⟩
          | succ j =>
            have := ih hw j (by simpa using ha)
            rwa [show k + 1 + j = k + (j + 1) by omega] at this
    · cases h

/-- Accesses that have their data and each pass or fail their check are checked (R156). -/
theorem checkAll_total {s : State} {cls : RefClass} {k : Nat} {as : List Access}
    (h : ∀ (j : Nat) (a : Access), as[j]? = some a →
      dataFits cls a = true ∧ ∃ v, accessCheck s (k + j) (classOf cls a) a.y a.n a.pmaOk = .ok v) :
    ∃ vs, checkAll s cls k as = .ok vs := by
  induction as generalizing k with
  | nil => exact ⟨[], rfl⟩
  | cons a rest ih =>
    obtain ⟨hf, v, hv⟩ := h 0 a rfl
    obtain ⟨vs, hvs⟩ := ih (k := k + 1) fun j b hb => by
      have := h (j + 1) b (by simpa using hb)
      rwa [show k + (j + 1) = k + 1 + j by omega] at this
    exact ⟨v :: vs, by simp only [checkAll, hf, if_true]; rw [show k = k + 0 from rfl, hv]; simp [hvs]⟩

/-- Verdicts are those of the accesses' own checks (R151, R156). -/
theorem verdicts_of_checkAll {s : State} {cls : RefClass} {as : List Access} {vs : List Bool}
    (h : checkAll s cls s.freeCount as = .ok vs) : Verdicts s cls as vs := by
  refine ⟨(checkAll_ok h).1, fun j a ha => ?_⟩
  obtain ⟨-, v, hv, hc⟩ := checkAll_getElem h j ha
  obtain ⟨-, -, p, hp, rfl⟩ := accessCheck_ok hc
  exact ⟨p, hp, hv⟩

/-- Accesses that can be checked have their verdicts (R150, R151, R156). -/
theorem checkAll_of_presentable {s : State} {cls : RefClass} {as : List Access} (h : Presentable s cls as) :
    ∃ vs, checkAll s cls s.freeCount as = .ok vs ∧ Verdicts s cls as vs := by
  obtain ⟨vs, hvs⟩ := checkAll_total (s := s) (cls := cls) (k := s.freeCount) (as := as) fun j a ha => by
    obtain ⟨h1, h2, h3, h4⟩ := h a (List.mem_of_getElem? ha)
    obtain ⟨p, hp⟩ := Option.isSome_iff_exists.mp h3
    exact ⟨(dataFits_iff cls a).mpr h4, _, accessCheck_eq h1 h2 hp⟩
  exact ⟨vs, hvs, verdicts_of_checkAll hvs⟩

/-- A byte that no performed write of the list stores to reads as before (R156). -/
theorem readByte_performWrites {cls : RefClass} {f : Nat → Bool → Bool} {q : Nat} (j : Nat) (m : Memory)
    (as : List Access) (vs : List Bool)
    (h : ∀ (i : Nat) (a : Access) (v : Bool), as[i]? = some a → vs[i]? = some v → isWrite cls a = true →
      f (j + i) v = true → q < a.y ∨ a.y + a.data.length ≤ q) :
    readByte (performWrites cls f j m as vs) q = readByte m q := by
  induction as generalizing j m vs with
  | nil => unfold performWrites; rfl
  | cons a rest ih =>
    cases vs with
    | nil => unfold performWrites; rfl
    | cons v vs =>
      unfold performWrites
      rw [ih (j + 1) _ vs (by
        intro i b w hb hw h1 h2
        exact h (i + 1) b w (by simpa using hb) (by simpa using hw) h1 (by
          have : j + (i + 1) = j + 1 + i := by omega
          rw [this]; exact h2))]
      split
      · rename_i hc
        simp only [Bool.and_eq_true] at hc
        exact readByte_writeBytes_outside _ _ _ _ (h 0 a v rfl rfl hc.1 (by simpa using hc.2))
      · rfl

/-- A byte of a performed write reads as stored, when no later performed write of the list stores to it (R156, R157). -/
theorem readByte_performWrites_inside {cls : RefClass} {f : Nat → Bool → Bool} (j : Nat) (m : Memory)
    (as : List Access) (vs : List Bool) {i b : Nat} {a : Access} {v : Bool} (ha : as[i]? = some a)
    (hv : vs[i]? = some v) (hw : isWrite cls a = true) (hf : f (j + i) v = true) (hb : b < a.data.length)
    (later : ∀ (i' : Nat) (a' : Access) (v' : Bool), i < i' → as[i']? = some a' → vs[i']? = some v' →
      isWrite cls a' = true → f (j + i') v' = true → a.y + b < a'.y ∨ a'.y + a'.data.length ≤ a.y + b) :
    readByte (performWrites cls f j m as vs) (a.y + b) = some a.data[b] := by
  induction as generalizing j m vs i with
  | nil => simp at ha
  | cons c rest ih =>
    cases vs with
    | nil => simp at hv
    | cons w vs =>
      unfold performWrites
      cases i with
      | zero =>
        cases ha; cases hv
        rw [readByte_performWrites (j + 1) _ rest vs fun i' a' v' ha' hv' hw' hf' =>
          later (i' + 1) a' v' (by omega) (by simpa using ha') (by simpa using hv') hw'
            (by rwa [show j + (i' + 1) = j + 1 + i' by omega])]
        simp only [hw, Nat.add_zero] at hf ⊢
        simp [hf, readByte_writeBytes_inside _ _ _ _ hb]
      | succ i =>
        exact ih (j + 1) _ vs (by simpa using ha) (by simpa using hv)
          (by rwa [show j + 1 + i = j + (i + 1) by omega]) fun i' a' v' hi ha' hv' hw' hf' =>
            later (i' + 1) a' v' (by omega) (by simpa using ha') (by simpa using hv') hw'
              (by rwa [show j + (i' + 1) = j + 1 + i' by omega])

/-- The writes that `performWrites` performs are exactly those that its verdicts say (R156). -/
theorem performed_performWrites {cls : RefClass} {f : Nat → Bool → Bool} {m : Memory} {as : List Access} {vs : List Bool}
    {done : Nat → Bool} (hd : ∀ (j : Nat) (v : Bool), vs[j]? = some v → done j = f j v) (hl : vs.length = as.length) :
    Performed cls as done m (performWrites cls f 0 m as vs) := by
  constructor
  · intro q h
    refine readByte_performWrites 0 m as vs fun i a v ha hv hw hf => ?_
    have := h i a ha (by rw [hd i v hv]; simpa using hf)
    by_contra hc
    exact this ⟨hw, by omega, by omega⟩
  · intro j a k hk ha hj hw later
    have hlt : j < vs.length := hl ▸ (List.getElem?_eq_some_iff.mp ha).1
    have hv := List.getElem?_eq_getElem hlt
    refine readByte_performWrites_inside 0 m as vs ha hv hw (by rw [Nat.zero_add, ← hd j _ hv]; exact hj) hk
      fun i' a' v' hi ha' hv' hw' hf' => ?_
    have := later i' a' hi ha' (by rw [hd i' v' hv']; simpa using hf')
    by_contra hc
    exact this ⟨hw', by omega, by omega⟩

/-- The writes that an instruction's accesses leave performed (R156): only of accesses that pass, and all when all pass. -/
theorem accessedMem_spec (s : State) (cls : RefClass) {as : List Access} {vs : List Bool} (hl : vs.length = as.length) :
    ∃ done : Nat → Bool, (∀ j, done j = true → vs[j]? = some true) ∧
      (¬false ∈ vs → ∀ j, j < as.length → done j = true) ∧
      Performed cls as done s.mem (accessedMem s cls as vs) := by
  refine ⟨fun j => vs.getD j false && (vs.all id || Config.freeBit s.freeCount j), fun j h => ?_, fun h j hj => ?_,
    performed_performWrites (fun j v hv => by simp [List.getD_eq_getElem?_getD, hv]) hl⟩
  · cases hv : vs[j]? with
    | none => simp [List.getD_eq_getElem?_getD, hv] at h
    | some v => cases v <;> simp [List.getD_eq_getElem?_getD, hv] at h ⊢
  · have hlt : j < vs.length := by omega
    have hall : ∀ v ∈ vs, v = true := fun v hv => by
      cases v with
      | true => rfl
      | false => exact absurd hv h
    have : vs.all id = true := List.all_eq_true.mpr fun v hv => by simpa using hall v hv
    simp [List.getD_eq_getElem?_getD, hlt, this, hall _ (List.getElem_mem hlt)]

/-- Without a write among the accesses memory is as before (R51). -/
theorem performWrites_of_no_write {cls : RefClass} {f : Nat → Bool → Bool} (j : Nat) (m : Memory) {as : List Access}
    (vs : List Bool) (h : ∀ a ∈ as, isWrite cls a = false) : performWrites cls f j m as vs = m := by
  induction as generalizing j vs with
  | nil => unfold performWrites; rfl
  | cons a rest ih =>
    cases vs with
    | nil => unfold performWrites; rfl
    | cons v vs =>
      unfold performWrites
      simp [h a (by simp), ih (j + 1) vs fun b hb => h b (by simp [hb])]

/-! Splitting a reference -/

/-- What a partition is (D20). -/
theorem isPartition_iff (n : Nat) (sizes : List Nat) :
    isPartition n sizes = true ↔ (∀ k ∈ sizes, 0 < k) ∧ sizes.sum = n := by simp [isPartition]

/-- Every class of `Decompose`: a partition, and what the rule of the class admits (R8, R157). -/
theorem decomposes_iff (p : Config) (cls : RefClass) (y n : Nat) (sizes : List Nat) :
    decomposes p cls y n sizes = true ↔
      ((∀ k ∈ sizes, 0 < k) ∧ sizes.sum = n) ∧ (splitRule p cls = .whole → sizes = [n]) ∧
        (splitRule p cls = .unstated → Config.freeDecompose cls y n sizes = true) := by
  unfold decomposes
  rw [Bool.and_eq_true, isPartition_iff]
  cases splitRule p cls <;> simp

/-- There are as many accesses as parts. -/
@[simp] theorem length_partsOf (y : Nat) (data : List Byte) (parts : List (Nat × Bool)) :
    (partsOf y data parts).length = parts.length := by
  induction parts generalizing y data with
  | nil => rfl
  | cons p rest ih => simp [partsOf, ih]

/-- The j-th access of a reference in parts: after the parts before it, with its part of the data (R157). -/
theorem partsOf_getElem {y : Nat} {data : List Byte} {parts : List (Nat × Bool)} {j : Nat} {p : Nat × Bool}
    (h : parts[j]? = some p) :
    (partsOf y data parts)[j]? = some
      { pageTable := none
        y := y + ((parts.map Prod.fst).take j).sum
        n := p.1
        data := (data.drop ((parts.map Prod.fst).take j).sum).take p.1
        pmaOk := p.2 } := by
  induction parts generalizing y data j with
  | nil => simp at h
  | cons q rest ih =>
    cases j with
    | zero => cases h; simp [partsOf]
    | succ j =>
      have := ih (y := y + q.1) (data := data.drop q.1) (j := j) (by simpa using h)
      simp [partsOf, this, Nat.add_assoc]

end Sys2Proof.Machine
end

