-- ==== Sys2Proof/Laws/Encoding.lean ====
section
/-! SUPPORT. The laws of fields of a word put together from its parts, and of the bytes of a word. -/

namespace Sys2Proof

/-- A field inside the low part. -/
theorem extract_append_lo {w v : Nat} (x : BitVec w) (c : BitVec v) (k n : Nat) (h : k + n ≤ v) :
    (x ++ c).extractLsb' k n = c.extractLsb' k n := by
  apply BitVec.eq_of_getLsbD_eq
  intro j hj
  have hk : k + j < v := by omega
  rw [BitVec.getLsbD_extractLsb', BitVec.getLsbD_extractLsb', BitVec.getLsbD_append]
  simp [hk]

/-- A field inside the high part. -/
theorem extract_append_hi {w v : Nat} (x : BitVec w) (c : BitVec v) (k n : Nat) (h : v ≤ k) :
    (x ++ c).extractLsb' k n = x.extractLsb' (k - v) n := by
  apply BitVec.eq_of_getLsbD_eq
  intro j hj
  have hk : ¬k + j < v := by omega
  have he : k + j - v = k - v + j := by omega
  rw [BitVec.getLsbD_extractLsb', BitVec.getLsbD_extractLsb', BitVec.getLsbD_append]
  simp [hk, he]

/-- The whole of a word is its own field. -/
theorem extract_all {w : Nat} (x : BitVec w) : x.extractLsb' 0 w = x := by
  apply BitVec.eq_of_getLsbD_eq
  intro j hj
  rw [BitVec.getLsbD_extractLsb']
  simp [hj]

/-- The fields of an I-type word (R85). -/
theorem fields_iTypeWord (csr : CsrNum) (src : BitVec 5) (f : BitVec 3) (rd : RegNum) :
    fieldCsr (iTypeWord csr src f rd) = csr ∧ fieldRs1 (iTypeWord csr src f rd) = src ∧
      fieldFunct3 (iTypeWord csr src f rd) = f ∧ fieldRd (iTypeWord csr src f rd) = rd ∧
      fieldOpcode (iTypeWord csr src f rd) = 0b1110011#7 := by
  refine ⟨?_, ?_, ?_, ?_, ?_⟩
  · unfold fieldCsr iTypeWord
    rw [extract_append_hi _ _ _ _ (by omega), extract_append_hi _ _ _ _ (by omega),
      extract_append_hi _ _ _ _ (by omega), extract_append_hi _ _ _ _ (by omega)]
    exact extract_all csr
  · unfold fieldRs1 iTypeWord
    rw [extract_append_hi _ _ _ _ (by omega), extract_append_hi _ _ _ _ (by omega),
      extract_append_hi _ _ _ _ (by omega), extract_append_lo _ _ _ _ (by omega)]
    exact extract_all src
  · unfold fieldFunct3 iTypeWord
    rw [extract_append_hi _ _ _ _ (by omega), extract_append_hi _ _ _ _ (by omega),
      extract_append_lo _ _ _ _ (by omega)]
    exact extract_all f
  · unfold fieldRd iTypeWord
    rw [extract_append_hi _ _ _ _ (by omega), extract_append_lo _ _ _ _ (by omega)]
    exact extract_all rd
  · unfold fieldOpcode iTypeWord
    rw [extract_append_lo _ _ _ _ (by omega)]
    exact extract_all _

/-- The fields of the word of SFENCE.VMA (R85). -/
theorem fields_rTypeWord (rs2 rs1 : RegNum) :
    (rTypeWord rs2 rs1).extractLsb' 25 7 = 0b0001001#7 ∧ fieldRs2 (rTypeWord rs2 rs1) = rs2 ∧
      fieldRs1 (rTypeWord rs2 rs1) = rs1 ∧ fieldFunct3 (rTypeWord rs2 rs1) = 0b000#3 ∧
      fieldRd (rTypeWord rs2 rs1) = 0b00000#5 ∧ fieldOpcode (rTypeWord rs2 rs1) = 0b1110011#7 := by
  refine ⟨?_, ?_, ?_, ?_, ?_, ?_⟩
  · unfold rTypeWord
    rw [extract_append_hi _ _ _ _ (by omega), extract_append_hi _ _ _ _ (by omega),
      extract_append_hi _ _ _ _ (by omega), extract_append_hi _ _ _ _ (by omega),
      extract_append_hi _ _ _ _ (by omega)]
    exact extract_all _
  · unfold fieldRs2 rTypeWord
    rw [extract_append_hi _ _ _ _ (by omega), extract_append_hi _ _ _ _ (by omega),
      extract_append_hi _ _ _ _ (by omega), extract_append_hi _ _ _ _ (by omega),
      extract_append_lo _ _ _ _ (by omega)]
    exact extract_all rs2
  · unfold fieldRs1 rTypeWord
    rw [extract_append_hi _ _ _ _ (by omega), extract_append_hi _ _ _ _ (by omega),
      extract_append_hi _ _ _ _ (by omega), extract_append_lo _ _ _ _ (by omega)]
    exact extract_all rs1
  · unfold fieldFunct3 rTypeWord
    rw [extract_append_hi _ _ _ _ (by omega), extract_append_hi _ _ _ _ (by omega),
      extract_append_lo _ _ _ _ (by omega)]
    exact extract_all _
  · unfold fieldRd rTypeWord
    rw [extract_append_hi _ _ _ _ (by omega), extract_append_lo _ _ _ _ (by omega)]
    exact extract_all _
  · unfold fieldOpcode rTypeWord
    rw [extract_append_lo _ _ _ _ (by omega)]
    exact extract_all _

/-- The bytes of a word, put together again, are the word (R85). -/
theorem wordOfBytes_bytesOfWord (w : BitVec 32) :
    wordOfBytes (w.extractLsb' 0 8) (w.extractLsb' 8 8) (w.extractLsb' 16 8) (w.extractLsb' 24 8) = w := by
  apply BitVec.eq_of_getLsbD_eq
  intro j hj
  simp only [wordOfBytes, BitVec.getLsbD_append, BitVec.getLsbD_extractLsb']
  by_cases h1 : j < 8
  · simp [h1]
  · by_cases h2 : j - 8 < 8
    · have : 8 + (j - 8) = j := by omega
      simp [h1, h2, this]
    · by_cases h3 : j - 8 - 8 < 8
      · have : 16 + (j - 8 - 8) = j := by omega
        simp [h1, h2, h3, this]
      · have : 24 + (j - 8 - 8 - 8) = j := by omega
        have h4 : j - 8 - 8 - 8 < 8 := by omega
        simp [h1, h2, h3, h4, this]

/-- The bytes of a word put together from four bytes are those bytes (R85). -/
theorem bytesOfWord_wordOfBytes (b0 b1 b2 b3 : Byte) : bytesOfWord (wordOfBytes b0 b1 b2 b3) = [b0, b1, b2, b3] := by
  simp only [bytesOfWord, wordOfBytes, List.cons.injEq, and_true]
  refine ⟨?_, ?_, ?_, ?_⟩ <;>
    apply BitVec.eq_of_getLsbD_eq <;> intro j hj <;>
    simp only [BitVec.getLsbD_extractLsb', BitVec.getLsbD_append, hj, decide_true, Bool.true_and] <;>
    (repeat' split) <;> first | omega | (congr 1; omega)

end Sys2Proof
end

