-- ==== Sys2Proof/Laws/Fetch.lean ====
section
/-! SUPPORT. The laws of fetching: the parts of a fetch, the verdict of the PMA checks, and when the fetch gives its bytes. -/

namespace Sys2Proof.Machine

/-- The PMA checks allow a fetch exactly when no byte of it is in a range they deny (R49). -/
theorem pmaAllowsFetch_iff (noFetch : List (Nat × Nat)) (y n : Nat) :
    pmaAllowsFetch noFetch y n = true ↔
      ∀ k, k < n → ∀ r ∈ noFetch, ¬(r.1 ≤ y + k ∧ y + k < r.1 + r.2) := by
  simp only [pmaAllowsFetch, List.all_eq_true, List.mem_range, Bool.not_eq_true', Bool.and_eq_false_iff, decide_eq_false_iff_not]
  exact forall_congr' fun k => forall_congr' fun _ => forall_congr' fun r => forall_congr' fun _ => by omega

/-- The j-th part of a fetch: its size, and the verdict on its bytes. -/
theorem fetchParts_getElem {noFetch : List (Nat × Nat)} {y : Nat} {sizes : List Nat} {j n : Nat}
    (h : sizes[j]? = some n) :
    (fetchParts noFetch y sizes)[j]? = some (n, pmaAllowsFetch noFetch (y + (sizes.take j).sum) n) := by
  induction sizes generalizing y j with
  | nil => simp at h
  | cons q rest ih =>
    cases j with
    | zero => cases h; simp [fetchParts]
    | succ j =>
      have := ih (y := y + q) (j := j) (by simpa using h)
      simp [fetchParts, this, Nat.add_assoc]

/-- The parts of a fetch have the given sizes. -/
@[simp] theorem map_fst_fetchParts (noFetch : List (Nat × Nat)) (y : Nat) (sizes : List Nat) :
    (fetchParts noFetch y sizes).map Prod.fst = sizes := by
  induction sizes generalizing y with
  | nil => rfl
  | cons n rest ih => simp [fetchParts, ih]

/-- The sizes of a fetch's parts are a partition of the word, one that `Decompose` admits unless it admits none (R157). -/
theorem fetchSizes_spec (s : State) :
    ((∀ k ∈ fetchSizes s, 0 < k) ∧ (fetchSizes s).sum = 4) ∧
      (decomposes s.params .fetch (fetchAddress s) 4 (fetchSizes s) = true ∨ fetchSizes s = [4]) := by
  by_cases h : wordSplits.filter (decomposes s.params .fetch (fetchAddress s) 4) = []
  · have : fetchSizes s = [4] := by simp [fetchSizes, h, pickOne]
    simp [this]
  · have hm := (List.mem_filter.mp (pickOne_mem (Config.freeSplit s.freeCount) [4] h)).2
    exact ⟨((decomposes_iff _ _ _ _ _).mp hm).1, .inl hm⟩

/-- A part ends within the whole. -/
theorem sum_take_add_le {sizes : List Nat} {j n : Nat} (h : sizes[j]? = some n) :
    (sizes.take j).sum + n ≤ sizes.sum := by
  induction sizes generalizing j with
  | nil => simp at h
  | cons q rest ih =>
    cases j with
    | zero => cases h; simp
    | succ j =>
      have := ih (j := j) (by simpa using h)
      simp; omega

/-- Without a translation the fetch makes no page-table access and is at the pc (R165, R169). -/
theorem fetch_identity {s : State} (h : translationOf s = none) :
    fetchWalk s = [] ∧ fetchPageFaults s = false ∧ fetchAddress s = fetchPc s := by
  simp [fetchWalk, fetchPageFaults, fetchAddress, h]

/-- Every page-table access of a fetch is one of class PageTable, at mode S (R54, R163). -/
theorem classOf_fetchWalk {s : State} {a : Access} (h : a ∈ fetchWalk s) :
    ∃ u, a.pageTable = some u ∧ classOf .fetch a = .pageTable u .fetch := by
  unfold fetchWalk at h
  split at h
  · obtain ⟨w, -, rfl⟩ := List.mem_map.mp h
    exact ⟨w.update, rfl, rfl⟩
  · simp at h

/-- The accesses of a fetch that translate the pc come first (R163). -/
theorem fetchAccesses_walk {s : State} {j : Nat} (h : j < (fetchWalk s).length) :
    (fetchAccesses s)[j]? = some (fetchWalk s)[j] := by
  rw [fetchAccesses, List.getElem?_append_left h, List.getElem?_eq_getElem h]

/-- Then come the parts of the word (R152, R157), unless translation ends in a page-fault. -/
theorem fetchAccesses_part {s : State} {j n : Nat} (hp : fetchPageFaults s = false) (h : (fetchSizes s)[j]? = some n) :
    (fetchAccesses s)[(fetchWalk s).length + j]? = some
      { pageTable := none
        y := fetchAddress s + ((fetchSizes s).take j).sum
        n := n
        data := []
        pmaOk := pmaAllowsFetch s.pmaNoFetch (fetchAddress s + ((fetchSizes s).take j).sum) n } := by
  have := partsOf_getElem (y := fetchAddress s) (data := []) (fetchParts_getElem (noFetch := s.pmaNoFetch)
    (y := fetchAddress s) h)
  rw [fetchAccesses, List.getElem?_append_right (by omega)]
  simpa [hp] using this

/-- How many accesses a fetch makes. -/
theorem length_fetchAccesses (s : State) : (fetchAccesses s).length
    = (fetchWalk s).length + if fetchPageFaults s then 0 else (fetchSizes s).length := by
  have h : (fetchParts s.pmaNoFetch (fetchAddress s) (fetchSizes s)).length = (fetchSizes s).length := by
    rw [← List.length_map (f := Prod.fst), map_fst_fetchParts]
  rw [fetchAccesses, List.length_append]
  split <;> simp [h]

/-- The accesses of a fetch can be checked when those of its walk can, and the word lies in the address space unless
translation ends in a page-fault (R150). -/
theorem presentable_fetchAccesses {s : State} (hw : Presentable s .fetch (fetchWalk s))
    (hs : fetchPageFaults s = false → fetchAddress s + 4 ≤ 2 ^ palen s.mxlen) :
    Presentable s .fetch (fetchAccesses s) := by
  intro a ha
  obtain ⟨j, hj⟩ := List.mem_iff_getElem?.mp ha
  have hlt := (List.getElem?_eq_some_iff.mp hj).1
  rw [length_fetchAccesses] at hlt
  by_cases h : j < (fetchWalk s).length
  · rw [fetchAccesses_walk h] at hj
    cases hj
    exact hw _ (List.getElem_mem h)
  · cases hp : fetchPageFaults s with
    | true => rw [hp] at hlt; simp at hlt; exact absurd hlt h
    | false =>
      rw [hp] at hlt
      obtain ⟨i, rfl⟩ : ∃ i, j = (fetchWalk s).length + i := ⟨j - (fetchWalk s).length, by omega⟩
      have hi : i < (fetchSizes s).length := by simpa using hlt
      have hn : (fetchSizes s)[i]? = some (fetchSizes s)[i] := List.getElem?_eq_getElem hi
      rw [fetchAccesses_part hp hn] at hj
      cases hj
      obtain ⟨⟨hpos, hsum⟩, -⟩ := fetchSizes_spec s
      have h0 := hpos _ (List.mem_of_getElem? hn)
      have hle := sum_take_add_le hn
      have := hs hp
      exact ⟨by dsimp only; omega, by dsimp only; omega, rfl, by simp [isWrite, classOf, accessType, refType]⟩

/-- The parts of the word write nothing: the accesses of a fetch that write are updates of its walk (R51, R163). -/
theorem isWrite_part {s : State} {j : Nat} {a : Access} (h : (fetchAccesses s)[(fetchWalk s).length + j]? = some a) :
    isWrite .fetch a = false := by
  cases hp : fetchPageFaults s with
  | true =>
    have hlt := (List.getElem?_eq_some_iff.mp h).1
    rw [length_fetchAccesses, hp] at hlt
    simp at hlt
  | false =>
    have hlt := (List.getElem?_eq_some_iff.mp h).1
    rw [length_fetchAccesses, hp] at hlt
    have hj : j < (fetchSizes s).length := by simpa using hlt
    rw [fetchAccesses_part hp (List.getElem?_eq_getElem hj)] at h
    cases h
    rfl

/-- What the accesses of a fetch leave in memory is what its page-table updates leave (R163). -/
theorem performed_fetchWalk {s : State} {done : Nat → Bool} {old new : Memory}
    (h : Performed .fetch (fetchAccesses s) done old new) : Performed .fetch (fetchWalk s) done old new := by
  have walk : ∀ (j : Nat) (a : Access), (fetchWalk s)[j]? = some a → (fetchAccesses s)[j]? = some a := by
    intro j a ha
    obtain ⟨hj, rfl⟩ := List.getElem?_eq_some_iff.mp ha
    exact fetchAccesses_walk hj
  have back : ∀ (j : Nat) (a : Access), (fetchAccesses s)[j]? = some a → isWrite .fetch a = true →
      (fetchWalk s)[j]? = some a := by
    intro j a ha hw
    by_cases hj : j < (fetchWalk s).length
    · rw [fetchAccesses_walk hj] at ha
      rw [List.getElem?_eq_getElem hj, ha]
    · obtain ⟨i, rfl⟩ : ∃ i, j = (fetchWalk s).length + i := ⟨j - (fetchWalk s).length, by omega⟩
      rw [isWrite_part ha] at hw
      cases hw
  exact ⟨fun q hq => h.1 q fun j a ha hd hw => hq j a (back j a ha hw.1) hd hw,
    fun j a k hk ha hd hw later => h.2 j a k hk (walk j a ha) hd hw fun j' a' hj ha' hd' hw' =>
      later j' a' hj (back j' a' ha' hw'.1) hd' hw'⟩

/-- A fetch without page-table accesses leaves memory as it is. -/
theorem accessedMem_fetch_of_no_walk {s : State} (h : fetchWalk s = []) (vs : List Bool) :
    accessedMem s .fetch (fetchAccesses s) vs = s.mem := by
  refine performWrites_of_no_write 0 s.mem vs fun a ha => ?_
  obtain ⟨j, hj⟩ := List.mem_iff_getElem?.mp ha
  exact isWrite_part (s := s) (j := j) (by simpa [h] using hj)

/-- What a fetch at a multiple of 4 does, given the verdicts of its accesses (R49, R152, R156, R163, R181). -/
theorem fetch_spec {s : State} {vs : List Bool} (ha : fetchPc s % 4 = 0)
    (h : checkAll s .fetch s.freeCount (fetchAccesses s) = .ok vs) :
    (false ∈ vs → fetch s = .denied (accessedMem s .fetch (fetchAccesses s) vs)) ∧
      (¬false ∈ vs → fetchPageFaults s = true → fetch s = .pageFault) ∧
      (¬false ∈ vs → fetchPageFaults s = false → ∀ l : List Byte, l.length = 4 →
        (∀ k (hk : k < l.length),
          readByte (accessedMem s .fetch (fetchAccesses s) vs) (fetchAddress s + k) = some l[k]) →
        fetch s = .bytes l (accessedMem s .fetch (fetchAccesses s) vs)) := by
  have hall : vs.all id = true ↔ ¬false ∈ vs := by
    induction vs with
    | nil => simp
    | cons v vs ih => cases v <;> simp
  refine ⟨fun hf => ?_, fun hf hp => ?_, fun hf hp l hl hb => ?_⟩
  · have : vs.all id = false := by rw [← Bool.not_eq_true]; exact fun hh => hall.mp hh hf
    simp [fetch, ha, h, this]
  · simp [fetch, ha, h, hall.mpr hf, hp]
  · obtain ⟨h1, h2⟩ := readBytes_of_readByte hb
    rw [hl] at h1 h2
    simp [fetch, ha, h, hall.mpr hf, hp, h1, h2]

end Sys2Proof.Machine
end

