-- ==== Sys2Proof/Laws/State.lean ====
section
/-! SUPPORT. The small lemmas of the state updates: one per field and update, true by rfl. -/

namespace Sys2Proof.Machine

section AdvancePc
variable (s : State)
@[simp] theorem advancePc_params : (advancePc s).params = s.params := rfl
@[simp] theorem advancePc_mxlen : (advancePc s).mxlen = s.mxlen := rfl
@[simp] theorem advancePc_pmp : (advancePc s).pmp = s.pmp := rfl
@[simp] theorem advancePc_stale : (advancePc s).stale = s.stale := rfl
@[simp] theorem advancePc_mem : (advancePc s).mem = s.mem := rfl
@[simp] theorem advancePc_pmaNoFetch : (advancePc s).pmaNoFetch = s.pmaNoFetch := rfl
@[simp] theorem advancePc_translations : (advancePc s).translations = s.translations := rfl
@[simp] theorem advancePc_raised : (advancePc s).raised = s.raised := rfl
@[simp] theorem advancePc_pending : (advancePc s).pending = s.pending := rfl
@[simp] theorem advancePc_reply : (advancePc s).reply = s.reply := rfl
@[simp] theorem advancePc_freeCount : (advancePc s).freeCount = s.freeCount := rfl
@[simp] theorem advancePc_priv : (advancePc s).hart.priv = s.hart.priv := rfl
@[simp] theorem advancePc_mprv : (advancePc s).hart.mprv = s.hart.mprv := rfl
@[simp] theorem advancePc_mpp : (advancePc s).hart.mpp = s.hart.mpp := rfl
@[simp] theorem advancePc_tvm : (advancePc s).hart.tvm = s.hart.tvm := rfl
@[simp] theorem advancePc_regs : (advancePc s).hart.regs = s.hart.regs := rfl
@[simp] theorem advancePc_pc : (advancePc s).hart.pc = (s.hart.pc + 4#64) &&& xlenMask s.mxlen := rfl
@[simp] theorem readReg_advancePc (r : RegNum) : readReg (advancePc s) r = readReg s r := rfl
end AdvancePc

section WriteReg
variable (s : State) (r : RegNum) (v : Word)

@[simp] theorem writeReg_params : (writeReg s r v).params = s.params := by unfold writeReg; split <;> rfl
@[simp] theorem writeReg_mxlen : (writeReg s r v).mxlen = s.mxlen := by unfold writeReg; split <;> rfl
@[simp] theorem writeReg_pmp : (writeReg s r v).pmp = s.pmp := by unfold writeReg; split <;> rfl
@[simp] theorem writeReg_stale : (writeReg s r v).stale = s.stale := by unfold writeReg; split <;> rfl
@[simp] theorem writeReg_mem : (writeReg s r v).mem = s.mem := by unfold writeReg; split <;> rfl
@[simp] theorem writeReg_pmaNoFetch : (writeReg s r v).pmaNoFetch = s.pmaNoFetch := by unfold writeReg; split <;> rfl
@[simp] theorem writeReg_translations : (writeReg s r v).translations = s.translations := by unfold writeReg; split <;> rfl
@[simp] theorem writeReg_raised : (writeReg s r v).raised = s.raised := by unfold writeReg; split <;> rfl
@[simp] theorem writeReg_pending : (writeReg s r v).pending = s.pending := by unfold writeReg; split <;> rfl
@[simp] theorem writeReg_reply : (writeReg s r v).reply = s.reply := by unfold writeReg; split <;> rfl
@[simp] theorem writeReg_freeCount : (writeReg s r v).freeCount = s.freeCount := by unfold writeReg; split <;> rfl
@[simp] theorem writeReg_priv : (writeReg s r v).hart.priv = s.hart.priv := by unfold writeReg; split <;> rfl
@[simp] theorem writeReg_mprv : (writeReg s r v).hart.mprv = s.hart.mprv := by unfold writeReg; split <;> rfl
@[simp] theorem writeReg_mpp : (writeReg s r v).hart.mpp = s.hart.mpp := by unfold writeReg; split <;> rfl
@[simp] theorem writeReg_tvm : (writeReg s r v).hart.tvm = s.hart.tvm := by unfold writeReg; split <;> rfl
@[simp] theorem writeReg_pc : (writeReg s r v).hart.pc = s.hart.pc := by unfold writeReg; split <;> rfl
end WriteReg

section Others
variable (s : State)

@[simp] theorem raiseException_params (e : Exception) : (raiseException e s).params = s.params := rfl
@[simp] theorem raiseException_mxlen (e : Exception) : (raiseException e s).mxlen = s.mxlen := rfl
@[simp] theorem raiseException_pmp (e : Exception) : (raiseException e s).pmp = s.pmp := rfl
@[simp] theorem raiseException_stale (e : Exception) : (raiseException e s).stale = s.stale := rfl
@[simp] theorem raiseException_mem (e : Exception) : (raiseException e s).mem = s.mem := rfl
@[simp] theorem raiseException_pmaNoFetch (e : Exception) : (raiseException e s).pmaNoFetch = s.pmaNoFetch := rfl
@[simp] theorem raiseException_translations (e : Exception) : (raiseException e s).translations = s.translations := rfl
@[simp] theorem raiseException_pending (e : Exception) : (raiseException e s).pending = s.pending := rfl
@[simp] theorem raiseException_reply (e : Exception) : (raiseException e s).reply = s.reply := rfl
@[simp] theorem raiseException_freeCount (e : Exception) : (raiseException e s).freeCount = s.freeCount := rfl
@[simp] theorem raiseException_hart (e : Exception) : (raiseException e s).hart = s.hart := rfl
@[simp] theorem raiseException_raised (e : Exception) : (raiseException e s).raised = some e := rfl
@[simp] theorem drawn_params (m : Memory) : (drawn s m).params = s.params := rfl
@[simp] theorem drawn_mxlen (m : Memory) : (drawn s m).mxlen = s.mxlen := rfl
@[simp] theorem drawn_pmp (m : Memory) : (drawn s m).pmp = s.pmp := rfl
@[simp] theorem drawn_stale (m : Memory) : (drawn s m).stale = s.stale := rfl
@[simp] theorem drawn_mem (m : Memory) : (drawn s m).mem = m := rfl
@[simp] theorem drawn_pmaNoFetch (m : Memory) : (drawn s m).pmaNoFetch = s.pmaNoFetch := rfl
@[simp] theorem drawn_translations (m : Memory) : (drawn s m).translations = s.translations := rfl
@[simp] theorem drawn_raised (m : Memory) : (drawn s m).raised = s.raised := rfl
@[simp] theorem drawn_pending (m : Memory) : (drawn s m).pending = s.pending := rfl
@[simp] theorem drawn_reply (m : Memory) : (drawn s m).reply = s.reply := rfl
@[simp] theorem drawn_hart (m : Memory) : (drawn s m).hart = s.hart := rfl
@[simp] theorem drawn_freeCount (m : Memory) : (drawn s m).freeCount = s.freeCount + fetchDraws s := rfl
@[simp] theorem recordCurrent_params : (recordCurrent s).params = s.params := by unfold recordCurrent; split <;> rfl
@[simp] theorem recordCurrent_mxlen : (recordCurrent s).mxlen = s.mxlen := by unfold recordCurrent; split <;> rfl
@[simp] theorem recordCurrent_pmp : (recordCurrent s).pmp = s.pmp := by unfold recordCurrent; split <;> rfl
@[simp] theorem recordCurrent_mem : (recordCurrent s).mem = s.mem := by unfold recordCurrent; split <;> rfl
@[simp] theorem recordCurrent_pmaNoFetch : (recordCurrent s).pmaNoFetch = s.pmaNoFetch := by unfold recordCurrent; split <;> rfl
@[simp] theorem recordCurrent_translations : (recordCurrent s).translations = s.translations := by unfold recordCurrent; split <;> rfl
@[simp] theorem recordCurrent_raised : (recordCurrent s).raised = s.raised := by unfold recordCurrent; split <;> rfl
@[simp] theorem recordCurrent_pending : (recordCurrent s).pending = s.pending := by unfold recordCurrent; split <;> rfl
@[simp] theorem recordCurrent_reply : (recordCurrent s).reply = s.reply := by unfold recordCurrent; split <;> rfl
@[simp] theorem recordCurrent_freeCount : (recordCurrent s).freeCount = s.freeCount := by unfold recordCurrent; split <;> rfl
@[simp] theorem recordCurrent_hart : (recordCurrent s).hart = s.hart := by unfold recordCurrent; split <;> rfl
@[simp] theorem sfenceVmaAll_params : (sfenceVmaAll s).params = s.params := rfl
@[simp] theorem sfenceVmaAll_mxlen : (sfenceVmaAll s).mxlen = s.mxlen := rfl
@[simp] theorem sfenceVmaAll_pmp : (sfenceVmaAll s).pmp = s.pmp := rfl
@[simp] theorem sfenceVmaAll_mem : (sfenceVmaAll s).mem = s.mem := rfl
@[simp] theorem sfenceVmaAll_pmaNoFetch : (sfenceVmaAll s).pmaNoFetch = s.pmaNoFetch := rfl
@[simp] theorem sfenceVmaAll_translations : (sfenceVmaAll s).translations = s.translations := rfl
@[simp] theorem sfenceVmaAll_raised : (sfenceVmaAll s).raised = s.raised := rfl
@[simp] theorem sfenceVmaAll_pending : (sfenceVmaAll s).pending = s.pending := rfl
@[simp] theorem sfenceVmaAll_reply : (sfenceVmaAll s).reply = s.reply := rfl
@[simp] theorem sfenceVmaAll_freeCount : (sfenceVmaAll s).freeCount = s.freeCount := rfl
@[simp] theorem sfenceVmaAll_hart : (sfenceVmaAll s).hart = s.hart := rfl
@[simp] theorem sfenceVmaAll_stale : (sfenceVmaAll s).stale = [s.pmp] := rfl
end Others

/-- x0 reads as zero in every state (R45). -/
@[simp] theorem readReg_zero (s : State) : readReg s 0#5 = 0#64 := by simp [readReg]

/-- A write of x0 changes nothing (R45). -/
@[simp] theorem writeReg_zero (s : State) (v : Word) : writeReg s 0#5 v = s := by simp [writeReg]

/-- The register written reads as the value, in MXLEN bits. -/
theorem readReg_writeReg_self (s : State) (r : RegNum) (v : Word) (h : r ≠ 0#5) :
    readReg (writeReg s r v) r = v &&& xlenMask s.mxlen := by
  simp [readReg, writeReg, h, BitVec.and_assoc]

/-- Every other register reads as before. -/
theorem readReg_writeReg_other (s : State) (r q : RegNum) (v : Word) (h : q ≠ r) :
    readReg (writeReg s r v) q = readReg s q := by
  by_cases hr : r = 0#5
  · simp [hr]
  · have hq : r.toNat ≠ q.toNat := fun e => h (BitVec.eq_of_toNat_eq e.symm)
    simp [readReg, writeReg, hr, hq]

/-- Every settings value of `stale` after a record: those of before, and the current ones when HAS_VM (R105). -/
theorem mem_recordCurrent_stale (s : State) (S : Settings) :
    S ∈ (recordCurrent s).stale ↔ S ∈ s.stale ∨ (s.params.hasVm = true ∧ S = s.pmp) := by
  unfold recordCurrent insertSettings
  split
  · rename_i h
    split
    · rename_i hm
      constructor
      · exact .inl
      · rintro (h' | ⟨-, rfl⟩) <;> assumption
    · simp [h, or_comm]
  · rename_i h; simp [h]

/-- A record keeps `stale` a set. -/
theorem nodup_recordCurrent_stale (s : State) (h : s.stale.Nodup) : (recordCurrent s).stale.Nodup := by
  unfold recordCurrent insertSettings
  split
  · split
    · exact h
    · rename_i hm; exact List.nodup_cons.mpr ⟨hm, h⟩
  · exact h

/-- With HAS_VM the current settings are in `stale` after a record. -/
theorem pmp_mem_recordCurrent_stale (s : State) (h : s.params.hasVm = true) : s.pmp ∈ (recordCurrent s).stale :=
  (mem_recordCurrent_stale s s.pmp).mpr (.inr ⟨h, rfl⟩)

end Sys2Proof.Machine
end

