-- ==== Sys2Proof/Laws/Settings.lean ====
section
/-! SUPPORT. The laws of configuration bytes, address registers and settings: what a write leaves in each entry, and that
what is stored is legal. -/

namespace Sys2Proof.Machine

/-- The zero byte is legal: OFF, no permission. -/
@[simp] theorem cfgLegal_zero (g : Nat) : cfgLegal g 0#8 = true := by
  have h : cfgMode 0#8 = .off := by decide
  have h' : cfgReserved 0#8 = false := by decide
  simp [cfgLegal, cfgSelectable, h, h']

theorem and_mask_and_not {n : Nat} (v m : BitVec n) : v &&& m &&& ~~~m = 0#n := by
  rw [BitVec.and_assoc]; simp

/-- A value has no bits outside a mask iff the mask keeps it. -/
theorem and_not_eq_zero_iff {n : Nat} (v m : BitVec n) : v &&& ~~~m = 0#n ↔ v &&& m = v := by
  constructor
  · intro h
    have hd := BitVec.and_or_distrib_left (x := v) (y := m) (z := ~~~m)
    rw [h] at hd
    simpa using hd.symm
  · intro h; rw [← h]; exact and_mask_and_not _ _

theorem wmaskOf_and_unused (p : Config) (i : Nat) (b : Byte) : b &&& wmaskOf p i &&& 0x60#8 = 0#8 := by
  have : (0x9F#8 &&& 0x60#8 : Byte) = 0#8 := by decide
  simp only [wmaskOf, BitVec.and_assoc]
  simp [this]

/-- The byte made legal is legal and within the writable bits. -/
theorem cfgMadeLegal_spec (p : Config) (i : Nat) (b : Byte) :
    cfgMadeLegal p i b &&& ~~~(wmaskOf p i) = 0#8 ∧ cfgMadeLegal p i b &&& 0x60#8 = 0#8 ∧
      cfgLegal p.grain (cfgMadeLegal p i b) = true := by
  unfold cfgMadeLegal
  split
  · exact ⟨and_mask_and_not _ _, wmaskOf_and_unused _ _ _, ‹_›⟩
  · simp

/-- A byte that is legal within the mask is kept. -/
theorem cfgMadeLegal_of_legal (p : Config) (i : Nat) (b : Byte) (h : cfgLegal p.grain (b &&& wmaskOf p i) = true) :
    cfgMadeLegal p i b = b &&& wmaskOf p i := by simp [cfgMadeLegal, h]

/-- What `LegalCfg` can answer (R109, R110): the old byte for a hardwired entry, else a legal byte within WMASK(i). -/
theorem legalCfg_spec (p : Config) (i : Nat) (old w : Byte) :
    ((entryParams p i).hardwired ≠ none → legalCfg p i old w = old) ∧
      ((entryParams p i).hardwired = none →
        legalCfg p i old w &&& ~~~(wmaskOf p i) = 0#8 ∧ legalCfg p i old w &&& 0x60#8 = 0#8 ∧
          cfgLegal p.grain (legalCfg p i old w) = true) := by
  unfold legalCfg
  cases h : (entryParams p i).hardwired with
  | some c => simp
  | none =>
    refine ⟨by simp, fun _ => ?_⟩
    dsimp only
    split
    · exact ⟨and_mask_and_not _ _, wmaskOf_and_unused _ _ _, ‹_›⟩
    · exact cfgMadeLegal_spec _ _ _

/-- A legal written byte is stored as written, within WMASK(i) (R109, property 4). -/
theorem legalCfg_of_legal (p : Config) (i : Nat) (old w : Byte) (hw : (entryParams p i).hardwired = none)
    (h : cfgLegal p.grain (w &&& wmaskOf p i) = true) : legalCfg p i old w = w &&& wmaskOf p i := by
  simp [legalCfg, hw, h]

/-- The mask of a width has no bits above the address bits. -/
theorem addrMaskOf_and_addrBits (m : Mxlen) (p : Config) (i : Nat) (v : Word) :
    v &&& addrMaskOf m p i &&& ~~~(addrBitsMask m) = 0#64 := by
  simp only [addrMaskOf, ← BitVec.and_assoc]
  exact and_mask_and_not _ _

/-- What `LegalAddr` can answer (R110, R114). -/
theorem legalAddr_spec (m : Mxlen) (p : Config) (i : Nat) (old v : Word) :
    ((entryParams p i).hardwired ≠ none → legalAddr m p i old v = old) ∧
      ((entryParams p i).hardwired = none →
        legalAddr m p i old v &&& ~~~(addrMaskOf m p i) = 0#64 ∧
          (v &&& ~~~(addrMaskOf m p i) = 0#64 → legalAddr m p i old v = v)) := by
  unfold legalAddr
  cases h : (entryParams p i).hardwired with
  | some c => simp
  | none =>
    refine ⟨by simp, fun _ => ?_⟩
    dsimp only
    split
    · exact ⟨and_mask_and_not _ _, fun hv => (and_not_eq_zero_iff _ _).mp hv⟩
    · split
      · rename_i hv; exact ⟨(and_not_eq_zero_iff _ _).mpr hv, fun _ => rfl⟩
      · rename_i hv; exact ⟨and_mask_and_not _ _, fun h' => absurd ((and_not_eq_zero_iff _ _).mp h') hv⟩

section Entries
variable (m : Mxlen) (p : Config) (S : Settings)

@[simp] theorem length_writeCfgCsr (c : Nat) (v : Word) : (writeCfgCsr m p S c v).length = S.length := by
  simp [writeCfgCsr]

@[simp] theorem length_writeAddr (i : Nat) (v : Word) : (writeAddr m p S i v).length = S.length := by
  unfold writeAddr; split <;> simp

/-- The byte of every entry after a configuration write (R106). -/
theorem cfgAt_writeCfgCsr (c : Nat) (v : Word) (j : Nat) :
    cfgAt (writeCfgCsr m p S c v) j =
      if j < S.length ∧ 4 * c ≤ j ∧ j < 4 * c + cfgBytes m then
        writeCfgByte p j (cfgAt S j) (byteOfWord v (j - 4 * c))
      else cfgAt S j := by
  by_cases hj : j < S.length
  · simp only [cfgAt, writeCfgCsr, entryOf, List.getD_eq_getElem?_getD, List.getElem?_mapIdx, Nat.add_zero,
      List.getElem?_eq_getElem hj, Option.map_some, Option.getD_some, hj, true_and]
    split <;> rename_i hc <;> simp [hc]
  · simp [cfgAt, writeCfgCsr, hj]

/-- A configuration write changes no address register (R36, R106). -/
@[simp] theorem addrAt_writeCfgCsr (c : Nat) (v : Word) (j : Nat) :
    addrAt (writeCfgCsr m p S c v) j = addrAt S j := by
  simp only [addrAt, writeCfgCsr, List.getD_eq_getElem?_getD, List.getElem?_mapIdx]
  cases S[j]? with
  | none => rfl
  | some e => simp only [Option.map_some, Option.getD_some]; split <;> rfl

/-- An address write changes no configuration byte (R111). -/
@[simp] theorem cfgAt_writeAddr (i : Nat) (v : Word) (j : Nat) : cfgAt (writeAddr m p S i v) j = cfgAt S j := by
  unfold writeAddr
  split
  · rfl
  · simp only [cfgAt, List.getD_eq_getElem?_getD, List.getElem?_mapIdx]
    cases S[j]? with
    | none => rfl
    | some e => simp only [Option.map_some, Option.getD_some]; split <;> rfl

/-- Every address register after an address write (R111, R112). -/
theorem addrAt_writeAddr (i : Nat) (v : Word) (j : Nat) :
    addrAt (writeAddr m p S i v) j =
      if j = i ∧ j < S.length ∧ addrLocked p S i = false then legalAddr m p i (addrAt S i) v else addrAt S j := by
  unfold writeAddr
  split
  · rename_i h; simp [h]
  · rename_i h
    by_cases hj : j < S.length
    · simp only [addrAt, List.getD_eq_getElem?_getD, List.getElem?_mapIdx, List.getElem?_eq_getElem hj,
        Option.map_some, Option.getD_some, hj, true_and, Bool.not_eq_true] at h ⊢
      by_cases hi : j = i
      · subst hi; simp [h, hj]
      · simp [hi]
    · simp [addrAt, hj]

end Entries

/-- An entry by its two halves. -/
theorem getD_eq_mk (S : Settings) (i : Nat) :
    S.getD i { cfg := 0#8, addr := 0#64 } = { cfg := cfgAt S i, addr := addrAt S i } := rfl

/-- A write of configuration bytes keeps settings well formed. -/
theorem settingsWf_writeCfgCsr {m m' : Mxlen} {p : Config} {S : Settings} (c : Nat) (v : Word)
    (h : SettingsWf m p S) : SettingsWf m p (writeCfgCsr m' p S c v) := by
  refine ⟨by simpa using h.1, fun i hi => ?_⟩
  have hi' : i < S.length := by simpa using hi
  have he := h.2 i hi'
  rw [getD_eq_mk, addrAt_writeCfgCsr, cfgAt_writeCfgCsr]
  rw [getD_eq_mk] at he
  split
  · unfold writeCfgByte
    split
    · exact he
    · have hl := legalCfg_spec p i (cfgAt S i) (byteOfWord v (i - 4 * c))
      cases hh : (entryParams p i).hardwired with
      | some c' =>
        rw [hl.1 (by simp [hh])]; exact he
      | none =>
        obtain ⟨h1, h2, h3⟩ := hl.2 hh
        exact ⟨h2, h3, he.2.2.1, by simp [hh], fun _ => ⟨h1, (he.2.2.2.2 hh).2⟩⟩
  · exact he

/-- A write of an address register keeps settings well formed. -/
theorem settingsWf_writeAddr {m : Mxlen} {p : Config} {S : Settings} (i : Nat) (v : Word)
    (h : SettingsWf m p S) : SettingsWf m p (writeAddr m p S i v) := by
  refine ⟨by simpa using h.1, fun j hj => ?_⟩
  have hj' : j < S.length := by simpa using hj
  have he := h.2 j hj'
  rw [getD_eq_mk] at he
  rw [getD_eq_mk, cfgAt_writeAddr, addrAt_writeAddr]
  split
  · rename_i hc
    obtain ⟨rfl, -, -⟩ := hc
    have hl := legalAddr_spec m p j (addrAt S j) v
    cases hh : (entryParams p j).hardwired with
    | some c' => rw [hl.1 (by simp [hh])]; exact he
    | none =>
      obtain ⟨h1, -⟩ := hl.2 hh
      have h2 : legalAddr m p j (addrAt S j) v &&& ~~~(addrBitsMask m) = 0#64 := by
        have hx := (and_not_eq_zero_iff _ _).mp h1
        rw [← hx]; exact addrMaskOf_and_addrBits _ _ _ _
      exact ⟨he.1, he.2.1, h2, by intro c hc; simp [hh] at hc, fun _ => ⟨(he.2.2.2.2 hh).1, h1⟩⟩
  · exact he

end Sys2Proof.Machine
end

