-- ==== Sys2Proof/Laws/Match.lean ====
section
/-! SUPPORT. The laws of address matching: what the modes are, what trailing ones are, and the bits of the read view. -/

namespace Sys2Proof.Machine

/-- The mode by the A field (R18, R76). -/
theorem cfgMode_cases (b : Byte) :
    (cfgA b = 0#2 ∧ cfgMode b = .off) ∨ (cfgA b = 1#2 ∧ cfgMode b = .tor) ∨
      (cfgA b = 2#2 ∧ cfgMode b = .na4) ∨ (cfgA b = 3#2 ∧ cfgMode b = .napot) := by
  unfold cfgMode
  generalize cfgA b = a
  revert a
  decide

/-- `A[1]` is set in NA4 and NAPOT and clear in OFF and TOR (R18). -/
theorem cfgA1_eq (b : Byte) : cfgA1 b = (cfgA b).getLsbD 1 := by
  simp [cfgA1, cfgA]

@[simp] theorem getLsbD_onesWord (k j : Nat) : (onesWord k).getLsbD j = (decide (j < 64) && decide (j < k)) := by
  simp [onesWord, BitVec.getLsbD_ofNat]

/-- Trailing ones, counted up to the bound, end where the first zero bit is. -/
theorem trailingOnesUpTo_eq {fuel k v : Nat} (hk : k < fuel) (h : v % 2 ^ (k + 1) = 2 ^ k - 1) :
    trailingOnesUpTo fuel v = k := by
  induction fuel generalizing k v with
  | zero => omega
  | succ fuel ih =>
    cases k with
    | zero => simp [trailingOnesUpTo] at h ⊢; omega
    | succ k =>
      have hp : 2 ^ (k + 1 + 1) = 2 * 2 ^ (k + 1) := by ring
      have hp' : 2 ^ (k + 1) = 2 * 2 ^ k := by ring
      have h1 : 1 ≤ 2 ^ k := Nat.one_le_two_pow
      have hm : v % (2 * 2 ^ (k + 1)) = v % 2 + 2 * (v / 2 % 2 ^ (k + 1)) := Nat.mod_mul
      rw [hp, hm] at h
      have hodd : v % 2 = 1 := by omega
      have hrest : v / 2 % 2 ^ (k + 1) = 2 ^ k - 1 := by omega
      simp [trailingOnesUpTo, hodd, ih (by omega) hrest]

/-- `cto` of a value whose lowest zero bit is bit k (R10). -/
theorem cto_eq {v : Word} {k : Nat} (hk : k < 64) (h : v.toNat % 2 ^ (k + 1) = 2 ^ k - 1) : cto v = k :=
  trailingOnesUpTo_eq hk h

/-- A value that ends in k ones has at least k trailing ones. -/
theorem le_trailingOnesUpTo {fuel k v : Nat} (hk : k ≤ fuel) (h : v % 2 ^ k = 2 ^ k - 1) :
    k ≤ trailingOnesUpTo fuel v := by
  induction fuel generalizing k v with
  | zero => omega
  | succ fuel ih =>
    cases k with
    | zero => omega
    | succ k =>
      have hp : 2 ^ (k + 1) = 2 * 2 ^ k := by ring
      have h1 : 1 ≤ 2 ^ k := Nat.one_le_two_pow
      have hm : v % (2 * 2 ^ k) = v % 2 + 2 * (v / 2 % 2 ^ k) := Nat.mod_mul
      rw [hp, hm] at h
      have hodd : v % 2 = 1 := by omega
      have hrest : v / 2 % 2 ^ k = 2 ^ k - 1 := by omega
      have := ih (k := k) (v := v / 2) (by omega) hrest
      simp [trailingOnesUpTo, hodd]; omega

/-- The deciding entry found among `count` entries from entry i up is the lowest that matches a byte (R140, R141). -/
theorem decidingFrom_some {g : Nat} {S : Settings} {y n : Nat} (count i j : Nat) :
    decidingFrom g S y n count i = some j ↔
      i ≤ j ∧ j < i + count ∧ matchesAny g S j y n = true ∧ ∀ k, i ≤ k → k < j → matchesAny g S k y n = false := by
  induction count generalizing i with
  | zero => simp [decidingFrom]; omega
  | succ count ih =>
    unfold decidingFrom
    split
    · rename_i h
      constructor
      · intro hj
        cases hj
        exact ⟨by omega, by omega, h, by intro k hk hk'; omega⟩
      · rintro ⟨h1, -, -, h4⟩
        by_cases hij : i = j
        · simp [hij]
        · have := h4 i (by omega) (by omega)
          simp [h] at this
    · rename_i h
      rw [ih]
      constructor
      · rintro ⟨h1, h2, h3, h4⟩
        refine ⟨by omega, by omega, h3, fun k hk hk' => ?_⟩
        by_cases hik : k = i
        · subst hik; simpa using h
        · exact h4 k (by omega) hk'
      · rintro ⟨h1, h2, h3, h4⟩
        have hne : i ≠ j := by rintro rfl; exact h h3
        exact ⟨by omega, by omega, h3, fun k hk hk' => h4 k (by omega) hk'⟩

/-- No entry decides exactly when none of them matches a byte (R145). -/
theorem decidingFrom_none {g : Nat} {S : Settings} {y n : Nat} (count i : Nat) :
    decidingFrom g S y n count i = none ↔ ∀ k, i ≤ k → k < i + count → matchesAny g S k y n = false := by
  induction count generalizing i with
  | zero => simp [decidingFrom]; intro k hk hk'; omega
  | succ count ih =>
    unfold decidingFrom
    split
    · rename_i h
      simp only [reduceCtorEq, false_iff]
      intro hall
      have := hall i (by omega) (by omega)
      simp [h] at this
    · rename_i h
      rw [ih]
      constructor
      · intro hall k hk hk'
        by_cases hik : k = i
        · subst hik; simpa using h
        · exact hall k (by omega) (by omega)
      · intro hall k hk hk'
        exact hall k (by omega) (by omega)

/-- An entry matches some byte of the access (R141). -/
theorem matchesAny_iff {g : Nat} {S : Settings} {i y n : Nat} :
    matchesAny g S i y n = true ↔ ∃ k, k < n ∧ matchByte g S i (y + k) = true := by
  simp [matchesAny]

/-- An entry matches every byte of the access (R142). -/
theorem matchesAll_iff {g : Nat} {S : Settings} {i y n : Nat} :
    matchesAll g S i y n = true ↔ ∀ k, k < n → matchByte g S i (y + k) = true := by
  simp [matchesAll]

end Sys2Proof.Machine
end

