-- ==== Sys2Proof/Laws/Ops.lean ====
section
/-! SUPPORT. What the shared operations can do, said once each: the CSR operations, the ends of an instruction, the
instructions, the environment's operations, the step. -/

namespace Sys2Proof.Machine

/-- What `CsrRead` can do when it completes (R96): M-mode, and the value of the register behind the number. -/
theorem csrRead_ok {s : State} {priv : Priv} {a : CsrNum} {v : Word} (h : csrRead s priv a = .ok v) :
    priv = .M ∧
      ((∃ c, decodePmpCsr s.mxlen s.params a = .cfg c ∧ v = cfgCsrValue s.mxlen s.pmp c) ∨
        (∃ i, decodePmpCsr s.mxlen s.params a = .addr i ∧
          v = addrRead s.params.grain s.pmp i &&& xlenMask s.mxlen)) := by
  unfold csrRead at h
  split at h
  · cases h
  · cases h
  · rename_i c hc
    split at h
    · cases h; exact ⟨‹_›, .inl ⟨c, hc, rfl⟩⟩
    · cases h
  · rename_i i hi
    split at h
    · cases h; exact ⟨‹_›, .inr ⟨i, hi, rfl⟩⟩
    · cases h

/-- What `CsrWrite` can do when it completes (R105): M-mode, one configuration CSR or one address register written, and
the new settings recorded. -/
theorem csrWrite_ok {s t : State} {priv : Priv} {a : CsrNum} {v : Word} (h : csrWrite s priv a v = .ok t) :
    priv = .M ∧
      ((∃ c, decodePmpCsr s.mxlen s.params a = .cfg c ∧
          t = recordCurrent { s with pmp := writeCfgCsr s.mxlen s.params s.pmp c (v &&& xlenMask s.mxlen) }) ∨
        (∃ i, decodePmpCsr s.mxlen s.params a = .addr i ∧
          t = recordCurrent { s with pmp := writeAddr s.mxlen s.params s.pmp i (v &&& xlenMask s.mxlen) })) := by
  unfold csrWrite at h
  split at h
  · cases h
  · cases h
  · rename_i c hc
    split at h
    · cases h; exact ⟨‹_›, .inl ⟨c, hc, rfl⟩⟩
    · cases h
  · rename_i i hi
    split at h
    · cases h; exact ⟨‹_›, .inr ⟨i, hi, rfl⟩⟩
    · cases h

/-- Why `CsrRead` does not complete (R89, R97, R99). -/
theorem csrRead_error {s : State} {priv : Priv} {a : CsrNum} {e : Stop} (h : csrRead s priv a = .error e) :
    (decodePmpCsr s.mxlen s.params a = .notPmp ∧ e = .refusal (.notPmpCsr a)) ∨ e = .exception .illegalInstruction := by
  unfold csrRead at h
  split at h
  · cases h; exact .inl ⟨‹_›, rfl⟩
  · cases h; exact .inr rfl
  · split at h <;> cases h; exact .inr rfl
  · split at h <;> cases h; exact .inr rfl

/-- Why `CsrWrite` does not complete (R89, R97, R99). -/
theorem csrWrite_error {s : State} {priv : Priv} {a : CsrNum} {v : Word} {e : Stop}
    (h : csrWrite s priv a v = .error e) :
    (decodePmpCsr s.mxlen s.params a = .notPmp ∧ e = .refusal (.notPmpCsr a)) ∨ e = .exception .illegalInstruction := by
  unfold csrWrite at h
  split at h
  · cases h; exact .inl ⟨‹_›, rfl⟩
  · cases h; exact .inr rfl
  · split at h <;> cases h; exact .inr rfl
  · split at h <;> cases h; exact .inr rfl

/-- The state that a CSR instruction's write leaves, before the register and the pc: as before, or after a `CsrWrite` in
M-mode. -/
def CsrWritten (s u : State) : Prop := u = s ∨ (s.hart.priv = .M ∧ ∃ a v, csrWrite s .M a v = .ok u)

/-- What CSRRW and CSRRWI can do. -/
theorem csrSwap_ok {s t : State} {rd : RegNum} {a : CsrNum} {v : Word} (h : csrSwap s rd a v = .ok t) :
    ∃ u w, CsrWritten s u ∧ t = advancePc (writeReg u rd w) := by
  unfold csrSwap at h
  split at h
  · cases h
  · rename_i w _
    split at h
    · cases h
    · rename_i u hu
      cases h
      have hM := (csrWrite_ok hu).1
      exact ⟨u, w, .inr ⟨hM, a, v, hM ▸ hu⟩, rfl⟩

/-- Why CSRRW and CSRRWI do not complete. -/
theorem csrSwap_error {s : State} {rd : RegNum} {a : CsrNum} {v : Word} {e : Stop} (h : csrSwap s rd a v = .error e) :
    e = .refusal (.notPmpCsr a) ∨ e = .exception .illegalInstruction := by
  unfold csrSwap at h
  split at h
  · rename_i hr
    split at hr
    · cases hr
    · cases h; exact (csrRead_error hr).imp And.right id
  · split at h
    · rename_i hw
      cases h; exact (csrWrite_error hw).imp And.right id
    · cases h

/-- What CSRRS, CSRRC and their immediate forms can do. -/
theorem csrModify_ok {s t : State} {rd : RegNum} {a : CsrNum} {w : Bool} {f : Word → Word}
    (h : csrModify s rd a w f = .ok t) : ∃ u x, CsrWritten s u ∧ t = advancePc (writeReg u rd x) := by
  unfold csrModify at h
  split at h
  · cases h
  · rename_i x hx
    split at h
    · cases h
    · rename_i u hu
      cases h
      have hM := (csrRead_ok hx).1
      refine ⟨u, x, ?_, rfl⟩
      split at hu
      · exact .inr ⟨hM, a, _, hM ▸ hu⟩
      · cases hu; exact .inl rfl

/-- Why CSRRS, CSRRC and their immediate forms do not complete. -/
theorem csrModify_error {s : State} {rd : RegNum} {a : CsrNum} {w : Bool} {f : Word → Word} {e : Stop}
    (h : csrModify s rd a w f = .error e) : e = .refusal (.notPmpCsr a) ∨ e = .exception .illegalInstruction := by
  unfold csrModify at h
  split at h
  · rename_i hr
    cases h; exact (csrRead_error hr).imp And.right id
  · split at h
    · rename_i hw
      split at hw
      · cases h; exact (csrWrite_error hw).imp And.right id
      · cases hw
    · cases h

/-- How an instruction that reaches a next state got there. -/
theorem settle_next {s t : State} {r : Except Stop State} (h : settle s r = .next t) :
    r = .ok t ∨ ∃ e, r = .error (.exception e) ∧ t = raiseException e s := by
  unfold settle at h
  split at h
  · cases h; exact .inl rfl
  · rename_i e
    cases h; exact .inr ⟨e, rfl, rfl⟩
  · cases h

/-- SFENCE.VMA is legal in M-mode, and in S-mode with TVM = 0 (R170). -/
theorem fenceIllegal_eq_false_iff (h : Hart) :
    fenceIllegal h = false ↔ h.priv = .M ∨ (h.priv = .S ∧ h.tvm = false) := by
  cases hp : h.priv <;> simp [fenceIllegal, hp]

/-- What any instruction can do when it reaches a next state: raise illegal-instruction; or, exactly when it is a legal
SFENCE.VMA x0, x0, fence; or, after a CSR instruction's write, write one register and advance the pc. -/
theorem exec_next {i : Instr} {s t : State} (h : exec i s = .next t) :
    t = raiseException .illegalInstruction s ∨
      (i = .sfenceVma 0#5 0#5 ∧ fenceIllegal s.hart = false ∧ t = advancePc (sfenceVmaAll s)) ∨
      (¬(i = .sfenceVma 0#5 0#5 ∧ fenceIllegal s.hart = false) ∧
        ∃ u rd v, CsrWritten s u ∧ t = advancePc (writeReg u rd v)) := by
  have swap : ∀ {rd : RegNum} {a : CsrNum} {v : Word}, settle s (csrSwap s rd a v) = .next t →
      t = raiseException .illegalInstruction s ∨ ∃ u rd v, CsrWritten s u ∧ t = advancePc (writeReg u rd v) := by
    intro rd a v h
    rcases settle_next h with h | ⟨e, he, ht⟩
    · obtain ⟨u, w, hu, ht⟩ := csrSwap_ok h
      exact .inr ⟨u, rd, w, hu, ht⟩
    · rcases csrSwap_error he with h | h <;> cases h
      exact .inl ht
  have modify : ∀ {rd : RegNum} {a : CsrNum} {w : Bool} {f : Word → Word},
      settle s (csrModify s rd a w f) = .next t →
      t = raiseException .illegalInstruction s ∨ ∃ u rd v, CsrWritten s u ∧ t = advancePc (writeReg u rd v) := by
    intro rd a w f h
    rcases settle_next h with h | ⟨e, he, ht⟩
    · obtain ⟨u, x, hu, ht⟩ := csrModify_ok h
      exact .inr ⟨u, rd, x, hu, ht⟩
    · rcases csrModify_error he with h | h <;> cases h
      exact .inl ht
  cases i with
  | csrrw rd csr rs1 => exact (swap h).imp id fun h => .inr ⟨by simp, h⟩
  | csrrs rd csr rs1 => exact (modify h).imp id fun h => .inr ⟨by simp, h⟩
  | csrrc rd csr rs1 => exact (modify h).imp id fun h => .inr ⟨by simp, h⟩
  | csrrwi rd csr uimm => exact (swap h).imp id fun h => .inr ⟨by simp, h⟩
  | csrrsi rd csr uimm => exact (modify h).imp id fun h => .inr ⟨by simp, h⟩
  | csrrci rd csr uimm => exact (modify h).imp id fun h => .inr ⟨by simp, h⟩
  | sfenceVma rs1 rs2 =>
    simp only [exec, execSfenceVma] at h
    cases hf : fenceIllegal s.hart
    · simp only [hf, Bool.false_eq_true, if_false] at h
      split at h
      · rename_i hab
        obtain ⟨rfl, rfl⟩ := hab
        cases h
        exact .inr (.inl ⟨rfl, rfl, rfl⟩)
      · rename_i hab
        cases h
        refine .inr (.inr ⟨fun hx => hab ?_, s, 0#5, 0#64, .inl rfl, by simp⟩)
        simpa using hx.1
    · simp only [hf, if_true] at h
      cases h
      exact .inl rfl

/-- What a fetch can leave in memory: it keeps the canonical form, and is as before when there is no page-table access
(R163). -/
def FetchMem (s : State) (m : Memory) : Prop :=
  (Memory.wf s.mem = true → Memory.wf m = true) ∧ ∃ vs, checkAll s .fetch s.freeCount (fetchAccesses s) = .ok vs ∧
    m = accessedMem s .fetch (fetchAccesses s) vs

/-- What a fetch that gives bytes or is denied leaves in memory. -/
theorem fetch_mem {s : State} {m : Memory} (h : fetch s = .denied m ∨ ∃ l, fetch s = .bytes l m) : FetchMem s m := by
  unfold fetch at h
  split at h
  · simp at h
  · split at h
    · simp at h
    · rename_i vs hv
      dsimp only at h
      have : m = accessedMem s .fetch (fetchAccesses s) vs := by
        split at h
        · split at h
          · simp at h
          · split at h
            · simp at h
            · simpa [eq_comm] using h
        · simpa [eq_comm] using h
      exact ⟨this ▸ wf_accessedMem _ _ _ _, vs, hv, this⟩

/-- What the instruction at the pc can do when it reaches a next state: a denied fetch, or the meaning of the decoded
instruction, after the fetch's free choices and on the memory that the fetch left. -/
theorem stepInstr_next {s t : State} (h : stepInstr s = .next t) :
    ∃ m, FetchMem s m ∧
      (t = raiseException .instructionAccessFault (drawn s m) ∨
        ∃ l i, fetch s = .bytes l m ∧ decodeFetched l = .ok i ∧ exec i (drawn s m) = .next t) := by
  unfold stepInstr at h
  split at h
  · cases h
  · cases h
  · cases h
  · rename_i m hf; cases h; exact ⟨m, fetch_mem (.inl hf), .inl rfl⟩
  · rename_i l m hf
    split at h
    · cases h
    · rename_i i hi; exact ⟨m, fetch_mem (.inr ⟨l, hf⟩), .inr ⟨l, i, hf, hi, h⟩⟩

/-- What a step can do when it reaches a next state. -/
theorem step_next {s t : State} (h : step s = .next t) :
    (∃ op rest, s.pending = op :: rest ∧ runEnv op { s with pending := rest } = .next t) ∨
      (s.pending = [] ∧ s.raised = none ∧ stepInstr s = .next t) := by
  unfold step at h
  split at h
  · rename_i op rest hp; exact .inl ⟨op, rest, hp, h⟩
  · split at h
    · cases h
    · exact .inr ⟨‹_›, ‹_›, h⟩

/-- What `CsrRead` by the environment can do: answer, or raise illegal-instruction (R96, R97, R99). -/
theorem envCsrRead_next {s t : State} {a : CsrNum} (h : envCsrRead s a = .next t) :
    t = replyRaised .illegalInstruction s ∨
      (s.hart.priv = .M ∧ ∃ v, csrRead s .M a = .ok v ∧ t = { s with reply := .value v }) := by
  unfold envCsrRead at h
  split at h
  · rename_i v hv
    have hM := (csrRead_ok hv).1
    cases h; exact .inr ⟨hM, v, hM ▸ hv, rfl⟩
  · rename_i e he
    rcases (csrRead_error he).imp And.right id with rfl | rfl <;> cases h
    exact .inl rfl

/-- What `CsrWrite` by the environment can do: in M-mode write; or raise illegal-instruction and write nothing (R97, R99,
R105, R189). -/
theorem envCsrWrite_next {s t : State} {a : CsrNum} {v : Word} (h : envCsrWrite s a v = .next t) :
    t = replyRaised .illegalInstruction s ∨
      (s.hart.priv = .M ∧ ∃ u, csrWrite s .M a v = .ok u ∧ t = { u with reply := .done }) := by
  unfold envCsrWrite at h
  split at h
  · rename_i u hu
    have hM := (csrWrite_ok hu).1
    cases h; exact .inr ⟨hM, u, hM ▸ hu, rfl⟩
  · rename_i e he
    rcases (csrWrite_error he).imp And.right id with rfl | rfl <;> cases h
    exact .inl rfl

/-- The fields that performing an instruction's accesses leaves alone. -/
theorem performInstr_fields (s : State) (m : MemInstr) (vs : List Bool) :
    (performInstr s m vs).params = s.params ∧ (performInstr s m vs).mxlen = s.mxlen ∧
      (performInstr s m vs).pmp = s.pmp ∧ (performInstr s m vs).stale = s.stale ∧
      (performInstr s m vs).hart = s.hart ∧ (performInstr s m vs).pending = s.pending ∧
      (performInstr s m vs).pmaNoFetch = s.pmaNoFetch ∧ (performInstr s m vs).translations = s.translations ∧
      (Memory.wf s.mem = true → Memory.wf (performInstr s m vs).mem = true) := by
  unfold performInstr
  split
  · exact ⟨rfl, rfl, rfl, rfl, rfl, rfl, rfl, rfl, id⟩
  · dsimp only
    split <;> exact ⟨rfl, rfl, rfl, rfl, rfl, rfl, rfl, rfl, wf_accessedMem _ _ _ _⟩

/-- How the accesses of a reference that is not misaligned end (R156): done when all pass, else the access-fault. -/
theorem performInstr_aligned {s : State} {m : MemInstr} {vs : List Bool} (hm : m.misaligned = false) :
    (performInstr s m vs).mem = accessedMem s m.cls m.accesses vs ∧
      (false ∈ vs → (performInstr s m vs).raised = some (refFault m.cls) ∧
        (performInstr s m vs).reply = .raised (refFault m.cls)) ∧
      (¬false ∈ vs → (performInstr s m vs).raised = s.raised ∧ (performInstr s m vs).reply = .done) := by
  cases h : vs.all id
  · have hf : false ∈ vs := by simpa using h
    simp [performInstr, hm, h, hf, replyRaised, raiseException]
  · have hf : ¬false ∈ vs := by simpa using h
    simp [performInstr, hm, h, hf]

/-- How a misaligned reference ends (R181). -/
theorem performInstr_misaligned {s : State} {m : MemInstr} {vs : List Bool} (hm : m.misaligned = true) :
    (¬false ∈ vs ∨ Config.misalignedBeforeAccessFault = true →
      (performInstr s m vs).reply = .misaligned ∧ (performInstr s m vs).raised = s.raised ∧
        (performInstr s m vs).mem = s.mem) ∧
      (false ∈ vs → Config.misalignedBeforeAccessFault = false →
        (performInstr s m vs).reply = .raised (refFault m.cls) ∧
          (performInstr s m vs).raised = some (refFault m.cls) ∧
          (performInstr s m vs).mem = accessedMem s m.cls m.accesses vs) := by
  cases h : vs.all id
  · have hf : false ∈ vs := by simpa using h
    cases hb : Config.misalignedBeforeAccessFault <;> simp [performInstr, hm, h, hf, hb, replyRaised, raiseException]
  · have hf : ¬false ∈ vs := by simpa using h
    simp [performInstr, hm, h, hf]

/-- What the accesses of an instruction can do when they reach a next state. -/
theorem envAccesses_next {s t : State} {m : MemInstr} (h : envAccesses s m = .next t) :
    ∃ vs, checkAll s m.cls s.freeCount m.accesses = .ok vs ∧ t = performInstr s m vs := by
  unfold envAccesses at h
  split at h
  · cases h
  · rename_i vs hv; cases h; exact ⟨vs, hv, rfl⟩

/-- A reference that reaches a next state does so through the accesses of its parts. -/
theorem envReference_next {s t : State} {r : Reference} (h : envReference s r = .next t) :
    envAccesses s { cls := r.cls, accesses := partsOf r.y r.data r.parts, misaligned := r.misaligned } = .next t := by
  unfold envReference at h
  split at h
  · cases h
  · split at h
    · split at h
      · exact h
      · cases h
    · cases h

/-- A settings value at either width is one at 64 bits. -/
theorem settingsWf_rv64 {m : Mxlen} {p : Config} {S : Settings} (h : SettingsWf m p S) : SettingsWf .rv64 p S := by
  cases m with
  | rv64 => exact h
  | rv32 =>
    have hb : addrBitsMask .rv32 &&& addrBitsMask .rv64 = addrBitsMask .rv32 := by decide
    refine ⟨h.1, fun i hi => ?_⟩
    obtain ⟨h1, h2, h3, h4, h5⟩ := h.2 i hi
    have h3' := (and_not_eq_zero_iff _ _).mp h3
    refine ⟨h1, h2, ?_, h4, fun hn => ⟨(h5 hn).1, ?_⟩⟩
    · rw [and_not_eq_zero_iff, ← h3', BitVec.and_assoc, hb]
    · have h6 := (and_not_eq_zero_iff _ _).mp (h5 hn).2
      rw [and_not_eq_zero_iff]
      have : addrMaskOf .rv32 p i &&& addrMaskOf .rv64 p i = addrMaskOf .rv32 p i := by
        simp only [addrMaskOf]
        ext k hk
        have hk' := congrArg (·[k]) hb
        simp only [BitVec.getElem_and] at hk' ⊢
        revert hk'
        cases (addrBitsMask .rv32)[k] <;> cases (addrBitsMask .rv64)[k] <;> cases ((entryParams p i).addrMask)[k] <;> simp
      rw [← h6, BitVec.and_assoc, this]

/-- What `Reset()` establishes is well formed, whatever the draws (R196). -/
theorem settingsWf_resetEntries {m : Mxlen} {p : Config} (hp : ConfigWf p) (draws : List ResetDraw) :
    SettingsWf m p (resetEntries m p draws) := by
  refine ⟨by simp [resetEntries], fun i hi => ?_⟩
  have hi' : i < entryTotal p := by simpa [resetEntries] using hi
  have hg : (resetEntries m p draws).getD i { cfg := 0#8, addr := 0#64 }
      = resetEntry m p i (draws.getD i { rwx := 0#3, addr := 0#64 }) := by
    simp [resetEntries, List.getD_eq_getElem?_getD, hi']
  rw [hg]
  unfold resetEntry
  cases hh : (entryParams p i).hardwired with
  | some c =>
    have hc := hp.1 i hi' c (by simp [hh])
    exact ⟨hc.1, hc.2.1, and_mask_and_not _ _, by intro c' hc'; simp [hh] at hc'; subst hc'; rfl,
      by simp [hh]⟩
  | none =>
    obtain ⟨h1, h2, h3⟩ := cfgMadeLegal_spec p i
      ((draws.getD i { rwx := 0#3, addr := 0#64 }).rwx.setWidth 8)
    exact ⟨h2, h3, addrMaskOf_and_addrBits _ _ _ _, by intro c hc; simp [hh] at hc,
      fun _ => ⟨h1, and_mask_and_not _ _⟩⟩

/-- The mask of one width within that of the other is the narrower. -/
theorem addrBitsMask_and_xlenMask (old new : Mxlen) :
    addrBitsMask old &&& (xlenMask old &&& xlenMask new) &&& addrBitsMask new
      = addrBitsMask old &&& (xlenMask old &&& xlenMask new) := by
  cases old <;> cases new <;> decide

/-- A change of MXLEN keeps settings well formed, at the new width (R117, R118). -/
theorem settingsWf_modulate {old new : Mxlen} {p : Config} {S : Settings} (h : SettingsWf old p S) :
    SettingsWf new p (S.map fun e => { e with addr := modulateAddr old new e.addr }) := by
  refine ⟨by simpa using h.1, fun i hi => ?_⟩
  have hi' : i < S.length := by simpa using hi
  have he := h.2 i hi'
  rw [List.getD_eq_getElem _ _ hi'] at he
  rw [List.getD_eq_getElem _ _ hi, List.getElem_map]
  obtain ⟨h1, h2, h3, h4, h5⟩ := he
  have hk := addrBitsMask_and_xlenMask old new
  have hx := (and_not_eq_zero_iff _ _).mp h3
  have hm : modulateAddr old new S[i].addr
      = S[i].addr &&& (addrBitsMask old &&& (xlenMask old &&& xlenMask new)) := by
    rw [← BitVec.and_assoc, hx, modulateAddr, BitVec.and_assoc]
  have hb : modulateAddr old new S[i].addr &&& addrBitsMask new = modulateAddr old new S[i].addr := by
    rw [hm, BitVec.and_assoc, hk]
  refine ⟨h1, h2, (and_not_eq_zero_iff _ _).mpr hb, h4, fun hn => ⟨(h5 hn).1, ?_⟩⟩
  have h6 := (and_not_eq_zero_iff _ _).mp (h5 hn).2
  have hp : S[i].addr &&& (entryParams p i).addrMask = S[i].addr := by
    rw [addrMaskOf, BitVec.and_comm (entryParams p i).addrMask, ← BitVec.and_assoc, hx] at h6
    exact h6
  rw [and_not_eq_zero_iff, addrMaskOf, BitVec.and_comm (entryParams p i).addrMask, ← BitVec.and_assoc]
  show modulateAddr old new S[i].addr &&& addrBitsMask new &&& (entryParams p i).addrMask = _
  rw [hb, modulateAddr, BitVec.and_assoc, BitVec.and_comm (xlenMask new), ← BitVec.and_assoc, BitVec.and_assoc S[i].addr,
    BitVec.and_comm (xlenMask old), ← BitVec.and_assoc, hp]

/-- Recording the current settings keeps the invariant's part about `stale`. -/
theorem inv_recordCurrent {s : State} (hc : ConfigWf s.params) (hg : s.params.grain < addrBits s.mxlen)
    (hp : SettingsWf s.mxlen s.params s.pmp) (hs : ∀ S ∈ s.stale, SettingsWf .rv64 s.params S)
    (hn : s.stale.Nodup) (hm : Memory.wf s.mem = true) : State.Inv (recordCurrent s) := by
  refine ⟨by simpa using hc, by simpa using hg, by simpa using hp, ?_, ?_, nodup_recordCurrent_stale s hn,
    by simpa using hm⟩
  · intro S hS
    rw [recordCurrent_params]
    rcases (mem_recordCurrent_stale s S).mp hS with h | ⟨-, rfl⟩
    · exact hs S h
    · exact settingsWf_rv64 hp
  · intro h
    rw [recordCurrent_pmp]
    exact pmp_mem_recordCurrent_stale s (by simpa using h)

/-- `CsrWrite` keeps the invariant. -/
theorem inv_csrWrite {s t : State} {priv : Priv} {a : CsrNum} {v : Word} (hI : State.Inv s)
    (h : csrWrite s priv a v = .ok t) : State.Inv t := by
  obtain ⟨hc, hg, hp, hs, -, hn, hm⟩ := hI
  rcases (csrWrite_ok h).2 with ⟨c, -, rfl⟩ | ⟨i, -, rfl⟩
  · exact inv_recordCurrent hc hg (settingsWf_writeCfgCsr c _ hp) hs hn hm
  · exact inv_recordCurrent hc hg (settingsWf_writeAddr i _ hp) hs hn hm

/-- The invariant speaks only of the parameters, the width, the settings and memory. -/
theorem inv_congr {s t : State} (hI : State.Inv s) (h1 : t.params = s.params) (h2 : t.mxlen = s.mxlen)
    (h3 : t.pmp = s.pmp) (h4 : t.stale = s.stale) (h5 : Memory.wf s.mem = true → Memory.wf t.mem = true) :
    State.Inv t := by
  unfold State.Inv at hI ⊢
  rw [h1, h2, h3, h4]
  exact ⟨hI.1, hI.2.1, hI.2.2.1, hI.2.2.2.1, hI.2.2.2.2.1, hI.2.2.2.2.2.1, h5 hI.2.2.2.2.2.2⟩

/-- The state that a CSR instruction's write leaves keeps the invariant. -/
theorem inv_csrWritten {s u : State} (hI : State.Inv s) (h : CsrWritten s u) : State.Inv u := by
  rcases h with rfl | ⟨-, a, v, h⟩
  · exact hI
  · exact inv_csrWrite hI h

/-- `SfenceVmaAll` keeps the invariant. -/
theorem inv_sfenceVmaAll {s : State} (hI : State.Inv s) : State.Inv (sfenceVmaAll s) := by
  obtain ⟨hc, hg, hp, -, -, -, hm⟩ := hI
  refine ⟨hc, hg, hp, ?_, ?_, by simp, hm⟩
  · intro S hS; simp at hS; subst hS; exact settingsWf_rv64 hp
  · intro _; simp

/-- `Reset()` keeps the invariant. -/
theorem inv_resetUnit {s : State} (draws : List ResetDraw) (h : Hart) (hI : State.Inv s) :
    State.Inv (resetUnit s draws h) := by
  obtain ⟨hc, hg, -, -, -, -, hm⟩ := hI
  have hw : SettingsWf s.mxlen s.params (resetEntries s.mxlen s.params draws) := settingsWf_resetEntries hc draws
  refine ⟨hc, hg, hw, ?_, ?_, by simp [resetUnit], hm⟩
  · intro S hS; simp [resetUnit] at hS; subst hS; exact settingsWf_rv64 hw
  · intro _; simp [resetUnit]

/-- `SetMxlen` keeps the invariant, when the grain fits. -/
theorem inv_setMxlen {s : State} {m : Mxlen} (hg : s.params.grain < addrBits m) (hI : State.Inv s) :
    State.Inv (setMxlen s m) := by
  obtain ⟨hc, -, hp, hs, -, hn, hm⟩ := hI
  exact inv_recordCurrent hc hg (settingsWf_modulate hp) hs hn hm

end Sys2Proof.Machine
end

