-- ==== Sys2Proof/Laws/PerInstr.lean ====
section
/-! SUPPORT. A law made per instruction: the field of its word that R85 fixes for every one of them. -/

namespace Sys2Proof.Laws.SystemOpcode

/-- The word of the instruction has the opcode SYSTEM (R85). -/
def Statement (i : Instr) : Prop := fieldOpcode (encodeWord i) = 0b1110011#7

theorem csrrw (rd : RegNum) (csr : CsrNum) (rs1 : RegNum) : Statement (.csrrw rd csr rs1) :=
  (fields_iTypeWord _ _ _ _).2.2.2.2
theorem csrrs (rd : RegNum) (csr : CsrNum) (rs1 : RegNum) : Statement (.csrrs rd csr rs1) :=
  (fields_iTypeWord _ _ _ _).2.2.2.2
theorem csrrc (rd : RegNum) (csr : CsrNum) (rs1 : RegNum) : Statement (.csrrc rd csr rs1) :=
  (fields_iTypeWord _ _ _ _).2.2.2.2
theorem csrrwi (rd : RegNum) (csr : CsrNum) (uimm : Uimm) : Statement (.csrrwi rd csr uimm) :=
  (fields_iTypeWord _ _ _ _).2.2.2.2
theorem csrrsi (rd : RegNum) (csr : CsrNum) (uimm : Uimm) : Statement (.csrrsi rd csr uimm) :=
  (fields_iTypeWord _ _ _ _).2.2.2.2
theorem csrrci (rd : RegNum) (csr : CsrNum) (uimm : Uimm) : Statement (.csrrci rd csr uimm) :=
  (fields_iTypeWord _ _ _ _).2.2.2.2
theorem sfenceVma (rs1 rs2 : RegNum) : Statement (.sfenceVma rs1 rs2) := (fields_rTypeWord _ _).2.2.2.2.2

end Sys2Proof.Laws.SystemOpcode
end

