-- ==== Sys2Proof/Tests/Slice0.lean ====
section
/-! SUPPORT. Tests, with expected values from spec/30_encoding.md and spec/95_test_vectors.md (the vector is named at each),
and for every statement with hypotheses a concrete state and operands that meet them. -/

namespace Sys2Proof.Tests

open Sys2Proof.Machine Sys2Proof.Claims

/-! Helpers -/

/-- Settings of 16 entries: the given (byte, address) pairs, the rest OFF. -/
def settings (l : List (Nat × Nat)) : Settings :=
  l.map (fun e => { cfg := BitVec.ofNat 8 e.1, addr := BitVec.ofNat 64 e.2 })
    ++ List.replicate (16 - l.length) { cfg := 0#8, addr := 0#64 }

/-- The reset state with other settings, recorded alone. -/
def withPmp (l : List (Nat × Nat)) : State := { State.reset with pmp := settings l, stale := [settings l] }

/-- A state with one register set. -/
def reg (r v : Nat) (s : State) : State := writeReg s (BitVec.ofNat 5 r) (BitVec.ofNat 64 v)

/-- A state in another mode. -/
def inMode (p : Priv) (s : State) : State := { s with hart := { s.hart with priv := p } }

/-- A state with another grain. -/
def grained (g : Nat) (s : State) : State := { s with params := { s.params with grain := g } }

/-- The same machine at MXLEN = 64. -/
def wide (s : State) : State := { s with mxlen := .rv64 }

/-- A state with one operation of the environment pending. -/
def asked (op : EnvOp) (s : State) : State := { s with pending := [op] }

/-- The state after a step, when there is one. -/
def after (s : State) : Option State :=
  match step s with
  | .next t => some t
  | _ => none

/-- What the step of a word, placed at the pc, leaves. -/
def ran (w : Nat) (s : State) : Option State := after (s.withFetchWord 32 w)

/-- What the meaning of an instruction leaves. -/
def did (i : Instr) (s : State) : Option State :=
  match exec i s with
  | .next t => some t
  | _ => none

/-- Why a step is refused, when it is. -/
def refusal (s : State) : Option Refusal :=
  match step s with
  | .refused r => some r
  | _ => none

/-- The reset state with every entry OFF and these settings in `stale`. -/
def withStale (l : List Settings) : State := { withPmp [] with stale := l }

/-- A reference that is one access. -/
def single (cls : RefClass) (y n : Nat) (data : List Byte) : Reference :=
  { cls := cls, y := y, n := n, data := data, parts := [(n, true)], misaligned := false }

/-- What `ran` leaves, seen through a view; none when the step stops. -/
def sees {α : Type} (f : State → α) (o : Option State) : Option α := o.map f

/-- A step that is seen to answer a next state answers one. -/
theorem next_of_after {s : State} (h : (after s).isSome = true) : ∃ t, step s = .next t := by
  unfold after at h
  split at h
  · exact ⟨_, ‹_›⟩
  · simp at h

/-- Scenario B of 95_test_vectors.md section 2.6. -/
def scenarioB : List (Nat × Nat) := [(0x18, 0x200005FF), (0x1F, 0x20001FFF), (0x89, 0x24000000)]

/-- Scenario A of 95_test_vectors.md section 2.6. -/
def scenarioA : List (Nat × Nat) := [(0x17, 3)]

/-! Well-formedness: each form with a CSR number outside the PMP's, which the check refuses (R89) -/

theorem test_wf_csrrw : Instr.wellFormed (.csrrw 0#5 0x300#12 0#5) = false := by decide
theorem test_wf_csrrs : Instr.wellFormed (.csrrs 0#5 0x39F#12 0#5) = false := by decide
theorem test_wf_csrrc : Instr.wellFormed (.csrrc 0#5 0x3F0#12 0#5) = false := by decide
theorem test_wf_csrrwi : Instr.wellFormed (.csrrwi 0#5 0x000#12 0#5) = false := by decide
theorem test_wf_csrrsi : Instr.wellFormed (.csrrsi 0#5 0xFFF#12 0#5) = false := by decide
theorem test_wf_csrrci : Instr.wellFormed (.csrrci 0#5 0x341#12 0#5) = false := by decide
theorem test_wf_edges :
    Instr.wellFormed (.csrrw 0#5 0x3A0#12 0#5) = true ∧ Instr.wellFormed (.csrrw 0#5 0x3EF#12 0#5) = true ∧
      Instr.wellFormed (.sfenceVma 3#5 4#5) = true := by decide

/-! Decoding: words written out from R85 to R88 and from 95_test_vectors.md sections 2.4 and 2.9 -/

/-- csr 0x3A0, rs1 00101, funct3 001, rd 01010, opcode 1110011 (I1). -/
theorem test_decode_csrrw :
    decodeTableWord 32 0b00111010000000101001010101110011 = some (.csrrw 10#5 0x3A0#12 5#5) := by decide
/-- csr 0x3B0, rs1 00000, funct3 010, rd 01010, opcode 1110011. -/
theorem test_decode_csrrs :
    decodeTableWord 32 0b00111011000000000010010101110011 = some (.csrrs 10#5 0x3B0#12 0#5) := by decide
/-- csr 0x3A0, rs1 00110, funct3 011, rd 00000, opcode 1110011 (I3). -/
theorem test_decode_csrrc :
    decodeTableWord 32 0b00111010000000110011000001110011 = some (.csrrc 0#5 0x3A0#12 6#5) := by decide
/-- csr 0x3B0, uimm 11111, funct3 101, rd 00000, opcode 1110011 (I9). -/
theorem test_decode_csrrwi :
    decodeTableWord 32 0b00111011000011111101000001110011 = some (.csrrwi 0#5 0x3B0#12 31#5) := by decide
/-- csr 0x3A0, uimm 00001, funct3 110, rd 00000, opcode 1110011 (I5). -/
theorem test_decode_csrrsi :
    decodeTableWord 32 0b00111010000000001110000001110011 = some (.csrrsi 0#5 0x3A0#12 1#5) := by decide
/-- csr 0x3A0, uimm 11000, funct3 111, rd 00000, opcode 1110011 (I6). -/
theorem test_decode_csrrci :
    decodeTableWord 32 0b00111010000011000111000001110011 = some (.csrrci 0#5 0x3A0#12 24#5) := by decide
/-- funct7 0001001, rs2 01011, rs1 01010, funct3 000, rd 00000, opcode 1110011 (R88). -/
theorem test_decode_sfenceVma :
    decodeTableWord 32 0b00010010101101010000000001110011 = some (.sfenceVma 10#5 11#5) := by decide

/-- Words of no row: funct3 = 100 (section 2.9), ECALL, ADDI, and SFENCE.VMA with rd = x1 (R87). -/
theorem test_decode_rejects :
    decodeTableWord 32 0x3A004073 = none ∧ decodeTableWord 32 0x00000073 = none ∧
      decodeTableWord 32 0x00000013 = none ∧ decodeTableWord 32 0x120000F3 = none := by decide

/-- `DecodePmpCsr` at the ends of its ranges (R92, section 2.9). -/
theorem test_csr_numbers :
    decodePmpCsr .rv32 resetParams 0x39F#12 = .notPmp ∧ decodePmpCsr .rv32 resetParams 0x3A0#12 = .cfg 0 ∧
      decodePmpCsr .rv32 { resetParams with entryCount := .sixtyFour } 0x3AF#12 = .cfg 15 ∧
      decodePmpCsr .rv64 { resetParams with entryCount := .sixtyFour } 0x3AF#12 = .noSuchCsr ∧
      decodePmpCsr .rv32 resetParams 0x3B0#12 = .addr 0 ∧ decodePmpCsr .rv32 resetParams 0x3EF#12 = .noSuchCsr ∧
      decodePmpCsr .rv32 { resetParams with entryCount := .sixtyFour } 0x3EF#12 = .addr 63 ∧
      decodePmpCsr .rv32 resetParams 0x3F0#12 = .notPmp := by decide

/-! One step of each instruction (section 2.4) -/

/-- I1. -/
theorem test_csrrw :
    sees (fun t => (readReg t 10#5, cfgAt t.pmp 0, t.hart.pc)) (ran 0x3A029573 (reg 5 0x1F (withPmp [])))
      = some (0#64, 0x1F#8, 4#64) := by decide
/-- I8: the destination is the source. -/
theorem test_csrrw_same_register :
    sees (fun t => (readReg t 5#5, addrAt t.pmp 0)) (ran 0x3B0292F3 (reg 5 0x100 (withPmp [(0, 0x200)])))
      = some (0x200#64, 0x100#64) := by decide
/-- I2. -/
theorem test_csrrs :
    sees (fun t => (readReg t 0#5, cfgAt t.pmp 0)) (ran 0x3A032073 (reg 6 0x80 (withPmp [(0x1B, 0)])))
      = some (0#64, 0x9B#8) := by decide
/-- I11: the write-back stores the read view. -/
theorem test_csrrs_stores_view :
    sees (fun t => (readReg t 10#5, addrAt t.pmp 0)) (ran 0x3B032573 (grained 2 (withPmp [(0x08, 0x1236)])))
      = some (0x1234#64, 0x1234#64) := by decide
/-- I3. -/
theorem test_csrrc :
    sees (fun t => cfgAt t.pmp 0) (ran 0x3A033073 (reg 6 6 (withPmp [(0x1F, 0)]))) = some 0x19#8 := by decide
/-- I10: a locked entry cannot be unlocked. -/
theorem test_csrrc_locked :
    sees (fun t => (readReg t 10#5, cfgAt t.pmp 0)) (ran 0x3A033573 (reg 6 0x80 (withPmp [(0x9F, 0)])))
      = some (0x9F#64, 0x9F#8) := by decide
/-- I4. -/
theorem test_csrrwi :
    sees (fun t => [cfgAt t.pmp 0, cfgAt t.pmp 1, cfgAt t.pmp 2, cfgAt t.pmp 3])
        (ran 0x3A005073 (withPmp [(0x1F, 0), (0x0B, 0), (0x89, 0), (0x18, 0)]))
      = some [0#8, 0#8, 0x89#8, 0#8] := by decide
/-- I9. -/
theorem test_csrrwi_address :
    sees (fun t => addrAt t.pmp 0) (ran 0x3B0FD073 (withPmp [])) = some 0x1F#64 := by decide
/-- I5. -/
theorem test_csrrsi :
    sees (fun t => cfgAt t.pmp 0) (ran 0x3A00E073 (withPmp [(0x18, 0)])) = some 0x19#8 := by decide
/-- I6. -/
theorem test_csrrci :
    sees (fun t => cfgAt t.pmp 0) (ran 0x3A0C7073 (withPmp [(0x1F, 0)])) = some 0x07#8 := by decide
/-- Section 2.7, steps 4 and 5: only the x0, x0 form empties `stale`. -/
theorem test_sfenceVma :
    sees (fun t => t.stale.length) (did (.sfenceVma 10#5 11#5) (withStale [settings [(0x1B, 0)], settings []])) = some 2 ∧
      sees (fun t => t.stale) (did (.sfenceVma 0#5 0#5) (withStale [settings [(0x1B, 0)], settings []]))
        = some [settings []] := by decide
/-- Program P6: from U-mode the fence is illegal. -/
theorem test_sfenceVma_user :
    sees (fun t => t.raised) (ran 0x12000073 (inMode .U (withPmp [(0x1F, 0x7FFFFFFF)])))
      = some (some .illegalInstruction) := by decide

/-! The PMP CSRs -/

/-- I13, I14, I15, I16: what raises illegal-instruction, and that nothing is written. -/
theorem test_csr_illegal :
    sees (fun t => (t.raised, readReg t 11#5, t.hart.pc)) (ran 0x3A1025F3 (reg 11 7 (wide (withPmp []))))
        = some (some .illegalInstruction, 7#64, 0#64) ∧
      sees (fun t => t.raised) (ran 0x3B002573 (inMode .S (withPmp [(0x1F, 0x7FFFFFFF)])))
        = some (some .illegalInstruction) ∧
      sees (fun t => (t.raised, cfgAt t.pmp 0)) (ran 0x3A029073 (inMode .U (withPmp [(0x1F, 0x7FFFFFFF)])))
        = some (some .illegalInstruction, 0x1F#8) ∧
      sees (fun t => t.raised) (ran 0x3C002573 (withPmp [])) = some (some .illegalInstruction) := by decide

/-- R7, R97, R105: the environment's `CsrWrite` is in the mode the hart is in; entry 0 is unlocked (W8's CSR). -/
theorem test_csr_environment_mode :
    sees (fun t => (t.reply, t.raised, cfgAt t.pmp 0)) (after (asked (.csrWrite 0x3A0#12 0x1B#64) (inMode .U (withPmp []))))
        = some (.raised .illegalInstruction, some .illegalInstruction, 0#8) ∧
      sees (fun t => (t.reply, t.raised, cfgAt t.pmp 0)) (after (asked (.csrWrite 0x3A0#12 0x1B#64) (withPmp [])))
        = some (.done, none, 0x1B#8) := by decide

/-- Another CSR of the hart is refused, not treated as illegal (R89, section 2.9). -/
theorem test_csr_other_refused :
    refusal (State.reset.withFetchWord 32 0x30002573) = some (.notPmpCsr 0x300#12) := by decide

/-- S1, S2: packing at both widths. -/
theorem test_csr_packing :
    cfgCsrValue .rv64 (settings [(0, 0), (0, 0), (0, 0), (0, 0), (0x1F, 0)]) 0 = 0x0000001F00000000#64 ∧
      cfgCsrValue .rv32 (settings [(0, 0), (0, 0), (0, 0), (0, 0), (0x1F, 0)]) 0 = 0#64 ∧
      cfgCsrValue .rv32 (settings [(0, 0), (0, 0), (0, 0), (0, 0), (0x1F, 0)]) 1 = 0x1F#64 ∧
      cfgCsrValue .rv32 (settings [(0x18, 0), (0x1F, 0), (0x89, 0)]) 0 = 0x00891F18#64 := by decide

/-- W8 and W10: locked bytes ignore a write, the others take it, bits 6:5 are dropped. -/
theorem test_csr_locks :
    (writeCfgCsr .rv32 resetParams (settings scenarioB) 0 0x00099F98#64).take 4
        = (settings [(0x98, 0x200005FF), (0x9F, 0x20001FFF), (0x89, 0x24000000), (0, 0)]).take 4 ∧
      cfgAt (writeCfgCsr .rv32 resetParams (settings []) 0 0xFF000000#64) 3 = 0x9F#8 := by decide

/-- W5, W6, W7: writes of addresses below locks. -/
theorem test_addr_locks :
    writeAddr .rv32 resetParams (settings scenarioB) 2 0xFFFFFFFF#64 = settings scenarioB ∧
      writeAddr .rv32 resetParams (settings scenarioB) 1 0xFFFFFFFF#64 = settings scenarioB ∧
      addrAt (writeAddr .rv32 resetParams (settings scenarioB) 3 0x1000#64) 3 = 0x1000#64 := by decide

/-- S7 and section 2.2: the read view by grain and mode. -/
theorem test_read_view :
    addrRead 2 (settings [(0x00, 0x1236)]) 0 = 0x1234#64 ∧ addrRead 2 (settings [(0x19, 0x1236)]) 0 = 0x1237#64 ∧
      addrRead 1 (settings [(0x08, 0xFFFFFFFF)]) 0 = 0xFFFFFFFE#64 ∧
      addrRead 10 (settings [(0x18, 0x1234)]) 0 = 0x13FF#64 ∧
      addrRead 0 (settings [(0x17, 0x12345678)]) 0 = 0x12345678#64 := by decide

/-! Matching and the check -/

/-- S5 and section 2.5: NAPOT regions. -/
theorem test_napot_regions :
    regionOf 0 (settings [(0x18, 0x123B)]) 0 = (0x48E0, 0x4900) ∧
      regionOf 0 (settings [(0x18, 0x5FFFFFFF)]) 0 = (0x100000000, 0x200000000) ∧
      regionOf 0 (settings [(0x18, 0xFFFFFFFF)]) 0 = (0, 0x800000000) ∧
      regionOf 2 (settings [(0x18, 0x1236)]) 0 = (0x48C0, 0x4900) := by decide

/-- Section 2.5: TOR, with a grain, empty, and for entry 0; NA4. -/
theorem test_tor_na4_regions :
    regionOf 2 (settings [(0, 0x401), (0x08, 0x407)]) 1 = (0x1000, 0x1010) ∧
      matchByte 0 (settings [(0, 0x401), (0x08, 0x400)]) 1 0x1000 = false ∧
      matchByte 0 (settings [(0x08, 0x400)]) 0 0xFFF = true ∧ matchByte 0 (settings [(0x08, 0x400)]) 0 0x1000 = false ∧
      matchByte 0 (settings scenarioA) 0 0xF = true ∧ matchByte 0 (settings scenarioA) 0 0x10 = false := by decide

/-- A1, A3, A4, A8, A10, A11. -/
theorem test_check_A :
    pmpCheck resetParams (settings scenarioA) 0x8 8 .read .U = false ∧
      pmpCheck resetParams (settings scenarioA) 0x8 8 .read .M = false ∧
      pmpCheck resetParams (settings scenarioA) 0xC 4 .read .U = true ∧
      pmpCheck resetParams (settings scenarioA) 0xE 4 .read .U = false ∧
      pmpCheck resetParams (settings scenarioA) 0x8 4 .read .U = false ∧
      pmpCheck resetParams (settings scenarioA) 0x8 4 .read .M = true := by decide

/-- B2, B4, B5, B8, B14, B16, B18, B20, B21, B25. -/
theorem test_check_B :
    pmpCheck resetParams (settings scenarioB) 0x80000000 4 .exec .U = true ∧
      pmpCheck resetParams (settings scenarioB) 0x80001000 4 .read .S = false ∧
      pmpCheck resetParams (settings scenarioB) 0x80001000 4 .read .M = true ∧
      pmpCheck resetParams (settings scenarioB) 0x80000FFE 4 .write .U = false ∧
      pmpCheck resetParams (settings scenarioB) 0x8000FFFC 8 .read .U = false ∧
      pmpCheck resetParams (settings scenarioB) 0x8000FFFC 4 .read .U = true ∧
      pmpCheck resetParams (settings scenarioB) 0x80010000 4 .write .U = false ∧
      pmpCheck resetParams (settings scenarioB) 0x80010000 4 .read .M = true ∧
      pmpCheck resetParams (settings scenarioB) 0x80010000 4 .write .M = false ∧
      pmpCheck resetParams (settings scenarioB) 0x8FFFFFFE 4 .read .M = false := by decide

/-- E2, E8 as environment operations: the fault of a load under MPRV, and of a store-conditional. -/
theorem test_access_faults :
    sees (fun t => t.reply) (after (asked (.reference (single .load 0x80001000 4 []))
        { withPmp scenarioB with hart := { resetHart with mprv := true } })) = some (.raised .loadAccessFault) ∧
      sees (fun t => t.reply) (after (asked (.reference (single .storeConditional 0x80010000 4 [1#8, 2#8, 3#8, 4#8]))
        (inMode .U (withPmp scenarioB)))) = some (.raised .storeAccessFault) := by decide

/-- E11, as 2 + 2 bytes: both parts pass, and the bytes land. -/
theorem test_store_in_parts :
    sees (fun t => (t.reply, readByte t.mem 0x80000FFE, readByte t.mem 0x80001001))
        (after (asked
          (.reference { single .store 0x80000FFE 4 [1#8, 2#8, 3#8, 4#8] with parts := [(2, true), (2, true)] })
          (withPmp scenarioB)))
      = some (.done, some 1#8, some 4#8) := by decide

/-- R70, D25, at the addresses of B10 and E8: a store-conditional presented without data is checked and stores nothing; a
store without data is refused. -/
theorem test_store_conditional_without_data :
    sees (fun t => (t.reply, t.mem))
        (after (asked (.reference (single .storeConditional 0x80000FFC 4 [])) (inMode .U (withPmp scenarioB))))
      = some (.done, []) ∧
    sees (fun t => t.reply)
        (after (asked (.reference (single .storeConditional 0x80010000 4 [])) (inMode .U (withPmp scenarioB))))
      = some (.raised .storeAccessFault) ∧
    refusal (asked (.reference (single .store 0x80000FFC 4 [])) (inMode .U (withPmp scenarioB)))
      = some .dataSizeMismatch := by decide

/-- R157: what `Decompose` does not admit is refused: parts that do not make up the reference, and parts on a hart that
never splits. -/
theorem test_parts_not_admitted :
    refusal (asked (.reference { single .load 0x80000000 4 [] with parts := [(2, true), (1, true)] }) State.reset)
      = some .notADecomposition ∧
    refusal (asked (.reference { single .load 0x80000000 4 [] with parts := [(2, true), (2, true)] })
        { State.reset with params := { resetParams with dataSplit := .whole } }) = some .notADecomposition := by decide

/-- R49: the fetch at the pc is denied where the PMA checks deny it, although the PMP passes it. -/
theorem test_fetch_denied_by_pma :
    sees (fun t => t.raised) (after { (State.reset.withFetchWord 32 0x3A005073) with pmaNoFetch := [(0, 4)] })
        = some (some .instructionAccessFault) ∧
      sees (fun t => t.raised) (after { (State.reset.withFetchWord 32 0x3A005073) with pmaNoFetch := [(4, 4)] })
        = some none := by decide

/-! Reset -/

/-- R178. -/
theorem test_exception_codes :
    exceptionCode .instructionAccessFault = 1 ∧ exceptionCode .illegalInstruction = 2 ∧
      exceptionCode .loadAccessFault = 5 ∧ exceptionCode .storeAccessFault = 7 := by decide

/-- The state of reset is what `Reset()` leaves with every draw zero. -/
theorem test_reset_settings : resetSettings = resetEntries .rv32 resetParams [] := by decide

/-- Section 2.8: a locked entry is unlocked and OFF, its permissions and address drawn. -/
theorem test_reset_unlocks :
    (resetUnit (withPmp [(0x9F, 0x200005FF)]) [{ rwx := 0b101#3, addr := 0x400#64 }] resetHart).pmp.take 2
      = [{ cfg := 0x05#8, addr := 0x400#64 }, { cfg := 0#8, addr := 0#64 }] := by decide

/-! Witnesses: for every statement that has hypotheses, a state and operands that meet them, and one for each clause. -/

/-- I1's state with its word at the pc. -/
def ready : State := (reg 5 0x1F (withPmp [])).withFetchWord 32 0x3A029573

/-- A U-mode hart with every entry OFF, and a word at its pc. -/
def denied : State := inMode .U ready

theorem witness_EncodeOfDecodeIsIdentity : decodeWord 0x3A029573#32 = .ok (.csrrw 10#5 0x3A0#12 5#5) := rfl

theorem witness_StepRunsTheDecodedInstruction :
    (ready.pending = [] ∧ ready.raised = none ∧ FetchPresentable ready ∧ fetchPageFaults ready = false ∧
      FetchPasses ready ∧
      readByte ready.mem (fetchAddress ready) = some 0x73#8 ∧ readByte ready.mem (fetchAddress ready + 1) = some 0x95#8 ∧
      readByte ready.mem (fetchAddress ready + 2) = some 0x02#8 ∧
      readByte ready.mem (fetchAddress ready + 3) = some 0x3A#8) ∧
    decode [0x73#8, 0x95#8, 0x02#8, 0x3A#8] = .ok (.csrrw 10#5 0x3A0#12 5#5, []) := ⟨by decide, rfl⟩

/-- An S-mode hart at virtual 0x1000, its page at physical 0x5000: the page-table entry at 0x2000 is read, then updated. -/
def paged (l : List (Nat × Nat)) (word : Nat) : State :=
  { inMode .S (withPmp l) with
    hart := { resetHart with priv := .S, pc := 0x1000#64 }
    translations :=
      [{ virtual := 0x1000
         size := 0x1000
         physical := some 0x5000
         walk :=
          [{ update := false, y := 0x2000, n := 4, data := [], pmaOk := true },
            { update := true, y := 0x2000, n := 4, data := [0x4F#8, 0x14#8, 0#8, 0#8], pmaOk := true }] }] }.withFetchWord
    32 word

/-- Everything granted; the page-table entry read only; nothing granted there. -/
def allGranted : List (Nat × Nat) := [(0x1F, 0xFFFFFFFF)]
def tableReadOnly : List (Nat × Nat) := [(0x11, 0x800), (0x1F, 0xFFFFFFFF)]
def tableClosed : List (Nat × Nat) := [(0x10, 0x800), (0x1F, 0xFFFFFFFF)]

/-- The same hart where translation ends in a page-fault. -/
def unmapped (l : List (Nat × Nat)) : State :=
  { paged l 0x12B50073 with translations := (paged l 0x12B50073).translations.map fun t => { t with physical := none } }

/-- R163: a fetch under paging is at the translated address, after the update of the page-table entry. -/
theorem test_fetch_translated :
    sees (fun t => (t.raised, t.hart.pc, readByte t.mem 0x2000)) (after (paged allGranted 0x12B50073))
        = some (none, 0x1004#64, some 0x4F#8) ∧
      sees (fun t => t.raised) (after (paged [(0x10, 0x1400), (0x1F, 0xFFFFFFFF)] 0x12B50073))
        = some (some .instructionAccessFault) := by decide

/-- R54, R155: a page-table access that fails, the read or the update, makes the fetch an instruction access-fault, also
where translation would end in a page-fault. -/
theorem test_fetch_page_table_denied :
    sees (fun t => t.raised) (after (paged tableReadOnly 0x12B50073)) = some (some .instructionAccessFault) ∧
      sees (fun t => t.raised) (after (paged tableClosed 0x12B50073)) = some (some .instructionAccessFault) ∧
      sees (fun t => t.raised) (after (unmapped tableClosed)) = some (some .instructionAccessFault) := by decide

/-- In M-mode and without virtual memory nothing is translated; a translation that covers the pc; two that do. -/
theorem witness_FetchIsTranslatedByItsInput :
    (State.reset.hart.priv = .M ∧ { denied with params := { resetParams with hasVm := false } }.params.hasVm = false ∧
      ∀ t ∈ denied.translations, ¬CoversPc denied t) ∧
    ((paged allGranted 0).translations = [] ++ (paged allGranted 0).translations ∧
      (paged allGranted 0).hart.priv ≠ .M ∧ (paged allGranted 0).params.hasVm = true ∧
      (∀ t ∈ (paged allGranted 0).translations, CoversPc (paged allGranted 0) t ∧ t.physical = some 0x5000) ∧
      ∀ t ∈ (unmapped allGranted).translations, CoversPc (unmapped allGranted) t ∧ t.physical = none) ∧
    (asked (.translations []) State.reset).pending = .translations [] :: [] ∧
    (asked (.pmas [(0, 4)]) State.reset).pending = .pmas [(0, 4)] :: [] := by decide

/-- Without a page-table access and with two. -/
theorem witness_StepRunsTheDecodedInstruction_translated :
    ((paged allGranted 0x12B50073).pending = [] ∧ (paged allGranted 0x12B50073).raised = none ∧
      FetchPresentable (paged allGranted 0x12B50073) ∧ fetchPageFaults (paged allGranted 0x12B50073) = false ∧
      FetchPasses (paged allGranted 0x12B50073) ∧ (fetchWalk (paged allGranted 0x12B50073)).length = 2 ∧
      fetchAddress (paged allGranted 0x12B50073) = 0x5000 ∧
      readByte (paged allGranted 0x12B50073).mem 0x5000 = some 0x73#8) ∧ fetchWalk ready = [] := by decide

/-- Denied by the PMP; by the PMA checks, in the last byte of the word; by a page-table access. -/
theorem witness_DeniedFetchRaisesInstructionAccessFault :
    (denied.pending = [] ∧ denied.raised = none ∧ FetchPresentable denied ∧ ¬FetchPasses denied) ∧
      ¬FetchPasses { ready with pmaNoFetch := [(3, 1)] } ∧ FetchPasses { ready with pmaNoFetch := [(4, 1), (2, 0)] } ∧
      (FetchPresentable (paged tableReadOnly 0) ∧ ¬FetchPasses (paged tableReadOnly 0) ∧
        WalkPasses (paged tableReadOnly 0) 0 ((fetchWalk (paged tableReadOnly 0))[0]'(by decide))) :=
  ⟨by decide, by decide, by decide, by decide, by decide, by decide⟩

/-- ADDI x0, x0, 0 at the pc: a word of no row. -/
def foreign : State := (withPmp []).withFetchWord 32 0x00000013

theorem witness_WordOutsideTheTableIsRefused :
    (foreign.pending = [] ∧ foreign.raised = none ∧ FetchPresentable foreign ∧ fetchPageFaults foreign = false ∧
      FetchPasses foreign ∧
      readByte foreign.mem (fetchAddress foreign) = some 0x13#8 ∧
      readByte foreign.mem (fetchAddress foreign + 1) = some 0#8 ∧
      readByte foreign.mem (fetchAddress foreign + 2) = some 0#8 ∧
      readByte foreign.mem (fetchAddress foreign + 3) = some 0#8) ∧
    ∀ r ∈ opcodeTable, rowCovers r (wordOfBytes 0x13#8 0#8 0#8 0#8) = false := by decide

theorem witness_StepOrderOfOperationsAndExceptions :
    (asked .sfenceVmaAll State.reset).pending = .sfenceVmaAll :: [] ∧
      (State.reset.pending = [] ∧
        { State.reset with raised := some .illegalInstruction }.raised = some Exception.illegalInstruction) ∧
      ((unmapped allGranted).pending = [] ∧ (unmapped allGranted).raised = none ∧
        FetchPresentable (unmapped allGranted) ∧ FetchPasses (unmapped allGranted) ∧
        fetchPageFaults (unmapped allGranted) = true) := by decide

/-- Both kinds of PMP CSR exist in M-mode; a number without a register; a number of another CSR; a lower mode; both kinds of
rd and rs1. -/
theorem witness_CsrInstruction :
    (State.reset.hart.priv = .M ∧ CsrExists State.reset 0x3A0#12 ∧ CsrExists State.reset 0x3BF#12) ∧
      decodePmpCsr State.reset.mxlen State.reset.params 0x39F#12 = .notPmp ∧
      decodePmpCsr State.reset.mxlen State.reset.params 0x3F0#12 = .notPmp ∧
      decodePmpCsr State.reset.mxlen State.reset.params 0x3C0#12 = .noSuchCsr ∧
      (CsrExists denied 0x3A0#12 ∧ denied.hart.priv ≠ .M) ∧ (1#5 : RegNum) ≠ 0#5 :=
  ⟨⟨by decide, .inl ⟨0, by decide⟩, .inr ⟨15, by decide⟩⟩, by decide, by decide, by decide,
    ⟨.inl ⟨0, by decide⟩, by decide⟩, by decide⟩

theorem witness_CsrrwWritesRegisterAndReturnsOldView : State.reset.hart.priv = .M ∧ CsrExists State.reset 0x3A0#12 :=
  ⟨by decide, .inl ⟨0, by decide⟩⟩
theorem witness_CsrrsReadsAndSetsBits : State.reset.hart.priv = .M ∧ CsrExists State.reset 0x3A3#12 :=
  ⟨by decide, .inl ⟨3, by decide⟩⟩
theorem witness_CsrrcReadsAndClearsBits : State.reset.hart.priv = .M ∧ CsrExists State.reset 0x3B0#12 :=
  ⟨by decide, .inr ⟨0, by decide⟩⟩
theorem witness_CsrrwiWritesImmediateAndReturnsOldView :
    State.reset.hart.priv = .M ∧ CsrExists State.reset 0x3BF#12 := ⟨by decide, .inr ⟨15, by decide⟩⟩
theorem witness_CsrrsiReadsAndSetsImmediateBits : State.reset.hart.priv = .M ∧ CsrExists State.reset 0x3A1#12 :=
  ⟨by decide, .inl ⟨1, by decide⟩⟩
theorem witness_CsrrciReadsAndClearsImmediateBits : State.reset.hart.priv = .M ∧ CsrExists State.reset 0x3B1#12 :=
  ⟨by decide, .inr ⟨1, by decide⟩⟩

/-- The clauses of `Stored` and `AddrFrozen`: an unlocked and a locked byte of one CSR; an address register that is written,
one frozen by its own lock, one by the TOR entry above. -/
theorem witness_Stored :
    (decodePmpCsr .rv32 resetParams 0x3A0#12 = .cfg (cfgCsrOf .rv32 1) ∧ cfgL (cfgAt (settings scenarioB) 1) = false) ∧
      (decodePmpCsr .rv32 resetParams 0x3A0#12 = .cfg (cfgCsrOf .rv32 2) ∧ cfgL (cfgAt (settings scenarioB) 2) = true) ∧
      (decodePmpCsr .rv32 resetParams 0x3B0#12 = .addr 0 ∧ addrLocked resetParams (settings scenarioB) 0 = false) ∧
      (decodePmpCsr .rv32 resetParams 0x3B1#12 = .addr 1 ∧ cfgL (cfgAt (settings scenarioB) 1) = false ∧
        1 + 1 < entryTotal resetParams ∧ cfgL (cfgAt (settings scenarioB) (1 + 1)) = true ∧
        cfgMode (cfgAt (settings scenarioB) (1 + 1)) = .tor) := by decide

theorem witness_SfenceVmaEmptiesStale :
    (inMode .U State.reset).hart.priv = .U ∧
      ((inMode .S { State.reset with hart := { resetHart with tvm := true } }).hart.priv = .S ∧
        (inMode .S { State.reset with hart := { resetHart with tvm := true } }).hart.tvm = true) ∧
      State.reset.hart.priv = .M ∧
      ((inMode .S State.reset).hart.priv = .S ∧ (inMode .S State.reset).hart.tvm = false) ∧
      ((0#5 : RegNum) = 0#5 ∧ (0#5 : RegNum) = 0#5) ∧ ¬((0#5 : RegNum) = 0#5 ∧ (31#5 : RegNum) = 0#5) := by decide

theorem witness_RegisterFileHardwiresX0 : (31#5 : RegNum) ≠ 0#5 ∧ (0#5 : RegNum) ≠ 31#5 := by decide

theorem witness_CsrNumbersNameTheRegisters :
    (0 < 16 ∧ 4 * 0 < entryTotal resetParams) ∧ (15 < 16 ∧ ¬4 * 15 < entryTotal resetParams) ∧
      (63 < 64 ∧ ¬63 < entryTotal resetParams) ∧ (0x39F#12 : CsrNum).toNat < 0x3A0 ∧
      0x3EF < (0x3F0#12 : CsrNum).toNat := by decide

theorem witness_AddressReadViewBitByBit :
    (cfgA1 (cfgAt (settings [(0x18, 0)]) 0) = true ∧ 0 + 1 < 2) ∧
      (cfgA1 (cfgAt (settings [(0x18, 0)]) 0) = true ∧ ¬1 + 1 < 2 ∧ 63 < 64) ∧
      (cfgA1 (cfgAt (settings [(0x08, 0)]) 0) = false ∧ 1 < 2) ∧
      (cfgA1 (cfgAt (settings [(0x08, 0)]) 0) = false ∧ ¬2 < 2) := by decide

theorem witness_LockedConfigurationByteIgnoresWrites :
    ((2 < (withPmp scenarioB).pmp.length ∧ 2 < entryTotal resetParams ∧ cfgL (cfgAt (settings scenarioB) 2) = true) ∧
      (15 < (withPmp scenarioB).pmp.length ∧ 15 < entryTotal resetParams ∧
        cfgL (cfgAt (settings scenarioB) 15) = false ∧ (entryParams resetParams 15).hardwired = none ∧
        cfgLegal resetParams.grain
          ((0x9F000000#64 : Word).extractLsb' (8 * cfgByteOf .rv32 15) 8 &&& wmaskOf resetParams 15) = true)) ∧
      CsrExists (withPmp scenarioB) 0x3A0#12 := ⟨by decide, .inl ⟨0, by decide⟩⟩

theorem witness_AddressRegisterIsFrozenByLocks :
    (0 < (withPmp scenarioB).pmp.length ∧ 0 < entryTotal resetParams) ∧ AddrFrozen (withPmp scenarioB) 2 ∧
      AddrFrozen (withPmp scenarioB) 1 ∧ ¬AddrFrozen (withPmp scenarioB) 0 ∧ ¬AddrFrozen (withPmp scenarioB) 15 := by
  refine ⟨by decide, .inl (by decide), .inr (by decide), ?_, ?_⟩ <;> rintro (h | h) <;> revert h <;> decide

theorem witness_LegalCfgStoresLegalBytes :
    (entryParams resetParams 0).hardwired = none ∧ 1 ≤ { resetParams with grain := 1 }.grain ∧
      (¬(cfgR (0x17#8 &&& wmaskOf resetParams 0) = false ∧ cfgW (0x17#8 &&& wmaskOf resetParams 0) = true) ∧
        ¬1 ≤ resetParams.grain) ∧
      (cfgA (0x1F#8 &&& wmaskOf resetParams 0) ≠ 2#2) := by decide

theorem witness_LegalAddrStoresRepresentableAddresses :
    (entryParams resetParams 15).hardwired = none ∧ 0xFFFFFFFF#64 &&& ~~~(addrMaskOf .rv32 resetParams 15) = 0#64 ∧
      resetParams.addrRule = .masked := by decide

/-- Section 2.8: entry 15 hardwired. -/
def hardwiredParams : Config :=
  { resetParams with
    entries := List.replicate 15 fullEntryParams
      ++ [{ wmask := 0#8, addrMask := 0#64, hardwired := some { cfg := 0x98#8, addr := 0x5FF#64 } }] }

/-- A machine with entry 15 hardwired, I9's word at the pc. -/
def hardwiredState : State :=
  { (withPmp []).withFetchWord 32 0x3B0FD073 with
    params := hardwiredParams
    pmp := resetEntries .rv32 hardwiredParams []
    stale := [resetEntries .rv32 hardwiredParams []] }

theorem hardwiredState_inv : State.Inv hardwiredState := by decide

theorem witness_HardwiredEntryIsConstant :
    State.Inv hardwiredState ∧ 15 < entryTotal hardwiredState.params ∧
      (entryParams hardwiredState.params 15).hardwired = some { cfg := 0x98#8, addr := 0x5FF#64 } ∧
      (∃ t, step hardwiredState = .next t) ∧ resetIsNext hardwiredState = false ∧
      mxlenChangeIsNext hardwiredState = false :=
  ⟨hardwiredState_inv, by decide, by decide, next_of_after (by decide), by decide, by decide⟩

theorem witness_MachineModeCsrWriteNeverRaises : CsrExists State.reset 0x3A3#12 ∧ CsrExists State.reset 0x3BF#12 :=
  ⟨.inl ⟨3, by decide⟩, .inr ⟨15, by decide⟩⟩

theorem witness_MatchIsOneInterval : cfgA (cfgAt (settings [(0x87, 1)]) 0) = 0#2 := by decide

theorem witness_TorMatchesTheRangeBelowItsTop :
    cfgA (cfgAt (settings [(0, 0x401), (0x08, 0x407)]) (0 + 1)) = 1#2 ∧ cfgA (cfgAt (settings [(0x08, 0x400)]) 0) = 1#2 := by
  decide

theorem witness_TorRangeIsEmptyWhenBottomReachesTop :
    cfgA (cfgAt (settings [(0, 0x401), (0x08, 0x400)]) 1) = 1#2 ∧ cfgA (cfgAt (settings [(0x08, 0)]) 0) = 1#2 := by decide

theorem witness_TorIgnoresLowBitsAndNeighbourConfiguration :
    cfgA (cfgAt (settings [(0x00, 0x401), (0x08, 0x407)]) 1) = 1#2 ∧
      cfgA (cfgAt (settings [(0x1F, 0x403), (0x08, 0x404)]) 1) = 1#2 ∧
      (addrAt (settings [(0x00, 0x401), (0x08, 0x407)]) 1).toNat / 2 ^ 2
        = (addrAt (settings [(0x1F, 0x403), (0x08, 0x404)]) 1).toNat / 2 ^ 2 ∧
      (addrAt (settings [(0x00, 0x401), (0x08, 0x407)]) (1 - 1)).toNat / 2 ^ 2
        = (addrAt (settings [(0x1F, 0x403), (0x08, 0x404)]) (1 - 1)).toNat / 2 ^ 2 := by decide

theorem witness_Na4MatchesFourBytes :
    cfgA (cfgAt (settings scenarioA) 0) = 2#2 ∧ cfgLegal 0 (cfgAt (settings scenarioA) 0) = true := by decide

/-- No trailing one, and as many as a 54-bit register can hold. -/
theorem witness_NapotMatchesItsAlignedRegion :
    (cfgA (cfgAt (settings [(0x18, 0x400)]) 0) = 3#2 ∧
      (addrRead 0 (settings [(0x18, 0x400)]) 0).toNat % 2 ^ (0 + 1) = 2 ^ 0 - 1) ∧
    (cfgA (cfgAt (settings [(0x18, 0x3FFFFFFFFFFFFF)]) 0) = 3#2 ∧ 54 < 64 ∧
      (addrRead 0 (settings [(0x18, 0x3FFFFFFFFFFFFF)]) 0).toNat % 2 ^ (54 + 1) = 2 ^ 54 - 1) := by decide

theorem witness_NapotRegionIsAtLeastTheGrain :
    cfgA (cfgAt (settings [(0x18, 0x1234)]) 0) = 3#2 ∧ (1 ≤ 2 ∧ (addrAt (settings [(0x18, 0x1234)]) 0).getLsbD (2 - 1) = false) ∧
      (1 < 54 ∧ 1 ≤ 1) ∧ 53 < 54 := by decide

theorem witness_RegionsAreAlignedToTheGrain :
    cfgLegal 0 (cfgAt (settings scenarioA) 0) = true ∧ cfgLegal 53 (cfgAt (settings scenarioB) 1) = true ∧ 53 < 54 := by
  decide

/-- 4096 bytes at 0x80001000 (scenario B), and the smallest region. -/
theorem witness_NapotEncodingNamesItsRegion :
    (cfgA (cfgAt (settings scenarioB) 0) = 3#2 ∧ 0 < 54 ∧ 3 ≤ 12 ∧ 0 + 2 ≤ 12 ∧ 2 ^ 12 ∣ 0x80001000 ∧
      (addrAt (settings scenarioB) 0).toNat = napotEncode 0x80001000 12) ∧
    (cfgA (cfgAt (settings [(0x18, 0x400)]) 0) = 3#2 ∧ 2 ^ 3 ∣ 0x1000 ∧
      (addrAt (settings [(0x18, 0x400)]) 0).toNat = napotEncode 0x1000 3) := by decide

theorem witness_DecidingEntryIsTheLowestThatMatches :
    decidingEntry resetParams (settings scenarioB) 0x8000FFFC 8 = some 1 ∧ cfgA (cfgAt (settings scenarioB) 15) = 0#2 ∧
      decidingEntry resetParams (settings scenarioB) 0x90000000 4 = none := by decide

/-- B8 (partial), B5 (unlocked, M-mode), B20 (locked, M-mode), B1 (a lower mode). -/
theorem witness_DecidingEntryDecidesTheAccess :
    (decidingEntry resetParams (settings scenarioB) 0x80000FFE 4 = some 0 ∧
      (0 < 4 ∧ matchByte 0 (settings scenarioB) 0 (0x80000FFE + 0) = false)) ∧
    (decidingEntry resetParams (settings scenarioB) 0x80001000 4 = some 0 ∧
      (∀ k, k < 4 → matchByte 0 (settings scenarioB) 0 (0x80001000 + k) = true) ∧
      cfgL (cfgAt (settings scenarioB) 0) = false) ∧
    (decidingEntry resetParams (settings scenarioB) 0x80010000 4 = some 2 ∧
      (∀ k, k < 4 → matchByte 0 (settings scenarioB) 2 (0x80010000 + k) = true) ∧
      cfgL (cfgAt (settings scenarioB) 2) = true) ∧ Priv.U ≠ Priv.M := by decide

theorem witness_UnmatchedAccessTakesTheDefault :
    ((∀ i, i < entryTotal resetParams → ∀ k, k < 4 → matchByte resetParams.grain (settings []) i (0 + k) = false) ∧
      Priv.S ≠ Priv.M ∧ resetParams.entryCount ≠ .zero ∧
      { resetParams with entryCount := .zero }.entryCount = EntryCount.zero) ∧
    ∀ i, i < entryTotal resetParams → cfgA (cfgAt (settings [(0x07, 0)]) i) = 0#2 := by decide

theorem witness_PmpCheckEqualsIntervalCheck : 1 ≤ 1 := by decide

theorem witness_UnlockedEntriesBindMachineModeOnlyByPartialMatch :
    ∀ i, i < entryTotal resetParams → cfgL (cfgAt (settings scenarioA) i) = false := by decide

theorem witness_EffectivePrivilegeOfEachClass : RefClass.amo ≠ RefClass.fetch := by decide

theorem witness_AccessTypeAndFaultOfEachClass :
    (RefClass.loadReserved = .load ∨ RefClass.loadReserved = .loadReserved) ∧
      (RefClass.amo = .store ∨ RefClass.amo = .storeConditional ∨ RefClass.amo = .amo) ∧
      (walkAccess ⟨true, 0, 4, [], true⟩).pageTable = some true ∧
      (⟨none, 0x8000FFFC, 4, [], true⟩ : Access).pageTable = none := by decide

theorem witness_CheckUsesAPermittedSettingsValue :
    { State.reset with params := { resetParams with hasVm := false } }.params.hasVm = false ∧
      (withStale [settings [], settings scenarioA]).params.hasVm = true ∧
      (withStale [settings [], settings scenarioA]).stale ≠ [] := by decide

/-- SFENCE.VMA x0, x0 at the pc, in M-mode. -/
def fencing : State := (withPmp []).withFetchWord 32 0x12000073

/-- Each renewing step: the instruction, the environment's fence, a reset; and a step that is none, a change of MXLEN. -/
theorem witness_StaleHoldsEverySettingsSinceTheFence :
    (fencing.params.hasVm = true ∧ fencing.pmp ∈ fencing.stale ∧ (∃ t, step fencing = .next t) ∧
      RenewsSettings fencing) ∧
    ((∃ t, step (asked .sfenceVmaAll (withStale [settings scenarioA, settings []])) = .next t) ∧
      RenewsSettings (asked .sfenceVmaAll (withStale [settings scenarioA, settings []]))) ∧
    ((∃ t, step (asked (.reset [] resetHart) ready) = .next t) ∧ RenewsSettings (asked (.reset [] resetHart) ready)) ∧
    (ready.params.hasVm = true ∧ ready.pmp ∈ ready.stale ∧ (∃ t, step (asked (.setMxlen .rv64) ready) = .next t) ∧
      ¬RenewsSettings (asked (.setMxlen .rv64) ready)) := by
  refine ⟨⟨by decide, by decide, next_of_after (by decide), .inr (.inr ⟨rfl, ⟨_, rfl⟩, .inl rfl⟩)⟩,
    ⟨next_of_after (by decide), .inr (.inl ⟨[], rfl⟩)⟩, ⟨next_of_after (by decide), .inl ⟨[], resetHart, [], rfl⟩⟩,
    by decide, by decide, next_of_after (by decide), ?_⟩
  rintro (⟨d, h, r, e⟩ | ⟨r, e⟩ | ⟨e, -⟩) <;> simp [asked] at e

/-- No bytes; one byte past the top; the last byte of the space. -/
theorem witness_PmpCheckOperationAnswersInsideTheAddressSpace :
    (asked (.pmpCheck (settings []) 0 0 .read .M) State.reset).pending
        = .pmpCheck (settings []) 0 0 .read .M :: [] ∧
      ((4 : Nat) ≠ 0 ∧ 2 ^ palen State.reset.mxlen < 0x3FFFFFFFD + 4) ∧
      ((4 : Nat) ≠ 0 ∧ 0x3FFFFFFFC + 4 ≤ 2 ^ palen State.reset.mxlen) := by decide

/-- Both operations; a number of another CSR, one without a register, a hart below M-mode, an existing CSR in M-mode. -/
theorem witness_EnvironmentCsrOperationsAnswerOrRaise :
    (asked (.csrRead 0x3A0#12) State.reset).pending = .csrRead 0x3A0#12 :: [] ∧
      (asked (.csrWrite 0x3A0#12 1#64) (inMode .S State.reset)).pending = .csrWrite 0x3A0#12 1#64 :: [] ∧
      decodePmpCsr .rv32 resetParams 0x300#12 = .notPmp ∧ decodePmpCsr .rv32 resetParams 0x3C0#12 = .noSuchCsr ∧
      (CsrExists (inMode .S State.reset) 0x3A0#12 ∧ (inMode .S State.reset).hart.priv ≠ .M) ∧
      (CsrExists State.reset 0x3BF#12 ∧ State.reset.hart.priv = .M) :=
  ⟨rfl, rfl, by decide, by decide, ⟨.inl ⟨0, by decide⟩, by decide⟩, .inr ⟨15, by decide⟩, rfl⟩

/-- Each rule; parts that are admitted and parts that are not; a write without its data. -/
theorem witness_DecomposeSaysWhichPartsAreAdmitted :
    (1 ≤ 1 ∧ splitRule resetParams .fetch = .whole ∧ splitRule resetParams .amo = .anyPartition ∧
      splitRule { resetParams with dataSplit := .unstated } .store = .unstated) ∧
    ((asked (.reference (single .load 0x10 4 [])) State.reset).pending = .reference (single .load 0x10 4 []) :: [] ∧
      1 ≤ 4 ∧ 0x3FFFFFFFC + 4 ≤ 2 ^ palen State.reset.mxlen ∧ decomposes resetParams .load 0x10 4 [2, 1] = false ∧
      decomposes resetParams .store 0x10 4 [2, 2] = true ∧ refType .store = .write ∧ [1#8].length ≠ 4 ∧
      ¬(RefClass.store = .storeConditional ∧ [1#8] = ([] : List Byte)) ∧
      decomposes resetParams .load 0x10 4 [4] = true ∧ ¬refType .load = .write) := by decide

/-- S13: an 8-byte store at 0x8000FFFC as two accesses; U-mode, scenario B. -/
def splitStore (misaligned : Bool) : MemInstr :=
  { cls := .store
    accesses :=
      [{ pageTable := none, y := 0x8000FFFC, n := 4, data := [1#8, 2#8, 3#8, 4#8], pmaOk := true },
        { pageTable := none, y := 0x80010000, n := 4, data := [5#8, 6#8, 7#8, 8#8], pmaOk := true }]
    misaligned := misaligned }

/-- The same store, its first half alone. -/
def halfStore : MemInstr := { splitStore false with accesses := (splitStore false).accesses.take 1 }

/-- The same store with a read of a page-table entry before it, at an address that no entry grants. -/
def translatedStore : MemInstr :=
  { splitStore false with
    accesses := { pageTable := some false, y := 0, n := 4, data := [], pmaOk := true } :: (splitStore false).accesses }

/-- An access fails, that of the second half; none fails; a page-table access fails; each clause of `Performed`. -/
theorem witness_FaultOfAnInstructionIsCertain :
    ((asked (.accesses (splitStore false)) (inMode .U (withPmp scenarioB))).pending
        = .accesses (splitStore false) :: [] ∧ (splitStore false).misaligned = false ∧
      Presentable (inMode .U (withPmp scenarioB)) .store (splitStore false).accesses ∧
      Presentable (inMode .U (withPmp scenarioB)) .store translatedStore.accesses) ∧
    checkAll (inMode .U (withPmp scenarioB)) .store 0 (splitStore false).accesses = .ok [true, false] ∧
    checkAll (inMode .U (withPmp scenarioB)) .store 0 halfStore.accesses = .ok [true] ∧
    checkAll (inMode .U (withPmp scenarioB)) .store 0 translatedStore.accesses = .ok [false, true, false] ∧
    (false ∈ [true, false] ∧ ¬false ∈ [true]) ∧
    (splitStore false).accesses[0]? = some ⟨none, 0x8000FFFC, 4, [1#8, 2#8, 3#8, 4#8], true⟩ ∧
      WritesTo .store ⟨none, 0x8000FFFC, 4, [1#8, 2#8, 3#8, 4#8], true⟩ 0x8000FFFC ∧
      ¬WritesTo .store ⟨none, 0x80010000, 4, [5#8, 6#8, 7#8, 8#8], true⟩ 0x8000FFFC :=
  ⟨by decide, rfl, rfl, rfl, by decide⟩

/-- R51, R54, R55: a load and a load-reserved fail where an entry grants X alone, and a page-table access makes the store it
translates fault. -/
theorem test_reads_denied :
    sees (fun t => t.reply) (after (asked (.reference (single .load 0x80010000 4 [])) (inMode .U (withPmp [(0x1C, 0x3FFFFFFF)]))))
        = some (.raised .loadAccessFault) ∧
      sees (fun t => t.reply)
          (after (asked (.reference (single .loadReserved 0x80010000 4 [])) (inMode .U (withPmp [(0x1C, 0x3FFFFFFF)]))))
        = some (.raised .loadAccessFault) ∧
      sees (fun t => t.reply) (after (asked (.accesses translatedStore) (inMode .U (withPmp scenarioB))))
        = some (.raised .storeAccessFault) := by decide

/-- B10 as two parts. -/
def storeInParts : Reference := { single .store 0x80000FFC 4 [1#8, 2#8, 3#8, 4#8] with parts := [(2, true), (2, true)] }

/-- S13 as an AMO in two parts. -/
def amoInParts : Reference :=
  { single .amo 0x8000FFFC 8 [1#8, 2#8, 3#8, 4#8, 5#8, 6#8, 7#8, 8#8] with parts := [(4, true), (4, true)] }

/-- A U-mode hart under scenario B. -/
def userB : State := inMode .U (withPmp scenarioB)

/-- Parts that all pass; a second part that fails; a single part that fails (B8); a store-conditional without data. -/
theorem witness_StoreInPartsLandsWhereItsPartsPass :
    ((asked (.reference storeInParts) userB).pending = .reference storeInParts :: [] ∧
      (storeInParts.cls = .store ∨ storeInParts.cls = .storeConditional ∨ storeInParts.cls = .amo) ∧
      storeInParts.misaligned = false ∧ storeInParts.data.length = storeInParts.n ∧ 1 ≤ storeInParts.n ∧
      storeInParts.y + storeInParts.n ≤ 2 ^ palen userB.mxlen ∧
      decomposes userB.params storeInParts.cls storeInParts.y storeInParts.n (storeInParts.parts.map Prod.fst) = true ∧
      effPriv (.own storeInParts.cls) userB.hart.priv userB.hart.mprv userB.hart.mpp = some .U ∧
      ∀ j, j < storeInParts.parts.length → partPasses userB storeInParts .U j = true) ∧
    (amoInParts.data.length = amoInParts.n ∧
      decomposes userB.params amoInParts.cls amoInParts.y amoInParts.n (amoInParts.parts.map Prod.fst) = true ∧
      partPasses userB amoInParts .U 0 = true ∧ 1 < amoInParts.parts.length ∧ partPasses userB amoInParts .U 1 = false) ∧
    ((single .store 0x80000FFE 4 [1#8, 2#8, 3#8, 4#8]).parts.length = 1 ∧
      partPasses userB (single .store 0x80000FFE 4 [1#8, 2#8, 3#8, 4#8]) .U 0 = false) ∧
    ((single .storeConditional 0x80000FFC 4 []).cls = .storeConditional ∧
      (single .storeConditional 0x80000FFC 4 []).data = [] ∧
      partPasses userB (single .storeConditional 0x80000FFC 4 []) .U 0 = true) := by decide

/-- One access fails; none fails. -/
theorem witness_MisalignedAndAccessFaultOrderIsTheParameter :
    ((asked (.accesses (splitStore true)) (inMode .U (withPmp scenarioB))).pending
        = .accesses (splitStore true) :: [] ∧ (splitStore true).misaligned = true ∧
      Presentable (inMode .U (withPmp scenarioB)) .store (splitStore true).accesses) ∧
    checkAll (inMode .U (withPmp scenarioB)) .store 0 (splitStore true).accesses = .ok [true, false] ∧
    checkAll (inMode .U (withPmp scenarioB)) .store 0 { halfStore with misaligned := true }.accesses = .ok [true] ∧
    (false ∈ [true, false] ∧ ¬false ∈ [true]) := ⟨by decide, rfl, rfl, by decide⟩

theorem witness_AdditionalReadRegionsAsComputed : ConfigWf resetParams ∧ resetParams.hasVm = true := by decide

theorem witness_ResetEstablishesUnlockedOffEntries :
    (asked (.reset [] resetHart) (withPmp scenarioB)).pending = .reset [] resetHart :: [] ∧
      (0 < entryTotal resetParams ∧ (entryParams resetParams 0).hardwired = none) ∧
      (15 < entryTotal hardwiredParams ∧
        (entryParams hardwiredParams 15).hardwired = some { cfg := 0x98#8, addr := 0x5FF#64 }) := by decide

/-- Draws that differ from entry to entry. -/
theorem witness_ResetReachesEveryLegalDraw :
    ∀ i, i < entryTotal State.reset.params → (entryParams State.reset.params i).hardwired = none →
      (if i = 0 then 7#3 else 4#3 : BitVec 3).setWidth 8 &&& ~~~(wmaskOf State.reset.params i) = 0#8 ∧
        cfgReserved ((if i = 0 then 7#3 else 4#3 : BitVec 3).setWidth 8) = false ∧
        BitVec.ofNat 64 i &&& ~~~(addrMaskOf State.reset.mxlen State.reset.params i) = 0#64 := by decide

/-- Widening and narrowing, the grain at the narrower width's bound. -/
theorem witness_MxlenChangePreservesConfiguration :
    ((asked (.setMxlen .rv64) State.reset).pending = .setMxlen .rv64 :: [] ∧ resetParams.grain < addrBits .rv64) ∧
      (asked (.setMxlen .rv32) (grained 31 (wide State.reset))).pending = .setMxlen .rv32 :: [] ∧
      (grained 31 (wide State.reset)).params.grain < addrBits .rv32 := by decide

theorem witness_GrainDiscoveryFindsG :
    (grained 3 State.reset).params.entryCount ≠ .zero ∧
      (grained 3 State.reset).pmp.length = entryTotal (grained 3 State.reset).params ∧
      (grained 3 State.reset).params.grain < addrBits (grained 3 State.reset).mxlen ∧
      ¬AddrFrozen (grained 3 State.reset) 0 ∧ (entryParams (grained 3 State.reset).params 0).hardwired = none ∧
      (grained 3 State.reset).params.addrRule = .masked ∧
      (addrMaskOf (grained 3 State.reset).mxlen (grained 3 State.reset).params 0).getLsbD
        (grained 3 State.reset).params.grain = true := by
  refine ⟨by decide, by decide, by decide, ?_, by decide, by decide, by decide⟩
  rintro (h | h) <;> revert h <;> decide

theorem witness_EveryStepKeepsTheInvariant : State.Inv hardwiredState ∧ ∃ t, step hardwiredState = .next t :=
  ⟨hardwiredState_inv, next_of_after (by decide)⟩

/-- W5: a write of a locked entry's address register, by the instruction `csrrw x0, pmpaddr2, x9` of program P2. -/
def lockedWrite : State := (reg 9 0xFFFFFFFF (withPmp scenarioB)).withFetchWord 32 0x3B249073

theorem witness_LockedEntryIsConstantUntilReset :
    2 < entryTotal lockedWrite.params ∧ (∃ t, step lockedWrite = .next t) ∧ resetIsNext lockedWrite = false ∧
      entryLocked lockedWrite.pmp 2 = true ∧ mxlenChangeIsNext lockedWrite = false ∧ 1 ≤ 2 ∧
      cfgMode (cfgAt lockedWrite.pmp 2) = .tor :=
  ⟨by decide, next_of_after (by decide), by decide, by decide, by decide, by decide, by decide⟩

/-- Program P6: S-mode, code where entry 1 grants X. -/
def lowerWrite : State :=
  { (inMode .S (withPmp scenarioB)) with hart := { resetHart with priv := .S, pc := 0x80000100#64 } }.withFetchWord 32
    0x3A029073

/-- A `CsrWrite` by the environment while the hart is in S-mode. -/
def lowerCsrWrite : State := asked (.csrWrite 0x3A0#12 0x1F#64) (inMode .S (withPmp scenarioB))

/-- An instruction, and an operation of the environment. -/
theorem witness_LowerModesCannotChangeThePmp :
    (lowerWrite.hart.priv ≠ .M ∧ (∃ t, step lowerWrite = .next t) ∧ resetIsNext lowerWrite = false ∧
      mxlenChangeIsNext lowerWrite = false ∧ lowerWrite.stale = [lowerWrite.pmp] ∧ lowerWrite.pending = []) ∧
    (lowerCsrWrite.hart.priv ≠ .M ∧ (∃ t, step lowerCsrWrite = .next t) ∧ resetIsNext lowerCsrWrite = false ∧
      mxlenChangeIsNext lowerCsrWrite = false ∧ lowerCsrWrite.stale = [lowerCsrWrite.pmp]) :=
  ⟨⟨by decide, next_of_after (by decide), by decide, by decide, rfl, by decide⟩,
    by decide, next_of_after (by decide), by decide, by decide, rfl⟩

/-- A step that completes, and one that raises. -/
theorem witness_InstructionStepFrame :
    (ready.pending = [] ∧ ∃ t, step ready = .next t ∧ t.raised = none) ∧
      (lowerWrite.pending = [] ∧ ∃ t, step lowerWrite = .next t ∧ t.raised ≠ none) :=
  ⟨⟨by decide, _, rfl, by decide⟩, ⟨by decide, _, rfl, by decide⟩⟩

end Sys2Proof.Tests
end

section
/-! PROOFS. The CSR numbers of the address registers, and which writes of an address register are ignored. -/

namespace Sys2Proof.Machine

/-- An implementation has at most 64 entries (R14). -/
theorem entryTotal_le (p : Config) : entryTotal p ≤ 64 := by
  unfold entryTotal
  cases p.entryCount <;> decide

/-- The numbers from 0x3B0 to 0x3EF name the address registers (R73). -/
theorem toNat_pmpaddrNum {i : Nat} (hi : i < 64) : (pmpaddrNum i).toNat = 0x3B0 + i := by
  simp only [pmpaddrNum, BitVec.toNat_ofNat]
  exact Nat.mod_eq_of_lt (by omega)

/-- The number of `pmpaddri` decodes to address register i when entry i is implemented, and else to no CSR (R73, R92). -/
theorem decodePmpCsr_pmpaddrNum (m : Mxlen) (p : Config) {i : Nat} (hi : i < 64) :
    decodePmpCsr m p (pmpaddrNum i) = if i < entryTotal p then .addr i else .noSuchCsr := by
  have hcfg : ¬(0x3A0 ≤ 0x3B0 + i ∧ 0x3B0 + i ≤ 0x3AF) := by omega
  have haddr : 0x3B0 ≤ 0x3B0 + i ∧ 0x3B0 + i ≤ 0x3EF := by omega
  rw [decodePmpCsr, toNat_pmpaddrNum hi, if_neg hcfg, if_pos haddr, Nat.add_sub_cancel_left]
  by_cases h : i < entryTotal p
  · rw [if_neg (by omega), if_pos h]
  · rw [if_pos (by omega), if_neg h]

/-- An M-mode write of `pmpaddri` of an implemented entry completes: it is `WriteAddr`, and the settings are recorded
(R105, R111). -/
theorem csrWrite_pmpaddrNum {s : State} {i : Nat} (v : Word) (hi : i < entryTotal s.params) :
    csrWrite s .M (pmpaddrNum i) v =
      .ok (recordCurrent { s with pmp := writeAddr s.mxlen s.params s.pmp i (v &&& xlenMask s.mxlen) }) := by
  have hdec := decodePmpCsr_pmpaddrNum s.mxlen s.params (Nat.lt_of_lt_of_le hi (entryTotal_le s.params))
  rw [if_pos hi] at hdec
  simp [csrWrite, hdec]

/-- A write of a frozen address register is ignored (R112). -/
theorem writeAddr_of_addrLocked {m : Mxlen} {p : Config} {S : Settings} {i : Nat} (v : Word)
    (h : addrLocked p S i = true) : writeAddr m p S i v = S := if_pos h

end Sys2Proof.Machine

namespace Sys2Proof.Claims

open Sys2Proof.Machine

/-- The model's test for an ignored address write decides the statements' notion of a frozen address register (R112). -/
theorem addrFrozen_iff_addrLocked (s : State) (i : Nat) :
    AddrFrozen s i ↔ addrLocked s.params s.pmp i = true := by
  simp [AddrFrozen, addrLocked, and_assoc]

/-- Settles O22: the write is `WriteAddr`, which tests the two locks of R112 and otherwise touches one address register. -/
theorem addressRegisterIsFrozenByLocks : Obligations.AddressRegisterIsFrozenByLocks := by
  unfold Obligations.AddressRegisterIsFrozenByLocks
  intro s i v hlen hi
  refine ⟨_, csrWrite_pmpaddrNum v hi, ?_⟩
  simp only [addrFrozen_iff_addrLocked, recordCurrent_pmp, cfgAt_writeAddr, addrAt_writeAddr, implies_true, true_and]
  refine ⟨writeAddr_of_addrLocked _, fun hfree => ?_, fun j hj => ?_⟩
  · exact if_pos ⟨hlen, Bool.eq_false_of_not_eq_true hfree⟩
  · exact if_neg fun h => hj h.1

end Sys2Proof.Claims
end

section
/-! PROOFS. Matching in the TOR and NA4 modes, as intervals of byte addresses. -/

namespace Sys2Proof.Machine

/-- The mode is TOR exactly when the A field holds 1 (R18, R76). -/
theorem cfgMode_eq_tor_iff (b : Byte) : cfgMode b = .tor ↔ cfgA b = 1#2 := by
  obtain ⟨ha, hm⟩ | ⟨ha, hm⟩ | ⟨ha, hm⟩ | ⟨ha, hm⟩ := cfgMode_cases b <;> simp [ha, hm]

/-- The mode is NA4 exactly when the A field holds 2 (R18, R76). -/
theorem cfgMode_eq_na4_iff (b : Byte) : cfgMode b = .na4 ↔ cfgA b = 2#2 := by
  obtain ⟨ha, hm⟩ | ⟨ha, hm⟩ | ⟨ha, hm⟩ | ⟨ha, hm⟩ := cfgMode_cases b <;> simp [ha, hm]

/-- A TOR entry matches the addresses from its bottom up to below its top (R128, R129). -/
theorem matchByte_of_tor {S : Settings} {i : Nat} (g y : Nat) (h : cfgA (cfgAt S i) = 1#2) :
    matchByte g S i y = decide (torBottom g S i ≤ y ∧ y < torBound g S i) := by
  simp only [matchByte, (cfgMode_eq_tor_iff _).mpr h]

/-- A TOR entry fails to match an address exactly when it lies below the bottom or not below the top (R128). -/
theorem matchByte_tor_eq_false_iff {S : Settings} {i : Nat} (g y : Nat) (h : cfgA (cfgAt S i) = 1#2) :
    matchByte g S i y = false ↔ (torBottom g S i ≤ y → torBound g S i ≤ y) := by
  rw [matchByte_of_tor g y h, decide_eq_false_iff_not, not_and, Nat.not_lt]

/-- The TOR bound depends on the address register above its low G bits alone (R131). -/
theorem torBound_congr {g : Nat} {S T : Settings} {j : Nat}
    (h : (addrAt S j).toNat / 2 ^ g = (addrAt T j).toNat / 2 ^ g) : torBound g S j = torBound g T j := by
  simp only [torBound, Nat.shiftRight_eq_div_pow, h]

/-- The bottom of a TOR range depends on the register of the entry before it above its low G bits alone (R129, R131). -/
theorem torBottom_congr {g : Nat} {S T : Settings} {i : Nat}
    (h : (addrAt S (i - 1)).toNat / 2 ^ g = (addrAt T (i - 1)).toNat / 2 ^ g) : torBottom g S i = torBottom g T i := by
  simp only [torBottom, torBound_congr h]

/-- An NA4 entry matches the addresses whose bits above the low two are the register's (R133). -/
theorem matchByte_of_na4 {S : Settings} {i : Nat} (g y : Nat) (h : cfgA (cfgAt S i) = 2#2) :
    matchByte g S i y = decide (y >>> 2 = (addrAt S i).toNat) := by
  simp only [matchByte, (cfgMode_eq_na4_iff _).mpr h]

/-- A legal configuration byte holds NA4 only at the finest grain (R18, R83). -/
theorem grain_eq_zero_of_legal_na4 {g : Nat} {b : Byte} (ha : cfgA b = 2#2) (hl : cfgLegal g b = true) : g = 0 := by
  have hsel : cfgSelectable g b = true := (Bool.and_eq_true_iff.mp hl).2
  simpa [cfgSelectable, (cfgMode_eq_na4_iff b).mpr ha] using hsel

end Sys2Proof.Machine

namespace Sys2Proof.Claims

open Sys2Proof.Machine

/-- Settles O29: when nothing matches, the bottom itself does not match, so it is not below the top; and no address at or
above the top is below it. -/
theorem torRangeIsEmptyWhenBottomReachesTop : Obligations.TorRangeIsEmptyWhenBottomReachesTop := by
  unfold Obligations.TorRangeIsEmptyWhenBottomReachesTop
  intro g S i ha
  change (_ ↔ torBound g S i ≤ torBottom g S i) ∧ _
  simp only [matchByte_tor_eq_false_iff g _ ha]
  refine ⟨⟨fun hnone => ?_, fun hempty y hbottom => ?_⟩, fun y htop _ => htop⟩
  · exact hnone (torBottom g S i) le_rfl
  · exact hempty.trans hbottom

/-- Settles O30: a TOR match is decided by the two bounds, and each bound drops the low G bits of one address register. -/
theorem torIgnoresLowBitsAndNeighbourConfiguration : Obligations.TorIgnoresLowBitsAndNeighbourConfiguration := by
  unfold Obligations.TorIgnoresLowBitsAndNeighbourConfiguration
  intro g S T i y hS hT htop hbottom
  rw [matchByte_of_tor g y hS, matchByte_of_tor g y hT, torBound_congr htop, torBottom_congr hbottom]

/-- Settles O31: dropping the two low bits of an address gives the register value exactly for the four bytes from four
times that value. -/
theorem na4MatchesFourBytes : Obligations.Na4MatchesFourBytes := by
  unfold Obligations.Na4MatchesFourBytes
  intro g S i y ha
  refine ⟨grain_eq_zero_of_legal_na4 ha, ?_⟩
  rw [matchByte_of_na4 g y ha, decide_eq_true_iff, Nat.shiftRight_eq_div_pow]
  omega

end Sys2Proof.Claims
end

section
/-! PROOFS. The deciding entry of an access, in terms of the bytes that the entries match, and what it decides. -/

namespace Sys2Proof.Machine

/-- The mode is OFF exactly when the A field holds 0 (R18, R76). -/
theorem cfgMode_eq_off_iff (b : Byte) : cfgMode b = .off ↔ cfgA b = 0#2 := by
  obtain ⟨ha, hm⟩ | ⟨ha, hm⟩ | ⟨ha, hm⟩ | ⟨ha, hm⟩ := cfgMode_cases b <;> simp [ha, hm]

/-- An entry whose A field is OFF matches no address (R127). -/
theorem matchByte_of_off {S : Settings} {i : Nat} (g y : Nat) (h : cfgA (cfgAt S i) = 0#2) :
    matchByte g S i y = false := by
  simp only [matchByte, (cfgMode_eq_off_iff _).mpr h]

/-- An entry does not match any byte of the access exactly when it fails to match each (R141). -/
theorem matchesAny_eq_false_iff {g : Nat} {S : Settings} {i y n : Nat} :
    matchesAny g S i y n = false ↔ ∀ k, k < n → matchByte g S i (y + k) = false := by
  rw [← Bool.not_eq_true, matchesAny_iff]
  simp only [not_exists, not_and, Bool.not_eq_true]

/-- An entry does not match all bytes of the access exactly when it fails to match one (R142). -/
theorem matchesAll_eq_false_iff {g : Nat} {S : Settings} {i y n : Nat} :
    matchesAll g S i y n = false ↔ ∃ k, k < n ∧ matchByte g S i (y + k) = false := by
  rw [← Bool.not_eq_true, matchesAll_iff]
  simp only [not_forall, exists_prop, Bool.not_eq_true]

/-- The deciding entry is the lowest-numbered implemented entry that matches a byte of the access (R140, R141). -/
theorem decidingEntry_eq_some_iff {c : Config} {S : Settings} {y n i : Nat} :
    decidingEntry c S y n = some i ↔
      i < entryTotal c ∧ (∃ k, k < n ∧ matchByte c.grain S i (y + k) = true) ∧
        ∀ j, j < i → ∀ k, k < n → matchByte c.grain S j (y + k) = false := by
  simp only [decidingEntry, decidingFrom_some, matchesAny_iff, matchesAny_eq_false_iff, Nat.zero_le, Nat.zero_add,
    true_and, forall_const]

/-- No entry decides exactly when no implemented entry matches a byte of the access (R145). -/
theorem decidingEntry_eq_none_iff {c : Config} {S : Settings} {y n : Nat} :
    decidingEntry c S y n = none ↔
      ∀ j, j < entryTotal c → ∀ k, k < n → matchByte c.grain S j (y + k) = false := by
  simp only [decidingEntry, decidingFrom_none, matchesAny_eq_false_iff, Nat.zero_le, Nat.zero_add, forall_const]

/-- An entry whose A field is OFF never decides (R127, R141). -/
theorem decidingEntry_ne_some_of_off {c : Config} {S : Settings} {y n i : Nat} (h : cfgA (cfgAt S i) = 0#2) :
    decidingEntry c S y n ≠ some i := by
  intro hi
  obtain ⟨-, ⟨k, -, hmatch⟩, -⟩ := decidingEntry_eq_some_iff.mp hi
  rw [matchByte_of_off _ _ h] at hmatch
  cases hmatch

/-- The check of an access that has a deciding entry is that entry's decision (R141, R149). -/
theorem pmpCheck_of_decidingEntry {c : Config} {S : Settings} {y n i : Nat} (t : AccessType) (p : Priv)
    (h : decidingEntry c S y n = some i) : pmpCheck c S y n t p = entryDecision c.grain S i y n t p := by
  simp only [pmpCheck, h]

section Decision
variable {g : Nat} {S : Settings} {i y n : Nat} (t : AccessType)

/-- A deciding entry that does not match all bytes denies the access (R142). -/
theorem entryDecision_of_partial (p : Priv) (h : matchesAll g S i y n = false) :
    entryDecision g S i y n t p = false := by
  simp only [entryDecision, h, Bool.false_and]

/-- An unlocked entry that matches all bytes allows every M-mode access (R143). -/
theorem entryDecision_of_unlocked (h : matchesAll g S i y n = true) (hl : cfgL (cfgAt S i) = false) :
    entryDecision g S i y n t .M = true := by
  simp [entryDecision, h, hl]

/-- An entry that matches all bytes and binds the mode of the access decides by the permission bit of the type (R144). -/
theorem entryDecision_of_binding {p : Priv} (h : matchesAll g S i y n = true)
    (hb : cfgL (cfgAt S i) = true ∨ p ≠ .M) : entryDecision g S i y n t p = cfgPermits (cfgAt S i) t := by
  have hbound : (!cfgL (cfgAt S i) && decide (p = .M)) = false := by
    obtain hl | hp := hb
    · simp [hl]
    · simp [hp]
  rw [entryDecision, h, hbound, Bool.true_and, Bool.false_or]

end Decision

end Sys2Proof.Machine

namespace Sys2Proof.Claims

open Sys2Proof.Machine

/-- Settles O37: the search returns the lowest entry with a matching byte, and an entry that is OFF has none. -/
theorem decidingEntryIsTheLowestThatMatches : Obligations.DecidingEntryIsTheLowestThatMatches := by
  unfold Obligations.DecidingEntryIsTheLowestThatMatches
  intro c S y n
  exact ⟨fun _ => decidingEntry_eq_some_iff, fun _ => decidingEntry_ne_some_of_off, decidingEntry_eq_none_iff⟩

/-- Settles O38: the check is the deciding entry's decision, taken for a partial match, for a full match of an unlocked
entry in M-mode, and for a full match of an entry that binds the mode. -/
theorem decidingEntryDecidesTheAccess : Obligations.DecidingEntryDecidesTheAccess := by
  unfold Obligations.DecidingEntryDecidesTheAccess
  intro c S y n t p i hi
  rw [pmpCheck_of_decidingEntry t p hi]
  refine ⟨fun hpartial => ?_, fun hall => ⟨fun hl hp => ?_, fun hb => ?_⟩⟩
  · exact entryDecision_of_partial t p (matchesAll_eq_false_iff.mpr hpartial)
  · subst hp
    exact entryDecision_of_unlocked t (matchesAll_iff.mpr hall) hl
  · rw [entryDecision_of_binding t (matchesAll_iff.mpr hall) hb]
    cases t <;> rfl

end Sys2Proof.Claims
end

section
/-! PROOFS. The recipe that discovers the grain: a configuration CSR written with zero, all ones written to an address
register, and the read view of it. -/

namespace Sys2Proof.Machine

/-- N is positive unless no entry is implemented (R14). -/
theorem entryTotal_pos {p : Config} (h : p.entryCount ≠ .zero) : 0 < entryTotal p := by
  unfold entryTotal
  cases hN : p.entryCount with
  | zero => exact absurd hN h
  | sixteen => decide
  | sixtyFour => decide

/-- The number of `pmpcfg0` decodes to configuration CSR 0 at both widths when there are entries (R72, R92). -/
theorem decodePmpCsr_pmpcfgNum_zero (m : Mxlen) {p : Config} (h : 0 < entryTotal p) :
    decodePmpCsr m p (pmpcfgNum 0) = .cfg 0 := by
  have hnum : (pmpcfgNum 0).toNat = 0x3A0 := by decide
  rw [decodePmpCsr, hnum, if_pos (by omega), if_neg (by simp), if_neg (by omega)]

/-- An M-mode write of `pmpcfg0` completes when there are entries: it is `WriteCfgCsr`, and the settings are recorded
(R105, R106). -/
theorem csrWrite_pmpcfgNum_zero {s : State} (v : Word) (h : 0 < entryTotal s.params) :
    csrWrite s .M (pmpcfgNum 0) v =
      .ok (recordCurrent { s with pmp := writeCfgCsr s.mxlen s.params s.pmp 0 (v &&& xlenMask s.mxlen) }) := by
  simp [csrWrite, decodePmpCsr_pmpcfgNum_zero s.mxlen h]

/-- An M-mode read of `pmpaddri` of an implemented entry completes with the read view (R101). -/
theorem csrRead_pmpaddrNum {s : State} {i : Nat} (hi : i < entryTotal s.params) :
    csrRead s .M (pmpaddrNum i) = .ok (addrRead s.params.grain s.pmp i &&& xlenMask s.mxlen) := by
  have hdec := decodePmpCsr_pmpaddrNum s.mxlen s.params (Nat.lt_of_lt_of_le hi (entryTotal_le s.params))
  rw [if_pos hi] at hdec
  simp [csrRead, hdec]

/-- The zero byte is stored as written wherever the entry is not hardwired (R109). -/
theorem legalCfg_zero {p : Config} {i : Nat} (old : Byte) (hw : (entryParams p i).hardwired = none) :
    legalCfg p i old 0#8 = 0#8 := by
  rw [legalCfg_of_legal p i old 0#8 hw (by simp)]
  simp

/-- A zero byte written leaves the old byte, where the entry is locked or hardwired, or zero (R107, R110). -/
theorem writeCfgByte_zero (p : Config) (i : Nat) (old : Byte) :
    writeCfgByte p i old 0#8 = old ∨ writeCfgByte p i old 0#8 = 0#8 := by
  by_cases hl : cfgL old = true
  · exact .inl (if_pos hl)
  · rw [writeCfgByte, if_neg hl]
    by_cases hw : (entryParams p i).hardwired = none
    · exact .inr (legalCfg_zero old hw)
    · exact .inl ((legalCfg_spec p i old 0#8).1 hw)

/-- Every byte of a CSR value of zero is zero. -/
@[simp] theorem byteOfWord_zero (b : Nat) : byteOfWord 0#64 b = 0#8 := by simp [byteOfWord]

section ZeroCfgWrite
variable (m : Mxlen) (p : Config) (S : Settings)

/-- A configuration CSR written with zero leaves each byte as it was or zero (R106). -/
theorem cfgAt_writeCfgCsr_zero (c j : Nat) :
    cfgAt (writeCfgCsr m p S c 0#64) j = cfgAt S j ∨ cfgAt (writeCfgCsr m p S c 0#64) j = 0#8 := by
  rw [cfgAt_writeCfgCsr, byteOfWord_zero]
  split
  · exact writeCfgByte_zero p j (cfgAt S j)
  · exact .inl rfl

/-- A configuration CSR written with zero clears the byte of an unlocked entry that it holds and that is not hardwired. -/
theorem cfgAt_writeCfgCsr_zero_of_unlocked {c j : Nat} (hj : j < S.length) (hc : 4 * c ≤ j ∧ j < 4 * c + cfgBytes m)
    (hl : cfgL (cfgAt S j) = false) (hw : (entryParams p j).hardwired = none) :
    cfgAt (writeCfgCsr m p S c 0#64) j = 0#8 := by
  rw [cfgAt_writeCfgCsr, byteOfWord_zero, if_pos ⟨hj, hc⟩, writeCfgByte, hl]
  exact legalCfg_zero _ hw

variable {S}

/-- A configuration CSR written with zero sets no lock, so it freezes no address register (R112). -/
theorem addrLocked_writeCfgCsr_zero {i : Nat} (c : Nat) (h : addrLocked p S i = false) :
    addrLocked p (writeCfgCsr m p S c 0#64) i = false := by
  have hzero : cfgL 0#8 = false := by decide
  simp only [addrLocked, Bool.or_eq_false_iff] at h ⊢
  obtain ⟨hself, hnext⟩ := h
  constructor
  · obtain hi | hi := cfgAt_writeCfgCsr_zero m p S c i <;> rw [hi]
    · exact hself
    · exact hzero
  · obtain hi | hi := cfgAt_writeCfgCsr_zero m p S c (i + 1) <;> rw [hi]
    · exact hnext
    · simp [hzero]

end ZeroCfgWrite

/-- The default LegalAddr drops the bits outside the mask (R114, D10). -/
theorem legalAddr_of_masked {m : Mxlen} {p : Config} {i : Nat} (old v : Word)
    (hw : (entryParams p i).hardwired = none) (hr : p.addrRule = .masked) :
    legalAddr m p i old v = v &&& addrMaskOf m p i := by
  simp [legalAddr, hw, hr]

/-- The bits of the read view where `A[1]` is clear: the low G bits read zero (R35). -/
theorem getLsbD_addrRead_of_cfgA1_false {S : Settings} {i : Nat} (g k : Nat) (h : cfgA1 (cfgAt S i) = false) :
    (addrRead g S i).getLsbD k = (decide (g ≤ k) && (addrAt S i).getLsbD k) := by
  have hview : addrRead g S i = if 1 ≤ g then addrAt S i &&& ~~~(onesWord g) else addrAt S i := by
    simp [addrRead, h]
  rw [hview]
  by_cases hg : 1 ≤ g
  · rw [if_pos hg, BitVec.getLsbD_and, BitVec.getLsbD_not, getLsbD_onesWord]
    by_cases hk : k < 64
    · simp only [hk, decide_true, Bool.true_and, ← decide_not, Nat.not_lt]
      exact Bool.and_comm _ _
    · simp [BitVec.getLsbD_of_ge _ k (Nat.le_of_not_lt hk)]
  · simp [if_neg hg, show g ≤ k by omega]

/-- Every address bit of a width is one of its MXLEN bits (R29, R30). -/
theorem getLsbD_xlenMask_of_lt_addrBits {m : Mxlen} {k : Nat} (h : k < addrBits m) : (xlenMask m).getLsbD k = true := by
  cases m <;> simp only [addrBits, xlenMask, mxlenBits, getLsbD_onesWord] at h ⊢ <;> simp <;> omega

/-- What is read of an address register after a write of all ones, where the register is not frozen and `A[1]` is clear:
the writable address bits from bit G up (R35, R114). -/
theorem getLsbD_addrRead_writeAddr_ones {m : Mxlen} {p : Config} {S : Settings} {i : Nat} (g k : Nat) (hi : i < S.length)
    (hfree : addrLocked p S i = false) (ha : cfgA1 (cfgAt S i) = false) (hw : (entryParams p i).hardwired = none)
    (hr : p.addrRule = .masked) :
    (addrRead g (writeAddr m p S i (xlenMask m)) i).getLsbD k =
      (decide (g ≤ k) && ((xlenMask m).getLsbD k && (addrMaskOf m p i).getLsbD k)) := by
  rw [getLsbD_addrRead_of_cfgA1_false g k (by rwa [cfgAt_writeAddr]), addrAt_writeAddr, if_pos ⟨rfl, hi, hfree⟩,
    legalAddr_of_masked _ _ hw hr, BitVec.getLsbD_and]

end Sys2Proof.Machine

namespace Sys2Proof.Claims

open Sys2Proof.Machine

/-- Settles O55: the zero write turns entry 0 OFF and sets no lock, so the all-ones write lands on the writable address bits,
and the read view of an OFF entry shows those from bit G up. -/
theorem grainDiscoveryFindsG : Obligations.GrainDiscoveryFindsG := by
  unfold Obligations.GrainDiscoveryFindsG
  intro s hcount hlen hgrain hfree hw hr hmask
  have htotal := entryTotal_pos hcount
  have hpos : 0 < s.pmp.length := by rwa [hlen]
  rw [addrFrozen_iff_addrLocked, Bool.not_eq_true] at hfree
  have hunlocked : cfgL (cfgAt s.pmp 0) = false := (Bool.or_eq_false_iff.mp hfree).1
  have hbytes : 0 < cfgBytes s.mxlen := by cases s.mxlen <;> decide
  have hoff : cfgAt (writeCfgCsr s.mxlen s.params s.pmp 0 0#64) 0 = 0#8 :=
    cfgAt_writeCfgCsr_zero_of_unlocked _ _ _ hpos (by omega) hunlocked hw
  have hA1 : cfgA1 (cfgAt (writeCfgCsr s.mxlen s.params s.pmp 0 0#64) 0) = false := by rw [hoff]; decide
  have hread (k : Nat) := getLsbD_addrRead_writeAddr_ones (m := s.mxlen) s.params.grain k (by rwa [length_writeCfgCsr])
    (addrLocked_writeCfgCsr_zero s.mxlen s.params 0 hfree) hA1 hw hr
  refine ⟨_, _, _, csrWrite_pmpcfgNum_zero _ htotal, csrWrite_pmpaddrNum _ (by simpa using htotal),
    csrRead_pmpaddrNum (by simpa using htotal), ?_, fun k hk => ?_⟩
  · simp [hread, hmask, getLsbD_xlenMask_of_lt_addrBits hgrain]
  · simp [hread, Nat.not_le_of_lt hk]

end Sys2Proof.Claims
end

section
/-! PROOFS. Encoding and decoding: a word is made of its fields, a row of the opcode map fixes some of them, and the decoder
reads the others. -/

namespace Sys2Proof

/-- Two neighbouring fields of a word are one field. -/
theorem extract_append_extract (w : BitVec 32) {k n k' : Nat} (n' : Nat) (h : k' = k + n) :
    w.extractLsb' k' n' ++ w.extractLsb' k n = w.extractLsb' k (n' + n) :=
  BitVec.extractLsb'_append_extractLsb'_eq_extractLsb' h

/-- A word is made of the fields that the I-type format names (R85). -/
theorem word_eq_iTypeFields (w : BitVec 32) :
    w = fieldCsr w ++ fieldRs1 w ++ fieldFunct3 w ++ fieldRd w ++ fieldOpcode w := by
  rw [fieldCsr, fieldRs1, fieldFunct3, fieldRd, fieldOpcode, extract_append_extract w 12 (k := 15) (n := 5) rfl,
    extract_append_extract w 17 (k := 12) (n := 3) rfl, extract_append_extract w 20 (k := 7) (n := 5) rfl,
    extract_append_extract w 25 (k := 0) (n := 7) rfl]
  exact (extract_all w).symm

/-- The upper 12 bits of a word are those of the R-type format (R85). -/
theorem fieldCsr_eq_rTypeFields (w : BitVec 32) : fieldCsr w = w.extractLsb' 25 7 ++ fieldRs2 w :=
  (extract_append_extract w 7 (k := 20) (n := 5) rfl).symm

/-- A word is known by the fields of the I-type format (R85). -/
theorem word_ext_iff (w v : BitVec 32) :
    w = v ↔ fieldCsr w = fieldCsr v ∧ fieldRs1 w = fieldRs1 v ∧ fieldFunct3 w = fieldFunct3 v ∧ fieldRd w = fieldRd v ∧
      fieldOpcode w = fieldOpcode v := by
  refine ⟨fun h => by simp [h], fun ⟨h1, h2, h3, h4, h5⟩ => ?_⟩
  rw [word_eq_iTypeFields w, word_eq_iTypeFields v, h1, h2, h3, h4, h5]

/-- The fields of a masked word are the masked fields. -/
theorem fields_and (w m : BitVec 32) :
    fieldCsr (w &&& m) = fieldCsr w &&& fieldCsr m ∧ fieldRs1 (w &&& m) = fieldRs1 w &&& fieldRs1 m ∧
      fieldFunct3 (w &&& m) = fieldFunct3 w &&& fieldFunct3 m ∧ fieldRd (w &&& m) = fieldRd w &&& fieldRd m ∧
      fieldOpcode (w &&& m) = fieldOpcode w &&& fieldOpcode m := by
  simp only [fieldCsr, fieldRs1, fieldFunct3, fieldRd, fieldOpcode, BitVec.extractLsb'_and, and_self]

/-- The row of the CSR instruction with the given funct3 (R87). -/
def csrRow (f : BitVec 3) : OpcodeRow := { mask := 0x0000707F#32, pattern := iTypeWord 0#12 0#5 f 0#5 }

/-- The fields of the mask that the rows of the CSR instructions share (R87). -/
theorem fields_csrMask :
    fieldCsr 0x0000707F#32 = 0#12 ∧ fieldRs1 0x0000707F#32 = 0#5 ∧ fieldFunct3 0x0000707F#32 = BitVec.allOnes 3 ∧
      fieldRd 0x0000707F#32 = 0#5 ∧ fieldOpcode 0x0000707F#32 = BitVec.allOnes 7 := by decide

/-- The fields of the mask of the row of SFENCE.VMA (R87). -/
theorem fields_sfenceVmaMask :
    fieldCsr 0xFE007FFF#32 = BitVec.allOnes 7 ++ 0#5 ∧ fieldRs1 0xFE007FFF#32 = 0#5 ∧
      fieldFunct3 0xFE007FFF#32 = BitVec.allOnes 3 ∧ fieldRd 0xFE007FFF#32 = BitVec.allOnes 5 ∧
      fieldOpcode 0xFE007FFF#32 = BitVec.allOnes 7 := by decide

/-- The row of a CSR instruction covers the words with its funct3 and the opcode SYSTEM (R85, R87). -/
theorem rowCovers_csrRow_iff (f : BitVec 3) (w : BitVec 32) :
    rowCovers (csrRow f) w = true ↔ fieldFunct3 w = f ∧ fieldOpcode w = 0b1110011#7 := by
  obtain ⟨m1, m2, m3, m4, m5⟩ := fields_csrMask
  obtain ⟨h1, h2, h3, h4, h5⟩ := fields_and w 0x0000707F#32
  obtain ⟨g1, g2, g3, g4, g5⟩ := fields_iTypeWord 0#12 0#5 f 0#5
  rw [rowCovers, beq_iff_eq, csrRow, word_ext_iff, h1, h2, h3, h4, h5, m1, m2, m3, m4, m5, g1, g2, g3, g4, g5]
  simp only [BitVec.and_zero, BitVec.and_allOnes, true_and]

/-- The row of SFENCE.VMA covers the words with its funct7, funct3, rd and the opcode SYSTEM (R85, R87). -/
theorem rowCovers_rowSfenceVma_iff (w : BitVec 32) :
    rowCovers rowSfenceVma w = true ↔
      w.extractLsb' 25 7 = 0b0001001#7 ∧ fieldFunct3 w = 0b000#3 ∧ fieldRd w = 0b00000#5 ∧
        fieldOpcode w = 0b1110011#7 := by
  have hpattern : (0x12000073#32 : BitVec 32) = rTypeWord 0#5 0#5 := by decide
  have hcsr : fieldCsr (rTypeWord 0#5 0#5) = 0b0001001#7 ++ 0#5 := by decide
  obtain ⟨m1, m2, m3, m4, m5⟩ := fields_sfenceVmaMask
  obtain ⟨h1, h2, h3, h4, h5⟩ := fields_and w 0xFE007FFF#32
  obtain ⟨-, -, g2, g3, g4, g5⟩ := fields_rTypeWord 0#5 0#5
  rw [rowCovers, beq_iff_eq, rowSfenceVma, hpattern, word_ext_iff, h1, h2, h3, h4, h5, m1, m2, m3, m4, m5, hcsr, g2, g3,
    g4, g5, fieldCsr_eq_rTypeFields, BitVec.and_append]
  simp only [BitVec.and_zero, BitVec.and_allOnes, true_and]
  exact and_congr (BitVec.append_left_inj 0#5) Iff.rfl

/-- The rows of the six CSR instructions (R87). -/
theorem csrRows :
    rowCsrrw = csrRow 0b001#3 ∧ rowCsrrs = csrRow 0b010#3 ∧ rowCsrrc = csrRow 0b011#3 ∧ rowCsrrwi = csrRow 0b101#3 ∧
      rowCsrrsi = csrRow 0b110#3 ∧ rowCsrrci = csrRow 0b111#3 := by decide

/-- A word of a CSR row is the I-type word of its own fields (R85). -/
theorem eq_iTypeWord_of_rowCovers {f : BitVec 3} {w : BitVec 32} (h : rowCovers (csrRow f) w = true) :
    iTypeWord (fieldCsr w) (fieldRs1 w) f (fieldRd w) = w := by
  obtain ⟨rfl, ho⟩ := (rowCovers_csrRow_iff f w).mp h
  conv_rhs => rw [word_eq_iTypeFields w, ho]
  rfl

/-- A word of the row of SFENCE.VMA is the R-type word of its own fields (R85). -/
theorem eq_rTypeWord_of_rowCovers {w : BitVec 32} (h : rowCovers rowSfenceVma w = true) :
    rTypeWord (fieldRs2 w) (fieldRs1 w) = w := by
  obtain ⟨h7, h3, hrd, ho⟩ := (rowCovers_rowSfenceVma_iff w).mp h
  conv_rhs => rw [word_eq_iTypeFields w, fieldCsr_eq_rTypeFields, h7, h3, hrd, ho]
  rfl

/-- The decoder reads an instruction back from its word (R85 to R87). -/
theorem decodeWord_encodeWord (i : Instr) : decodeWord (encodeWord i) = .ok i := by
  obtain ⟨r1, r2, r3, r4, r5, r6⟩ := csrRows
  cases i <;>
    simp [decodeWord, encodeWord, r1, r2, r3, r4, r5, r6, rowCovers_csrRow_iff, rowCovers_rowSfenceVma_iff,
      fields_iTypeWord, fields_rTypeWord]

/-- A word that decodes is that of the instruction it decodes to (R87). -/
theorem encodeWord_of_decodeWord {w : BitVec 32} {i : Instr} (h : decodeWord w = .ok i) : encodeWord i = w := by
  obtain ⟨r1, r2, r3, r4, r5, r6⟩ := csrRows
  rw [decodeWord, r1, r2, r3, r4, r5, r6] at h
  repeat' split at h
  all_goals cases h
  all_goals simp only [encodeWord, eq_iTypeWord_of_rowCovers, eq_rTypeWord_of_rowCovers, *]

/-- A word decodes exactly when a row of the opcode map covers it (R87, R89). -/
theorem decodeWord_ok_iff (w : BitVec 32) : (∃ i, decodeWord w = .ok i) ↔ ∃ r ∈ opcodeTable, rowCovers r w = true := by
  simp only [opcodeTable, List.mem_cons, List.not_mem_nil, or_false, exists_eq_or_imp, exists_eq_left, decodeWord]
  repeat' split
  all_goals simp_all

/-- Two rows cover no common word when their patterns differ at a bit that both masks keep. -/
theorem not_rowCovers_both {r q : OpcodeRow} {w : BitVec 32} (hne : r.pattern &&& q.mask ≠ q.pattern &&& r.mask) :
    ¬(rowCovers r w = true ∧ rowCovers q w = true) := by
  rintro ⟨hr, hq⟩
  rw [rowCovers, beq_iff_eq] at hr hq
  refine hne ?_
  rw [← hr, ← hq, BitVec.and_assoc, BitVec.and_comm r.mask, ← BitVec.and_assoc]

/-- Decoding the bytes of a word decodes the word, and leaves the bytes that follow (R85). -/
theorem decode_bytesOfWord {w : BitVec 32} {i : Instr} (rest : List Byte) (h : decodeWord w = .ok i) :
    decode (bytesOfWord w ++ rest) = .ok (i, rest) := by
  simp only [bytesOfWord, List.cons_append, List.nil_append, decode, wordOfBytes_bytesOfWord, h]

end Sys2Proof

namespace Sys2Proof.Claims

open Sys2Proof.Machine

/-- Settles O1: the fields of an instruction's word select its row alone, and give its operands back. -/
theorem decodeOfEncodeIsIdentity : Obligations.DecodeOfEncodeIsIdentity := by
  unfold Obligations.DecodeOfEncodeIsIdentity
  intro i rest
  exact decode_bytesOfWord rest (decodeWord_encodeWord i)

/-- Settles O2: a word that decodes is covered by a row, which fixes all its bits but those of the operands. -/
theorem encodeOfDecodeIsIdentity : Obligations.EncodeOfDecodeIsIdentity := by
  unfold Obligations.EncodeOfDecodeIsIdentity
  intro w i h
  exact encodeWord_of_decodeWord h

/-- Settles O4: the worked words are decoded by evaluation. -/
theorem workedEncodingsDecode : Obligations.WorkedEncodingsDecode := by
  unfold Obligations.WorkedEncodingsDecode
  decide

/-- Settles O5: two rows differ at a bit that both masks keep, and the decoder tries every row. -/
theorem decodesExactlyTheTable : Obligations.DecodesExactlyTheTable := by
  unfold Obligations.DecodesExactlyTheTable
  have hdiffer : opcodeTable.Pairwise fun r q => r.pattern &&& q.mask ≠ q.pattern &&& r.mask := by decide
  exact ⟨hdiffer.imp fun hne w => not_rowCovers_both hne, decodeWord_ok_iff⟩

end Sys2Proof.Claims
end

section
/-! PROOFS. The CSR numbers, and the bits of a CSR's read view. -/

namespace Sys2Proof.Machine

/-- The numbers from 0x3A0 to 0x3AF name the configuration registers (R72). -/
theorem toNat_pmpcfgNum {c : Nat} (hc : c < 16) : (pmpcfgNum c).toNat = 0x3A0 + c := by
  simp only [pmpcfgNum, BitVec.toNat_ofNat]
  exact Nat.mod_eq_of_lt (by omega)

/-- The number of `pmpcfgc` decodes to configuration CSR c when the width has it and its first entry is implemented, and else
to no CSR (R72, R92). -/
theorem decodePmpCsr_pmpcfgNum (m : Mxlen) (p : Config) {c : Nat} (hc : c < 16) :
    decodePmpCsr m p (pmpcfgNum c) =
      if ¬(m = .rv64 ∧ c % 2 = 1) ∧ 4 * c < entryTotal p then .cfg c else .noSuchCsr := by
  have hcfg : 0x3A0 ≤ 0x3A0 + c ∧ 0x3A0 + c ≤ 0x3AF := by omega
  rw [decodePmpCsr, toNat_pmpcfgNum hc, if_pos hcfg, Nat.add_sub_cancel_left]
  by_cases hodd : m = .rv64 ∧ c % 2 = 1
  · rw [if_pos hodd, if_neg (fun h => h.1 hodd)]
  · by_cases hN : 4 * c < entryTotal p
    · rw [if_neg hodd, if_neg (by omega), if_pos ⟨hodd, hN⟩]
    · rw [if_neg hodd, if_pos (by omega), if_neg (fun h => hN h.2)]

/-- A number outside the PMP's range is no PMP CSR (R89, R92). -/
theorem decodePmpCsr_outside (m : Mxlen) (p : Config) {a : CsrNum} (h : a.toNat < 0x3A0 ∨ 0x3EF < a.toNat) :
    decodePmpCsr m p a = .notPmp := by
  rw [decodePmpCsr, if_neg (by omega), if_neg (by omega)]

/-- What is known of a number that decodes to a configuration CSR: it is that of the CSR, whose index is even at MXLEN = 64
and whose first entry is implemented (R24, R72, R92). -/
theorem decodePmpCsr_eq_cfg {m : Mxlen} {p : Config} {a : CsrNum} {c : Nat} (h : decodePmpCsr m p a = .cfg c) :
    (m = .rv64 → c % 2 = 0) ∧ 4 * c < entryTotal p := by
  unfold decodePmpCsr at h
  split at h
  · split at h
    · cases h
    · rename_i hodd
      split at h
      · cases h
      · injection h with h
        exact ⟨fun hm => by simp only [hm, true_and] at hodd; omega, by omega⟩
  · split at h
    · split at h <;> cases h
    · cases h

/-- The bits of bytes put together: bit k is bit k mod 8 of byte k div 8 (R78, R79). -/
theorem getLsbD_packBytes (l : List Byte) (k : Nat) :
    (packBytes l).getLsbD k = (decide (k < 64) && (l.getD (k / 8) 0#8).getLsbD (k % 8)) := by
  induction l generalizing k with
  | nil => simp [packBytes]
  | cons b rest ih =>
    rw [packBytes, BitVec.getLsbD_or, BitVec.getLsbD_shiftLeft, BitVec.getLsbD_setWidth, ih]
    by_cases hk : k < 8
    · have h64 : k < 64 := by omega
      simp [hk, h64, Nat.div_eq_of_lt hk, Nat.mod_eq_of_lt hk]
    · have hdiv : k / 8 = (k - 8) / 8 + 1 := by omega
      have hmod : k % 8 = (k - 8) % 8 := by omega
      have hhigh : b.getLsbD k = false := BitVec.getLsbD_of_ge b k (by omega)
      have hbound : k < 64 → k - 8 < 64 := by omega
      rw [hdiv, hmod, List.getD_cons_succ]
      by_cases h64 : k < 64 <;> simp [hk, hhigh, h64, hbound]

/-- The bits of a configuration CSR: those of the entries it holds, one byte each, and zeros above (R21, R22). -/
theorem getLsbD_cfgCsrValue (m : Mxlen) (S : Settings) (c k : Nat) :
    (cfgCsrValue m S c).getLsbD k
      = (decide (k < mxlenBits m) && (cfgAt S (entryOf c (k / 8))).getLsbD (k % 8)) := by
  have hbits : cfgBytes m * 8 = mxlenBits m ∧ mxlenBits m ≤ 64 := by cases m <;> decide
  rw [cfgCsrValue, getLsbD_packBytes]
  by_cases hk : k < mxlenBits m
  · have hb : k / 8 < cfgBytes m := by omega
    have h64 : k < 64 := by omega
    simp [hk, h64, hb]
  · have hb : ¬k / 8 < cfgBytes m := by omega
    simp [hk, hb]

/-- The byte of an entry in the configuration CSR that holds it (R24, R100). -/
theorem extractLsb'_cfgCsrValue (m : Mxlen) (S : Settings) (c : Nat) {b : Nat} (hb : b < cfgBytes m) :
    (cfgCsrValue m S c).extractLsb' (8 * b) 8 = cfgAt S (entryOf c b) := by
  have hbits : cfgBytes m * 8 = mxlenBits m := by cases m <;> decide
  apply BitVec.eq_of_getLsbD_eq
  intro j hj
  have hdiv : (8 * b + j) / 8 = b := by omega
  have hmod : (8 * b + j) % 8 = j := by omega
  have hlt : 8 * b + j < mxlenBits m := by omega
  simp [getLsbD_cfgCsrValue, hj, hdiv, hmod, hlt]

/-- The bits of an MXLEN-bit value. -/
theorem getLsbD_xlenMask (m : Mxlen) (k : Nat) : (xlenMask m).getLsbD k = decide (k < mxlenBits m) := by
  have hle : mxlenBits m ≤ 64 := by cases m <;> decide
  rw [xlenMask, getLsbD_onesWord, ← Bool.decide_and]
  exact decide_eq_decide.mpr ⟨And.right, fun h => ⟨by omega, h⟩⟩

/-- A configuration CSR's value stands in MXLEN bits (R45, R78, R79). -/
theorem cfgCsrValue_and_xlenMask (m : Mxlen) (S : Settings) (c : Nat) :
    cfgCsrValue m S c &&& xlenMask m = cfgCsrValue m S c := by
  apply BitVec.eq_of_getLsbD_eq
  intro k hk
  rw [BitVec.getLsbD_and, getLsbD_cfgCsrValue, getLsbD_xlenMask]
  cases decide (k < mxlenBits m) <;> simp

/-- A byte of a value below MXLEN is the same in MXLEN bits. -/
theorem byteOfWord_and_xlenMask (m : Mxlen) (v : Word) {b : Nat} (hb : b < cfgBytes m) :
    byteOfWord (v &&& xlenMask m) b = v.extractLsb' (8 * b) 8 := by
  have hbits : cfgBytes m * 8 = mxlenBits m := by cases m <;> decide
  apply BitVec.eq_of_getLsbD_eq
  intro j hj
  have hlt : 8 * b + j < mxlenBits m := by omega
  simp [byteOfWord, BitVec.getLsbD_extractLsb', getLsbD_xlenMask, hlt]

/-- The bits of the read view where `A[1]` is set: bits G-2 to 0 read one (R34). -/
theorem getLsbD_addrRead_of_cfgA1_true {S : Settings} {i : Nat} (g : Nat) {k : Nat} (hk : k < 64)
    (h : cfgA1 (cfgAt S i) = true) :
    (addrRead g S i).getLsbD k = (decide (k + 1 < g) || (addrAt S i).getLsbD k) := by
  have hview : addrRead g S i = if 2 ≤ g then addrAt S i ||| onesWord (g - 1) else addrAt S i := by
    simp [addrRead, h]
  have hlow : k < g - 1 ↔ k + 1 < g := by omega
  rw [hview]
  by_cases hg : 2 ≤ g
  · rw [if_pos hg, BitVec.getLsbD_or, getLsbD_onesWord]
    simp [hk, hlow, Bool.or_comm]
  · have hnone : ¬k + 1 < g := by omega
    simp [if_neg hg, hnone]

end Sys2Proof.Machine

namespace Sys2Proof.Claims

open Sys2Proof.Machine

/-- Settles O18: each range of numbers decodes by the index that it counts from. -/
theorem csrNumbersNameTheRegisters : Obligations.CsrNumbersNameTheRegisters := by
  unfold Obligations.CsrNumbersNameTheRegisters
  intro p
  refine ⟨fun c hc => ?_, fun c hc => ?_, fun m i hi => decodePmpCsr_pmpaddrNum m p hi,
    fun m a => decodePmpCsr_outside m p⟩
  · rw [decodePmpCsr_pmpcfgNum .rv32 p hc]
    simp
  · rw [decodePmpCsr_pmpcfgNum .rv64 p hc]
    simp

/-- Settles O19: bit k of a configuration CSR is bit k mod 8 of the entry at byte k div 8, at either width. -/
theorem configurationCsrHoldsEachEntry : Obligations.ConfigurationCsrHoldsEachEntry := by
  unfold Obligations.ConfigurationCsrHoldsEachEntry
  intro S i
  have hnarrow : entryOf (i / 4) (i % 4) = i := by unfold entryOf; omega
  have hwide : entryOf (2 * (i / 8)) (i % 8) = i := by unfold entryOf; omega
  refine ⟨?_, ?_, ?_⟩
  · rw [extractLsb'_cfgCsrValue .rv32 S (b := i % 4) _ (Nat.mod_lt i (by decide)), hnarrow]
  · rw [extractLsb'_cfgCsrValue .rv64 S (b := i % 8) _ (Nat.mod_lt i (by decide)), hwide]
  · apply BitVec.eq_of_getLsbD_eq
    intro j hj
    simp [BitVec.getLsbD_extractLsb', getLsbD_cfgCsrValue, mxlenBits]

/-- Settles O20: the read view forces ones below bit G-1 where `A[1]` is set, and zeros below bit G where it is clear. -/
theorem addressReadViewBitByBit : Obligations.AddressReadViewBitByBit := by
  unfold Obligations.AddressReadViewBitByBit
  intro g S i k hk
  refine ⟨fun h hlow => ?_, fun h hhigh => ?_, fun h hlow => ?_, fun h hhigh => ?_⟩
  · simp [getLsbD_addrRead_of_cfgA1_true g hk h, hlow]
  · simp [getLsbD_addrRead_of_cfgA1_true g hk h, hhigh]
  · simp [getLsbD_addrRead_of_cfgA1_false g k h, Nat.not_le_of_lt hlow]
  · simp [getLsbD_addrRead_of_cfgA1_false g k h, Nat.le_of_not_lt hhigh]

end Sys2Proof.Claims
end

section
/-! PROOFS. The CSR operations: where they complete and what they store, where they are turned away; then the six CSR
instructions and the environment's own operations, which are made of them. -/

namespace Sys2Proof.Claims

open Sys2Proof.Machine

variable {s : State} {a : CsrNum}

/-- A number decodes to no PMP CSR, to no register, or to an existing CSR (R92). -/
theorem decodePmpCsr_cases (s : State) (a : CsrNum) :
    decodePmpCsr s.mxlen s.params a = .notPmp ∨ decodePmpCsr s.mxlen s.params a = .noSuchCsr ∨ CsrExists s a := by
  cases h : decodePmpCsr s.mxlen s.params a with
  | cfg c => exact .inr (.inr (.inl ⟨c, h⟩))
  | addr i => exact .inr (.inr (.inr ⟨i, h⟩))
  | noSuchCsr => exact .inr (.inl rfl)
  | notPmp => exact .inl rfl

/-- In M-mode a read of an existing CSR answers its view (R100, R101). -/
theorem csrRead_of_exists (h : CsrExists s a) : csrRead s .M a = .ok (csrView s a) := by
  obtain ⟨c, hc⟩ | ⟨i, hi⟩ := h
  · simp [csrRead, csrView, hc]
  · simp [csrRead, csrView, hi]

/-- The view of a CSR stands in MXLEN bits (R45). -/
theorem csrView_and_xlenMask (s : State) (a : CsrNum) : csrView s a &&& xlenMask s.mxlen = csrView s a := by
  unfold csrView
  split
  · exact cfgCsrValue_and_xlenMask _ _ _
  · rw [BitVec.and_assoc, BitVec.and_self]
  · exact BitVec.zero_and

/-- A CSR operation on a number of no PMP CSR is refused (R89). -/
theorem csrOps_of_notPmp (h : decodePmpCsr s.mxlen s.params a = .notPmp) (priv : Priv) (v : Word) :
    csrRead s priv a = .error (.refusal (.notPmpCsr a)) ∧ csrWrite s priv a v = .error (.refusal (.notPmpCsr a)) := by
  simp [csrRead, csrWrite, h]

/-- A CSR operation on a number without a register, or below M-mode, raises illegal-instruction (R97, R99). -/
theorem csrOps_of_illegal {priv : Priv}
    (h : decodePmpCsr s.mxlen s.params a = .noSuchCsr ∨ (CsrExists s a ∧ priv ≠ .M)) (v : Word) :
    csrRead s priv a = .error (.exception .illegalInstruction) ∧
      csrWrite s priv a v = .error (.exception .illegalInstruction) := by
  obtain hno | ⟨⟨c, hc⟩ | ⟨i, hi⟩, hpriv⟩ := h
  · simp [csrRead, csrWrite, hno]
  · simp [csrRead, csrWrite, hc, hpriv]
  · simp [csrRead, csrWrite, hi, hpriv]

/-- A configuration CSR of the width holds exactly the entries whose `CfgCsrOf` it is, at the byte `CfgByteOf` (R24). -/
theorem eq_cfgCsrOf_iff {m : Mxlen} {c : Nat} (j : Nat) (heven : m = .rv64 → c % 2 = 0) :
    c = cfgCsrOf m j ↔ 4 * c ≤ j ∧ j < 4 * c + cfgBytes m := by
  cases m with
  | rv32 => simp only [cfgCsrOf, cfgBytes, mxlenBits]; omega
  | rv64 => have := heven rfl; simp only [cfgCsrOf, cfgBytes, mxlenBits]; omega

/-- The byte position of an entry counts from the first entry of its CSR (R24). -/
theorem sub_cfgCsrOf (m : Mxlen) (j : Nat) : j - 4 * cfgCsrOf m j = cfgByteOf m j := by
  cases m <;> simp only [cfgCsrOf, cfgByteOf, cfgBytes, mxlenBits] <;> omega

/-- The byte position of an entry is one of its CSR's bytes (R24). -/
theorem cfgByteOf_lt (m : Mxlen) (j : Nat) : cfgByteOf m j < cfgBytes m :=
  Nat.mod_lt j (by cases m <;> decide)

/-- What a write of a configuration CSR stores (R105, R106, R107). -/
theorem stored_cfg {c : Nat} (v : Word) (h : decodePmpCsr s.mxlen s.params a = .cfg c) :
    Stored s (recordCurrent { s with pmp := writeCfgCsr s.mxlen s.params s.pmp c (v &&& xlenMask s.mxlen) }) a v := by
  have hindex (j : Nat) := eq_cfgCsrOf_iff j (decodePmpCsr_eq_cfg h).1
  refine ⟨by simp, fun j hj => ⟨?_, ?_, ?_, ?_⟩, fun S => by simp [mem_recordCurrent_stale]⟩
  · rintro ⟨hc, hl⟩
    have hcj : c = cfgCsrOf s.mxlen j := by simpa [h] using hc
    have hbyte := byteOfWord_and_xlenMask s.mxlen v (cfgByteOf_lt s.mxlen j)
    rw [recordCurrent_pmp, cfgAt_writeCfgCsr, if_pos ⟨hj, (hindex j).mp hcj⟩, hcj, sub_cfgCsrOf, hbyte, writeCfgByte, hl]
    rfl
  · intro hnot
    rw [recordCurrent_pmp, cfgAt_writeCfgCsr]
    split
    · rename_i hin
      have hl : cfgL (cfgAt s.pmp j) = true := by
        by_contra hl
        exact hnot ⟨by rw [h, ← (hindex j).mpr hin.2], by simpa using hl⟩
      rw [writeCfgByte, if_pos hl]
    · rfl
  · rintro ⟨haddr, -⟩
    simp [h] at haddr
  · intro _
    rw [recordCurrent_pmp, addrAt_writeCfgCsr]

/-- What a write of an address register stores (R105, R111, R112). -/
theorem stored_addr {i : Nat} (v : Word) (h : decodePmpCsr s.mxlen s.params a = .addr i) :
    Stored s (recordCurrent { s with pmp := writeAddr s.mxlen s.params s.pmp i (v &&& xlenMask s.mxlen) }) a v := by
  refine ⟨by simp, fun j hj => ⟨?_, ?_, ?_, ?_⟩, fun S => by simp [mem_recordCurrent_stale]⟩
  · rintro ⟨hcfg, -⟩
    simp [h] at hcfg
  · intro _
    rw [recordCurrent_pmp, cfgAt_writeAddr]
  · rintro ⟨haddr, hfree⟩
    have hij : i = j := by simpa [h] using haddr
    subst hij
    rw [addrFrozen_iff_addrLocked, Bool.not_eq_true] at hfree
    rw [recordCurrent_pmp, addrAt_writeAddr, if_pos ⟨rfl, hj, hfree⟩]
  · intro hnot
    rw [recordCurrent_pmp, addrAt_writeAddr]
    refine if_neg fun hin => hnot ⟨by rw [h, hin.1], ?_⟩
    rw [addrFrozen_iff_addrLocked, hin.1, hin.2.2]
    exact Bool.false_ne_true

/-- Recording the current settings touches nothing but `stale` (R105). -/
theorem recordCurrent_eq (u : State) : ∃ l, recordCurrent u = { u with stale := l } := by
  unfold recordCurrent
  split
  · exact ⟨_, rfl⟩
  · exact ⟨u.stale, rfl⟩

/-- In M-mode a write of an existing CSR completes: it stores as R105 says and touches nothing but the settings and
`stale` (R105, R116). -/
theorem csrWrite_of_exists (v : Word) (h : CsrExists s a) :
    ∃ T l, csrWrite s .M a v = .ok { s with pmp := T, stale := l } ∧ Stored s { s with pmp := T, stale := l } a v := by
  obtain ⟨c, hc⟩ | ⟨i, hi⟩ := h
  · have hst := stored_cfg v hc
    obtain ⟨l, hl⟩ := recordCurrent_eq { s with pmp := writeCfgCsr s.mxlen s.params s.pmp c (v &&& xlenMask s.mxlen) }
    rw [hl] at hst
    exact ⟨_, l, by simp [csrWrite, hc, hl], hst⟩
  · have hst := stored_addr v hi
    obtain ⟨l, hl⟩ := recordCurrent_eq { s with pmp := writeAddr s.mxlen s.params s.pmp i (v &&& xlenMask s.mxlen) }
    rw [hl] at hst
    exact ⟨_, l, by simp [csrWrite, hi, hl], hst⟩

/-- The end of a CSR instruction, one register written and the pc advanced, touches nothing else (R119). -/
theorem csrFrame_advancePc_writeReg (s : State) (T : Settings) (l : List Settings) (rd : RegNum) (w : Word) :
    CsrFrame rd s (advancePc (writeReg { s with pmp := T, stale := l } rd w)) := by
  refine ⟨fun r hr => ?_, by simp, by simp, by simp, by simp, by simp, by simp, by simp, by simp, by simp, by simp,
    by simp, by simp, by simp, by simp, by simp⟩
  rw [readReg_advancePc, readReg_writeReg_other _ _ _ _ hr]
  rfl

/-- The end of a CSR instruction leaves what its write stored. -/
theorem stored_advancePc_writeReg {u : State} {v : Word} (rd : RegNum) (w : Word) (h : Stored s u a v) :
    Stored s (advancePc (writeReg u rd w)) a v := by
  simpa only [Stored, advancePc_pmp, advancePc_stale, writeReg_pmp, writeReg_stale] using h

/-- The destination register of a CSR instruction holds the old view (R119). -/
theorem readReg_csrView (T : Settings) (l : List Settings) {rd : RegNum} (hrd : rd ≠ 0#5) :
    readReg (advancePc (writeReg { s with pmp := T, stale := l } rd (csrView s a))) rd = csrView s a := by
  rw [readReg_advancePc, readReg_writeReg_self _ _ _ hrd]
  exact csrView_and_xlenMask s a

/-- Where and how CSRRW and CSRRWI complete (R119, R120, R123). -/
theorem csrSwap_completes (rd : RegNum) (v : Word) (hM : s.hart.priv = .M) (h : CsrExists s a) :
    ∃ t, settle s (csrSwap s rd a v) = .next t ∧ (rd ≠ 0#5 → readReg t rd = csrView s a) ∧ Stored s t a v ∧
      CsrFrame rd s t := by
  obtain ⟨T, l, hw, hst⟩ := csrWrite_of_exists v h
  by_cases hrd : rd = 0#5
  · refine ⟨advancePc (writeReg { s with pmp := T, stale := l } rd 0#64), ?_, fun hne => absurd hrd hne,
      stored_advancePc_writeReg rd _ hst, csrFrame_advancePc_writeReg s T l rd _⟩
    simp [settle, csrSwap, hrd, hM, hw]
  · refine ⟨advancePc (writeReg { s with pmp := T, stale := l } rd (csrView s a)), ?_, readReg_csrView T l,
      stored_advancePc_writeReg rd _ hst, csrFrame_advancePc_writeReg s T l rd _⟩
    simp [settle, csrSwap, hrd, hM, csrRead_of_exists h, hw]

/-- Where and how CSRRS, CSRRC and their immediate forms complete, src being the register number or the immediate that
decides whether they write (R119, R121, R122, R124, R125). -/
theorem csrModify_completes (rd : RegNum) (src : BitVec 5) (f : Word → Word) (hM : s.hart.priv = .M)
    (h : CsrExists s a) :
    ∃ t, settle s (csrModify s rd a (decide (src ≠ 0#5)) f) = .next t ∧ (rd ≠ 0#5 → readReg t rd = csrView s a) ∧
      (src ≠ 0#5 → Stored s t a (f (csrView s a))) ∧ (src = 0#5 → NothingStored s t) ∧ CsrFrame rd s t := by
  by_cases hsrc : src = 0#5
  · refine ⟨advancePc (writeReg s rd (csrView s a)), ?_, readReg_csrView s.pmp s.stale, fun hne => absurd hsrc hne,
      fun _ => ⟨by simp, by simp⟩, csrFrame_advancePc_writeReg s s.pmp s.stale rd _⟩
    simp [settle, csrModify, hsrc, hM, csrRead_of_exists h]
  · obtain ⟨T, l, hw, hst⟩ := csrWrite_of_exists (f (csrView s a)) h
    refine ⟨advancePc (writeReg { s with pmp := T, stale := l } rd (csrView s a)), ?_, readReg_csrView T l,
      fun _ => stored_advancePc_writeReg rd _ hst, fun h0 => absurd h0 hsrc, csrFrame_advancePc_writeReg s T l rd _⟩
    simp [settle, csrModify, hsrc, hM, csrRead_of_exists h, hw]

/-- Where CSRRW and CSRRWI are turned away (R89, R97, R99, R119). -/
theorem turnedAway_csrSwap {i : Instr} {rd : RegNum} {v : Word} (hi : exec i s = settle s (csrSwap s rd a v)) :
    TurnedAway i a s := by
  constructor
  · intro h
    obtain ⟨hr, hw⟩ := csrOps_of_notPmp h s.hart.priv v
    by_cases hrd : rd = 0#5 <;> simp [hi, settle, csrSwap, hrd, hr, hw]
  · intro h
    obtain ⟨hr, hw⟩ := csrOps_of_illegal h v
    by_cases hrd : rd = 0#5 <;> simp [hi, settle, csrSwap, hrd, hr, hw, raiseException]

/-- Where CSRRS, CSRRC and their immediate forms are turned away (R89, R97, R99, R119). -/
theorem turnedAway_csrModify {i : Instr} {rd : RegNum} {writes : Bool} {f : Word → Word}
    (hi : exec i s = settle s (csrModify s rd a writes f)) : TurnedAway i a s := by
  constructor
  · intro h
    simp [hi, settle, csrModify, (csrOps_of_notPmp h s.hart.priv 0#64).1]
  · intro h
    simp [hi, settle, csrModify, (csrOps_of_illegal h 0#64).1, raiseException]

/-- The CSR number of the register that holds an implemented entry decodes to it (R24, R92). -/
theorem decodePmpCsr_cfgCsrOf (m : Mxlen) {p : Config} {j : Nat} (hj : j < entryTotal p) :
    decodePmpCsr m p (pmpcfgNum (cfgCsrOf m j)) = .cfg (cfgCsrOf m j) := by
  have hN := entryTotal_le p
  have hbound : cfgCsrOf m j < 16 ∧ ¬(m = .rv64 ∧ cfgCsrOf m j % 2 = 1) ∧ 4 * cfgCsrOf m j < entryTotal p := by
    cases m <;> simp [cfgCsrOf, cfgBytes, mxlenBits] <;> omega
  obtain ⟨hc, hin⟩ := hbound
  rw [decodePmpCsr_pmpcfgNum m p hc, if_pos hin]

/-- With virtual memory a check uses a settings value that may still be used (R166). -/
theorem checkSettings_mem (hvm : s.params.hasVm = true) (h : s.stale ≠ []) (k : Nat) :
    checkSettings s k ∈ s.stale := by
  rw [(checkSettings_spec s k).2 hvm]
  exact pickOne_mem _ _ h

/-- Where SFENCE.VMA raises illegal-instruction (R170). -/
theorem exec_sfenceVma_illegal (rs1 rs2 : RegNum) (h : fenceIllegal s.hart = true) :
    exec (.sfenceVma rs1 rs2) s = .next (raiseException .illegalInstruction s) := by
  simp [exec, execSfenceVma, h, settle]

/-- SFENCE.VMA x0, x0 where it is legal (R168, R170). -/
theorem exec_sfenceVma_all (h : fenceIllegal s.hart = false) :
    exec (.sfenceVma 0#5 0#5) s = .next (advancePc (sfenceVmaAll s)) := by
  simp [exec, execSfenceVma, h, settle]

/-- The other forms of SFENCE.VMA where they are legal (R171). -/
theorem exec_sfenceVma_other {rs1 rs2 : RegNum} (h : fenceIllegal s.hart = false) (hne : ¬(rs1 = 0#5 ∧ rs2 = 0#5)) :
    exec (.sfenceVma rs1 rs2) s = .next (advancePc s) := by
  simp [exec, execSfenceVma, h, hne, settle]

end Sys2Proof.Claims

namespace Sys2Proof.Claims

open Sys2Proof.Machine

/-- Settles O10: CSRRW is the shared swap with the register's value. -/
theorem csrrwWritesRegisterAndReturnsOldView : Obligations.CsrrwWritesRegisterAndReturnsOldView := by
  unfold Obligations.CsrrwWritesRegisterAndReturnsOldView
  intro s rd a rs1
  exact ⟨csrSwap_completes rd (readReg s rs1), turnedAway_csrSwap rfl⟩

/-- Settles O11: CSRRS is the shared modification that sets the register's bits. -/
theorem csrrsReadsAndSetsBits : Obligations.CsrrsReadsAndSetsBits := by
  unfold Obligations.CsrrsReadsAndSetsBits
  intro s rd a rs1
  exact ⟨csrModify_completes rd rs1 fun t => t ||| readReg s rs1, turnedAway_csrModify rfl⟩

/-- Settles O12: CSRRC is the shared modification that clears the register's bits. -/
theorem csrrcReadsAndClearsBits : Obligations.CsrrcReadsAndClearsBits := by
  unfold Obligations.CsrrcReadsAndClearsBits
  intro s rd a rs1
  exact ⟨csrModify_completes rd rs1 fun t => t &&& ~~~(readReg s rs1), turnedAway_csrModify rfl⟩

/-- Settles O13: CSRRWI is the shared swap with the zero-extended immediate. -/
theorem csrrwiWritesImmediateAndReturnsOldView : Obligations.CsrrwiWritesImmediateAndReturnsOldView := by
  unfold Obligations.CsrrwiWritesImmediateAndReturnsOldView
  intro s rd a u
  exact ⟨csrSwap_completes rd (zextUimm u), turnedAway_csrSwap rfl⟩

/-- Settles O14: CSRRSI is the shared modification that sets the immediate's bits. -/
theorem csrrsiReadsAndSetsImmediateBits : Obligations.CsrrsiReadsAndSetsImmediateBits := by
  unfold Obligations.CsrrsiReadsAndSetsImmediateBits
  intro s rd a u
  exact ⟨csrModify_completes rd u fun t => t ||| zextUimm u, turnedAway_csrModify rfl⟩

/-- Settles O15: CSRRCI is the shared modification that clears the immediate's bits. -/
theorem csrrciReadsAndClearsImmediateBits : Obligations.CsrrciReadsAndClearsImmediateBits := by
  unfold Obligations.CsrrciReadsAndClearsImmediateBits
  intro s rd a u
  exact ⟨csrModify_completes rd u fun t => t &&& ~~~(zextUimm u), turnedAway_csrModify rfl⟩

/-- Settles O3: the environment's operations are `CsrRead` and `CsrWrite` in the hart's mode, and their reply. -/
theorem environmentCsrOperationsAnswerOrRaise : Obligations.EnvironmentCsrOperationsAnswerOrRaise := by
  unfold Obligations.EnvironmentCsrOperationsAnswerOrRaise
  intro s a v rest
  refine ⟨fun hp => ⟨fun h => ?_, fun h => ?_⟩, fun hp h hM => ?_, fun hp h hM => ?_⟩
  · obtain ⟨hr, hw⟩ := csrOps_of_notPmp (s := { s with pending := rest }) h s.hart.priv v
    obtain hp | hp := hp
    · simp [step, hp, runEnv, envCsrRead, hr, replyStop]
    · simp [step, hp, runEnv, envCsrWrite, hw, replyStop]
  · obtain ⟨hr, hw⟩ := csrOps_of_illegal (s := { s with pending := rest }) h v
    obtain hp | hp := hp
    · simp [step, hp, runEnv, envCsrRead, hr, replyStop, replyRaised, raiseException]
    · simp [step, hp, runEnv, envCsrWrite, hw, replyStop, replyRaised, raiseException]
  · have hr := csrRead_of_exists (s := { s with pending := rest }) h
    simp only [step, hp, runEnv, envCsrRead, hM, hr]
    rfl
  · obtain ⟨T, l, hw, hst⟩ := csrWrite_of_exists (s := { s with pending := rest }) v h
    refine ⟨{ s with pmp := T, stale := l, pending := rest, reply := .done }, ?_, hst, rfl, rfl, rfl, rfl, fun _ => rfl,
      rfl, rfl, rfl, rfl, rfl⟩
    simp only [step, hp, runEnv, envCsrWrite, hM, hw]

/-- Settles O16: the mode and TVM decide whether the fence is legal, the register numbers whether `stale` is emptied. -/
theorem sfenceVmaEmptiesStale : Obligations.SfenceVmaEmptiesStale := by
  unfold Obligations.SfenceVmaEmptiesStale
  intro s rs1 rs2
  refine ⟨fun hlow => ?_, fun hlegal => ?_⟩
  · exact exec_sfenceVma_illegal rs1 rs2 (by obtain h | ⟨h, htvm⟩ := hlow <;> simp [fenceIllegal, *])
  · have hf := (fenceIllegal_eq_false_iff s.hart).mpr hlegal
    refine ⟨?_, exec_sfenceVma_other hf⟩
    rintro ⟨rfl, rfl⟩
    exact exec_sfenceVma_all hf

/-- Settles O17: the register file's read-after-write laws. -/
theorem registerFileHardwiresX0 : Obligations.RegisterFileHardwiresX0 := by
  unfold Obligations.RegisterFileHardwiresX0
  intro s r q v
  exact ⟨readReg_zero s, writeReg_zero s v, readReg_writeReg_self s r v, readReg_writeReg_other s r q v⟩

/-- Settles O21: a write stores nothing in a locked entry, whose address register is frozen; in an unlocked one a legal byte
is stored as written. -/
theorem lockedConfigurationByteIgnoresWrites : Obligations.LockedConfigurationByteIgnoresWrites := by
  unfold Obligations.LockedConfigurationByteIgnoresWrites
  intro s j v hj hN
  refine ⟨fun hl a ha => ?_, fun hl hw hlegal => ?_⟩
  · obtain ⟨T, l, hok, -, hst, -⟩ := csrWrite_of_exists v ha
    obtain ⟨-, hcfg, -, haddr⟩ := hst j hj
    exact ⟨_, hok, hcfg (by simp [hl]), haddr fun h => h.2 (.inl hl)⟩
  · have hdec := decodePmpCsr_cfgCsrOf s.mxlen hN
    obtain ⟨T, l, hok, -, hst, -⟩ := csrWrite_of_exists v (.inl ⟨_, hdec⟩)
    refine ⟨_, hok, ?_⟩
    rw [(hst j hj).1 ⟨hdec, hl⟩, legalCfg_of_legal _ _ _ _ hw hlegal]

/-- Settles O26: the write completes, changes neither the width nor the parameters, and records the new settings. -/
theorem machineModeCsrWriteNeverRaises : Obligations.MachineModeCsrWriteNeverRaises := by
  unfold Obligations.MachineModeCsrWriteNeverRaises
  intro s a v ha
  obtain ⟨T, l, hok, -, -, hstale⟩ := csrWrite_of_exists v ha
  refine ⟨_, hok, rfl, rfl, csrRead_of_exists (s := { s with pmp := T, stale := l }) ha,
    fun hvm k => (checkSettings_spec _ k).1 hvm, fun hvm => ?_⟩
  have hmem : T ∈ l := (hstale T).mpr (.inr ⟨hvm, rfl⟩)
  exact ⟨hmem, fun k => checkSettings_mem (s := { s with pmp := T, stale := l }) hvm (List.ne_nil_of_mem hmem) k⟩

end Sys2Proof.Claims
end

section
/-! PROOFS. What one step can do to the PMP, said once; then the invariant and the rules about every step, which follow. -/

namespace Sys2Proof.Machine

/-- The two states agree in what the invariant and the PMP's rules speak of: the parameters, the width, the settings and
`stale`; and memory stays in canonical form. -/
structure SamePmp (s t : State) : Prop where
  params : t.params = s.params
  mxlen : t.mxlen = s.mxlen
  pmp : t.pmp = s.pmp
  stale : t.stale = s.stale
  mem : Memory.wf s.mem = true → Memory.wf t.mem = true

/-- The invariant holds of a state with the same PMP. -/
theorem SamePmp.inv {s t : State} (h : SamePmp s t) (hI : State.Inv s) : State.Inv t :=
  inv_congr hI h.params h.mxlen h.pmp h.stale h.mem

/-- A fetch leaves the PMP as it is. -/
theorem samePmp_drawn {s : State} {m : Memory} (h : FetchMem s m) : SamePmp s (drawn s m) := ⟨rfl, rfl, rfl, rfl, h.1⟩

/-- A fetch that gives bytes gives four (R85). -/
theorem length_of_fetch_bytes {s : State} {l : List Byte} {m : Memory} (h : fetch s = .bytes l m) : l.length = 4 := by
  unfold fetch at h
  split at h
  · cases h
  · split at h
    · cases h
    · dsimp only at h
      split at h
      · split at h
        · cases h
        · split at h
          · cases h
          · cases h
            exact length_readBytes _ _ 4
      · cases h

/-- The bytes of an instruction decode to it (R85 to R87). -/
theorem decodeFetched_encode (i : Instr) : decodeFetched (encode i) = .ok i := by
  have hd : decode (encode i) = .ok (i, []) := by
    have h := decode_bytesOfWord [] (decodeWord_encodeWord i)
    rwa [List.append_nil] at h
  simp only [decodeFetched, hd]

/-- Four bytes that decode to an instruction are the bytes of its word (R87). -/
theorem eq_encode_of_decodeFetched {l : List Byte} {i : Instr} (hl : l.length = 4) (h : decodeFetched l = .ok i) :
    l = encode i := by
  obtain ⟨b0, b1, b2, b3, rfl⟩ : ∃ b0 b1 b2 b3, l = [b0, b1, b2, b3] := by
    match l, hl with
    | [b0, b1, b2, b3], _ => exact ⟨b0, b1, b2, b3, rfl⟩
  have hw : decodeWord (wordOfBytes b0 b1 b2 b3) = .ok i := by
    unfold decodeFetched decode at h
    dsimp only at h
    cases hd : decodeWord (wordOfBytes b0 b1 b2 b3) with
    | ok j => rw [hd] at h; simpa using h
    | error e => rw [hd] at h; cases h
  rw [encode, encodeWord_of_decodeWord hw, bytesOfWord_wordOfBytes]

/-- `CsrWrite` leaves a locked configuration byte as it is (R107). -/
theorem cfgAt_csrWrite_of_locked {s t : State} {priv : Priv} {a : CsrNum} {v : Word} {i : Nat}
    (h : csrWrite s priv a v = .ok t) (hl : cfgL (cfgAt s.pmp i) = true) : cfgAt t.pmp i = cfgAt s.pmp i := by
  obtain ⟨c, -, rfl⟩ | ⟨j, -, rfl⟩ := (csrWrite_ok h).2
  · rw [recordCurrent_pmp, cfgAt_writeCfgCsr]
    split
    · rw [writeCfgByte, if_pos hl]
    · rfl
  · rw [recordCurrent_pmp, cfgAt_writeAddr]

/-- `CsrWrite` leaves an address register as it is where it is frozen or the entry is hardwired (R110, R112). -/
theorem addrAt_csrWrite_of_fixed {s t : State} {priv : Priv} {a : CsrNum} {v : Word} {i : Nat}
    (h : csrWrite s priv a v = .ok t)
    (hfix : addrLocked s.params s.pmp i = true ∨ (entryParams s.params i).hardwired ≠ none) :
    addrAt t.pmp i = addrAt s.pmp i := by
  obtain ⟨c, -, rfl⟩ | ⟨j, -, rfl⟩ := (csrWrite_ok h).2
  · rw [recordCurrent_pmp, addrAt_writeCfgCsr]
  · rw [recordCurrent_pmp, addrAt_writeAddr]
    split
    · rename_i hin
      obtain ⟨rfl, -, hfree⟩ := hin
      obtain hlock | hw := hfix
      · rw [hlock] at hfree; cases hfree
      · exact (legalAddr_spec s.mxlen s.params i _ _).1 hw
    · rfl

/-- A change of MXLEN keeps every configuration byte (R118). -/
theorem cfgAt_setMxlen (s : State) (m : Mxlen) (i : Nat) : cfgAt (setMxlen s m).pmp i = cfgAt s.pmp i := by
  simp only [setMxlen, recordCurrent_pmp, cfgAt, List.getD_eq_getElem?_getD, List.getElem?_map]
  cases s.pmp[i]? <;> rfl

/-- A change of MXLEN keeps the address bits that both widths have (R117). -/
theorem addrAt_setMxlen (s : State) (m : Mxlen) (i : Nat) :
    addrAt (setMxlen s m).pmp i = addrAt s.pmp i &&& xlenMask s.mxlen &&& xlenMask m := by
  simp only [setMxlen, recordCurrent_pmp, addrAt, List.getD_eq_getElem?_getD, List.getElem?_map]
  cases s.pmp[i]? with
  | none => simp
  | some e => rfl

/-- The memory that a fetch leaves is as before but for its updates of page-table entries (R163). -/
theorem FetchMem.frame {s : State} {m : Memory} (h : FetchMem s m) :
    (∀ q, (∀ a ∈ fetchWalk s, ¬WritesTo .fetch a q) → readByte m q = readByte s.mem q) ∧
      (fetchWalk s = [] → m = s.mem) := by
  obtain ⟨-, vs, hvs, rfl⟩ := h
  obtain ⟨done, -, -, hdone⟩ := accessedMem_spec s .fetch (checkAll_ok hvs).1
  refine ⟨fun q hq => ?_, fun hw => accessedMem_fetch_of_no_walk hw vs⟩
  exact (performed_fetchWalk hdone).1 q fun j a ha _ => hq a (List.mem_of_getElem? ha)

end Sys2Proof.Machine

namespace Sys2Proof.Claims

open Sys2Proof.Machine

/-- A completed `CsrWrite` touches nothing but the settings and `stale` (R105). -/
theorem csrWrite_eq {s t : State} {priv : Priv} {a : CsrNum} {v : Word} (h : csrWrite s priv a v = .ok t) :
    ∃ T l, t = { s with pmp := T, stale := l } := by
  obtain ⟨c, -, rfl⟩ | ⟨i, -, rfl⟩ := (csrWrite_ok h).2
  · exact ⟨_, recordCurrent_eq { s with pmp := writeCfgCsr s.mxlen s.params s.pmp c (v &&& xlenMask s.mxlen) }⟩
  · exact ⟨_, recordCurrent_eq { s with pmp := writeAddr s.mxlen s.params s.pmp i (v &&& xlenMask s.mxlen) }⟩

/-- Which operations of the environment renew the settings a check may use (R168, R194). -/
theorem renewsSettings_iff_of_pending {s : State} {op : EnvOp} {rest : List EnvOp} (hp : s.pending = op :: rest) :
    RenewsSettings s ↔ (∃ draws h, op = .reset draws h) ∨ op = .sfenceVmaAll := by
  simp [RenewsSettings, hp]

/-- Which instructions renew the settings a check may use (R168, R170). -/
theorem renewsSettings_iff_of_not_pending {s : State} (hp : s.pending = []) :
    RenewsSettings s ↔ (∃ m, fetch s = .bytes (encode (.sfenceVma 0#5 0#5)) m) ∧
      (s.hart.priv = .M ∨ (s.hart.priv = .S ∧ s.hart.tvm = false)) := by
  simp [RenewsSettings, hp]

/-- What a step can do to the PMP. The state `b` is s but for what the step does before the operation: taking it from the
queue, or fetching the instruction. -/
inductive PmpEffect (s t : State) : Prop where
  /-- Nothing. -/
  | kept (hR : ¬RenewsSettings s) (ht : SamePmp s t)
  /-- One `CsrWrite`, in M-mode. -/
  | written {b u : State} {a : CsrNum} {v : Word} (hR : ¬RenewsSettings s) (hM : s.hart.priv = .M) (hb : SamePmp s b)
      (hw : csrWrite b .M a v = .ok u) (ht : SamePmp u t)
  /-- A fence of all. -/
  | fenced {b : State} (hR : RenewsSettings s) (hb : SamePmp s b) (ht : SamePmp (sfenceVmaAll b) t)
  /-- A reset. -/
  | reset {b : State} {draws : List ResetDraw} {h : Hart} (hR : RenewsSettings s) (hn : resetIsNext s = true)
      (hb : SamePmp s b) (ht : SamePmp (resetUnit b draws h) t)
  /-- A change of MXLEN. -/
  | resized {b : State} {m : Mxlen} (hR : ¬RenewsSettings s) (hn : mxlenChangeIsNext s = true)
      (hg : b.params.grain < addrBits m) (hb : SamePmp s b) (ht : SamePmp (setMxlen b m) t)

/-- The PMP after an operation of the environment. -/
theorem pmpEffect_of_runEnv {s t : State} {op : EnvOp} {rest : List EnvOp} (hp : s.pending = op :: rest)
    (h : runEnv op { s with pending := rest } = .next t) : PmpEffect s t := by
  have hR := renewsSettings_iff_of_pending hp
  have hb : SamePmp s { s with pending := rest } := ⟨rfl, rfl, rfl, rfl, id⟩
  have accesses {m : MemInstr} (h : envAccesses { s with pending := rest } m = .next t) : SamePmp s t := by
    obtain ⟨vs, -, rfl⟩ := envAccesses_next h
    obtain ⟨h1, h2, h3, h4, -, -, -, -, h9⟩ := performInstr_fields { s with pending := rest } m vs
    exact ⟨h1, h2, h3, h4, h9⟩
  cases op with
  | csrRead a =>
    refine .kept (by simp [hR]) ?_
    obtain rfl | ⟨-, v, -, rfl⟩ := envCsrRead_next h <;> exact ⟨rfl, rfl, rfl, rfl, id⟩
  | csrWrite a v =>
    obtain rfl | ⟨hM, u, hw, rfl⟩ := envCsrWrite_next h
    · exact .kept (by simp [hR]) ⟨rfl, rfl, rfl, rfl, id⟩
    · exact .written (by simp [hR]) hM hb hw ⟨rfl, rfl, rfl, rfl, id⟩
  | pmpCheck S y n ty p =>
    refine .kept (by simp [hR]) ?_
    simp only [runEnv, envPmpCheck] at h
    split at h <;> cases h
    exact ⟨rfl, rfl, rfl, rfl, id⟩
  | reference r => exact .kept (by simp [hR]) (accesses (envReference_next h))
  | accesses m => exact .kept (by simp [hR]) (accesses h)
  | sfenceVmaAll =>
    cases h
    exact .fenced (by simp [hR]) hb ⟨rfl, rfl, rfl, rfl, id⟩
  | reset draws hart =>
    cases h
    exact .reset (h := hart) (by simp [hR]) (by simp [resetIsNext, hp]) hb ⟨rfl, rfl, rfl, rfl, id⟩
  | setMxlen m =>
    simp only [runEnv, envSetMxlen] at h
    split at h <;> cases h
    exact .resized (by simp [hR]) (by simp [mxlenChangeIsNext, hp]) ‹_› hb ⟨rfl, rfl, rfl, rfl, id⟩
  | hart hart =>
    cases h
    exact .kept (by simp [hR]) ⟨rfl, rfl, rfl, rfl, id⟩
  | foreignWrite y data =>
    refine .kept (by simp [hR]) ?_
    simp only [runEnv, envForeignWrite] at h
    split at h <;> cases h
    exact ⟨rfl, rfl, rfl, rfl, wf_writeBytes y data⟩
  | pmas noFetch =>
    cases h
    exact .kept (by simp [hR]) ⟨rfl, rfl, rfl, rfl, id⟩
  | translations l =>
    cases h
    exact .kept (by simp [hR]) ⟨rfl, rfl, rfl, rfl, id⟩

/-- The PMP after an instruction: SFENCE.VMA x0, x0 where it is legal fences, and any other can only write a CSR in M-mode. -/
theorem pmpEffect_of_stepInstr {s t : State} (hp : s.pending = []) (h : stepInstr s = .next t) : PmpEffect s t := by
  obtain ⟨m, hm, hcase⟩ := stepInstr_next h
  have hb := samePmp_drawn hm
  by_cases hR : RenewsSettings s
  · obtain ⟨⟨m', hf⟩, hmode⟩ : (∃ m', fetch s = .bytes (encode (.sfenceVma 0#5 0#5)) m') ∧
        (s.hart.priv = .M ∨ (s.hart.priv = .S ∧ s.hart.tvm = false)) := by simpa [RenewsSettings, hp] using hR
    have hlegal := (fenceIllegal_eq_false_iff (drawn s m').hart).mpr hmode
    simp only [stepInstr, hf, decodeFetched_encode, exec_sfenceVma_all hlegal] at h
    cases h
    exact .fenced hR (samePmp_drawn (fetch_mem (.inr ⟨_, hf⟩))) ⟨rfl, rfl, rfl, rfl, id⟩
  · obtain rfl | ⟨l, i, hf, hi, hx⟩ := hcase
    · exact .kept hR ⟨rfl, rfl, rfl, rfl, hb.mem⟩
    · obtain rfl | ⟨rfl, hlegal, -⟩ | ⟨-, u, rd, v, hu, rfl⟩ := exec_next hx
      · exact .kept hR ⟨rfl, rfl, rfl, rfl, hb.mem⟩
      · have hl := eq_encode_of_decodeFetched (length_of_fetch_bytes hf) hi
        have hmode := (fenceIllegal_eq_false_iff s.hart).mp hlegal
        exact absurd ((renewsSettings_iff_of_not_pending hp).mpr ⟨⟨m, hl ▸ hf⟩, hmode⟩) hR
      · have ht : SamePmp u (advancePc (writeReg u rd v)) := ⟨by simp, by simp, by simp, by simp, by simp⟩
        obtain rfl | ⟨hM, a, w, hw⟩ := hu
        · exact .kept hR ⟨ht.params, ht.mxlen, ht.pmp, ht.stale, fun h => ht.mem (hb.mem h)⟩
        · exact .written hR hM hb hw ht

/-- The PMP after any step that answers a next state. -/
theorem pmpEffect_of_step {s t : State} (h : step s = .next t) : PmpEffect s t := by
  obtain ⟨op, rest, hp, hop⟩ | ⟨hp, -, hinstr⟩ := step_next h
  · exact pmpEffect_of_runEnv hp hop
  · exact pmpEffect_of_stepInstr hp hinstr

/-- The invariant after whatever a step does to the PMP (R196). -/
theorem PmpEffect.inv {s t : State} (h : PmpEffect s t) (hI : State.Inv s) : State.Inv t := by
  cases h with
  | kept _ ht => exact ht.inv hI
  | written _ _ hb hw ht => exact ht.inv (inv_csrWrite (hb.inv hI) hw)
  | fenced _ hb ht => exact ht.inv (inv_sfenceVmaAll (hb.inv hI))
  | reset _ _ hb ht => exact ht.inv (inv_resetUnit _ _ (hb.inv hI))
  | resized _ _ hg hb ht => exact ht.inv (inv_setMxlen hg (hb.inv hI))

/-- No step changes the parameters (R8). -/
theorem PmpEffect.params {s t : State} (h : PmpEffect s t) : t.params = s.params := by
  cases h with
  | kept _ ht => exact ht.params
  | written _ _ hb hw ht =>
    obtain ⟨T, l, rfl⟩ := csrWrite_eq hw
    exact ht.params.trans hb.params
  | fenced _ hb ht => exact ht.params.trans hb.params
  | reset _ _ hb ht => exact ht.params.trans hb.params
  | resized _ _ _ hb ht => exact ht.params.trans ((recordCurrent_params _).trans hb.params)

/-- A step other than a reset leaves a locked configuration byte as it is (R107, R189). -/
theorem PmpEffect.cfgAt_of_locked {s t : State} {i : Nat} (h : PmpEffect s t) (hr : resetIsNext s = false)
    (hl : cfgL (cfgAt s.pmp i) = true) : cfgAt t.pmp i = cfgAt s.pmp i := by
  cases h with
  | kept _ ht => rw [ht.pmp]
  | written _ _ hb hw ht => rw [ht.pmp, cfgAt_csrWrite_of_locked hw (by rwa [hb.pmp]), hb.pmp]
  | fenced _ hb ht => rw [ht.pmp, sfenceVmaAll_pmp, hb.pmp]
  | reset _ hn _ _ => rw [hr] at hn; cases hn
  | resized _ _ _ hb ht => rw [ht.pmp, cfgAt_setMxlen, hb.pmp]

/-- A step other than a reset or a change of MXLEN leaves an address register as it is where it is frozen or the entry is
hardwired (R110, R112, R189). -/
theorem PmpEffect.addrAt_of_fixed {s t : State} {i : Nat} (h : PmpEffect s t) (hr : resetIsNext s = false)
    (hx : mxlenChangeIsNext s = false)
    (hfix : addrLocked s.params s.pmp i = true ∨ (entryParams s.params i).hardwired ≠ none) :
    addrAt t.pmp i = addrAt s.pmp i := by
  cases h with
  | kept _ ht => rw [ht.pmp]
  | written _ _ hb hw ht => rw [ht.pmp, addrAt_csrWrite_of_fixed hw (by rwa [hb.params, hb.pmp]), hb.pmp]
  | fenced _ hb ht => rw [ht.pmp, sfenceVmaAll_pmp, hb.pmp]
  | reset _ hn _ _ => rw [hr] at hn; cases hn
  | resized _ hn _ _ _ => rw [hx] at hn; cases hn

/-- Below M-mode a step other than a reset or a change of MXLEN leaves the settings as they are, and `stale` too unless it
renews it (R97, R189). -/
theorem PmpEffect.of_lower {s t : State} (h : PmpEffect s t) (hpriv : s.hart.priv ≠ .M) (hr : resetIsNext s = false)
    (hx : mxlenChangeIsNext s = false) :
    t.pmp = s.pmp ∧ (t.stale = s.stale ∨ (RenewsSettings s ∧ t.stale = [s.pmp])) := by
  cases h with
  | kept _ ht => exact ⟨ht.pmp, .inl ht.stale⟩
  | written _ hM _ _ _ => exact absurd hM hpriv
  | fenced hR hb ht => exact ⟨ht.pmp.trans hb.pmp, .inr ⟨hR, by rw [ht.stale, sfenceVmaAll_stale, hb.pmp]⟩⟩
  | reset _ hn _ _ => rw [hr] at hn; cases hn
  | resized _ hn _ _ _ => rw [hx] at hn; cases hn

/-- After a record with virtual memory `stale` is what it was with the current settings added (R43, R105). -/
theorem mem_stale_of_recordCurrent {s u t : State} (ht : SamePmp (recordCurrent u) t) (hvm : u.params.hasVm = true)
    (hs : u.stale = s.stale) (S : Settings) : S ∈ t.stale ↔ S ∈ s.stale ∨ S = t.pmp := by
  rw [ht.stale, ht.pmp, recordCurrent_pmp, mem_recordCurrent_stale, hs]
  simp [hvm]

/-- What a step does to `stale`, with virtual memory (R166, R168, R194). -/
theorem PmpEffect.stale {s t : State} (h : PmpEffect s t) (hvm : s.params.hasVm = true) (hmem : s.pmp ∈ s.stale) :
    (RenewsSettings s → t.stale = [t.pmp]) ∧
      (¬RenewsSettings s → ∀ S, S ∈ t.stale ↔ S ∈ s.stale ∨ S = t.pmp) := by
  cases h with
  | kept hR ht =>
    refine ⟨fun h => absurd h hR, fun _ S => ?_⟩
    rw [ht.stale, ht.pmp]
    exact ⟨.inl, fun h => h.elim id fun hS => hS ▸ hmem⟩
  | written hR _ hb hw ht =>
    refine ⟨fun h => absurd h hR, fun _ S => ?_⟩
    obtain ⟨c, -, rfl⟩ | ⟨i, -, rfl⟩ := (csrWrite_ok hw).2 <;>
      exact mem_stale_of_recordCurrent ht (by simp [hb.params, hvm]) hb.stale S
  | fenced hR _ ht => exact ⟨fun _ => by rw [ht.stale, ht.pmp]; rfl, fun h => absurd hR h⟩
  | reset hR _ _ ht => exact ⟨fun _ => by rw [ht.stale, ht.pmp]; rfl, fun h => absurd hR h⟩
  | resized hR _ _ hb ht =>
    exact ⟨fun h => absurd h hR, fun _ => mem_stale_of_recordCurrent ht (by simp [hb.params, hvm]) hb.stale⟩

/-- A CSR instruction that answers a next state below M-mode has raised illegal-instruction (R97). -/
theorem raised_of_turnedAway {i : Instr} {a : CsrNum} {s t : State} (hT : TurnedAway i a s) (hpriv : s.hart.priv ≠ .M)
    (h : exec i s = .next t) : t.raised ≠ none := by
  obtain ⟨hnot, hillegal⟩ := hT
  obtain hn | hn := decodePmpCsr_cases s a
  · rw [hnot hn] at h; cases h
  · rw [hillegal (hn.imp id fun h => ⟨h, hpriv⟩)] at h
    cases h
    simp

/-- An instruction that completes below M-mode is an SFENCE.VMA (R97, R189). -/
theorem sfenceVma_of_exec_lower {i : Instr} {s t : State} (hpriv : s.hart.priv ≠ .M) (h : exec i s = .next t) :
    t.raised ≠ none ∨ ∃ rs1 rs2, i = .sfenceVma rs1 rs2 := by
  cases i with
  | csrrw rd a rs1 => exact .inl (raised_of_turnedAway (turnedAway_csrSwap rfl) hpriv h)
  | csrrs rd a rs1 => exact .inl (raised_of_turnedAway (turnedAway_csrModify rfl) hpriv h)
  | csrrc rd a rs1 => exact .inl (raised_of_turnedAway (turnedAway_csrModify rfl) hpriv h)
  | csrrwi rd a uimm => exact .inl (raised_of_turnedAway (turnedAway_csrSwap rfl) hpriv h)
  | csrrsi rd a uimm => exact .inl (raised_of_turnedAway (turnedAway_csrModify rfl) hpriv h)
  | csrrci rd a uimm => exact .inl (raised_of_turnedAway (turnedAway_csrModify rfl) hpriv h)
  | sfenceVma rs1 rs2 => exact .inr ⟨rs1, rs2, rfl⟩

/-- An instruction that answers a next state raises illegal-instruction, or changes at most the settings, `stale`, one
register and the pc (R119). -/
theorem exec_next_shape {i : Instr} {s t : State} (h : exec i s = .next t) :
    t = raiseException .illegalInstruction s ∨
      ∃ T l rd v, t = advancePc (writeReg { s with pmp := T, stale := l } rd v) := by
  obtain rfl | ⟨-, -, rfl⟩ | ⟨-, u, rd, v, hu, rfl⟩ := exec_next h
  · exact .inl rfl
  · exact .inr ⟨s.pmp, [s.pmp], 0#5, 0#64, by rw [writeReg_zero]; rfl⟩
  · obtain rfl | ⟨-, a, w, hw⟩ := hu
    · exact .inr ⟨u.pmp, u.stale, rd, v, rfl⟩
    · obtain ⟨T, l, rfl⟩ := csrWrite_eq hw
      exact .inr ⟨T, l, rd, v, rfl⟩

/-- Settles O56: whatever a step does to the PMP keeps the invariant. -/
theorem everyStepKeepsTheInvariant : Obligations.EveryStepKeepsTheInvariant := by
  unfold Obligations.EveryStepKeepsTheInvariant
  intro s t hI h
  exact (pmpEffect_of_step h).inv hI

/-- Settles O57: the invariant is decidable, and evaluated at the state after reset. -/
theorem resetMeetsTheInvariant : Obligations.ResetMeetsTheInvariant := by
  unfold Obligations.ResetMeetsTheInvariant
  decide

/-- Settles O58: a lock keeps its own byte and freezes its own address register, and a locked TOR entry freezes the one
below. -/
theorem lockedEntryIsConstantUntilReset : Obligations.LockedEntryIsConstantUntilReset := by
  unfold Obligations.LockedEntryIsConstantUntilReset
  intro s t i hi h hr hl
  rw [entryLocked] at hl
  have he := pmpEffect_of_step h
  refine ⟨he.cfgAt_of_locked hr hl, fun hx => ⟨?_, fun hpos htor => ?_⟩⟩
  · exact he.addrAt_of_fixed hr hx (.inl (by simp [addrLocked, hl]))
  · refine he.addrAt_of_fixed hr hx (.inl ?_)
    simp [addrLocked, Nat.sub_add_cancel hpos, hi, hl, htor]

/-- Settles O59: below M-mode no CSR is written, so a step can only renew `stale`, and an instruction that completes is no
CSR instruction. -/
theorem lowerModesCannotChangeThePmp : Obligations.LowerModesCannotChangeThePmp := by
  unfold Obligations.LowerModesCannotChangeThePmp
  intro s t hpriv h hr
  have he := pmpEffect_of_step h
  refine ⟨fun hx => ?_, fun hp => ⟨?_, ?_⟩⟩
  · obtain ⟨hpmp, hstale⟩ := he.of_lower hpriv hr hx
    refine ⟨hpmp, hstale.imp id And.right, fun halone => ?_⟩
    rw [hpmp]
    exact hstale.elim (fun h => h.trans halone) And.right
  · refine (he.of_lower hpriv hr (by simp [mxlenChangeIsNext, hp])).2.imp id ?_
    rintro ⟨hR, hstale⟩
    obtain ⟨-, hmode⟩ := (renewsSettings_iff_of_not_pending hp).mp hR
    obtain ⟨hS, htvm⟩ := hmode.resolve_left hpriv
    exact ⟨hS, htvm, hstale⟩
  · obtain ⟨op, rest, hop, -⟩ | ⟨-, -, hinstr⟩ := step_next h
    · rw [hp] at hop; cases hop
    · obtain ⟨m, -, rfl | ⟨l, i, hf, hi, hx⟩⟩ := stepInstr_next hinstr
      · exact .inl (by simp)
      · refine (sfenceVma_of_exec_lower (s := drawn s m) hpriv hx).imp id ?_
        rintro ⟨rs1, rs2, rfl⟩
        exact ⟨rs1, rs2, l, m, hf, hi, hx⟩

/-- Settles O25: the byte is part of the invariant, which the step keeps; the address register ignores writes. -/
theorem hardwiredEntryIsConstant : Obligations.HardwiredEntryIsConstant := by
  unfold Obligations.HardwiredEntryIsConstant
  intro s t i c hI hi hw h
  have he := pmpEffect_of_step h
  refine ⟨?_, fun hr hx => he.addrAt_of_fixed hr hx (.inr (by simp [hw]))⟩
  obtain ⟨-, -, ⟨hlen, hentry⟩, -⟩ := he.inv hI
  rw [he.params] at hlen hentry
  obtain ⟨-, -, -, hconst, -⟩ := hentry i (by rwa [hlen])
  exact hconst c (by simp [hw])

/-- Settles O46: what a step does to the PMP says what it does to `stale`. -/
theorem staleHoldsEverySettingsSinceTheFence : Obligations.StaleHoldsEverySettingsSinceTheFence := by
  unfold Obligations.StaleHoldsEverySettingsSinceTheFence
  intro s t hvm hmem h
  exact (pmpEffect_of_step h).stale hvm hmem

/-- Settles O60: an instruction raises its exception from the state that the fetch left, or ends with one register written
and the pc advanced. -/
theorem instructionStepFrame : Obligations.InstructionStepFrame := by
  unfold Obligations.InstructionStepFrame
  intro s t hp h
  obtain ⟨op, rest, hop, -⟩ | ⟨-, hnone, hinstr⟩ := step_next h
  · rw [hp] at hop; cases hop
  · obtain ⟨m, hm, hcase⟩ := stepInstr_next hinstr
    obtain ⟨hbytes, hsame⟩ := hm.frame
    have hshape : (∃ e, t = raiseException e (drawn s m)) ∨
        ∃ T l rd v, t = advancePc (writeReg { drawn s m with pmp := T, stale := l } rd v) := by
      obtain ht | ⟨l, i, -, -, hx⟩ := hcase
      · exact .inl ⟨_, ht⟩
      · exact (exec_next_shape hx).imp (fun ht => ⟨_, ht⟩) id
    obtain ⟨e, rfl⟩ | ⟨T, l, rd, v, rfl⟩ := hshape
    · exact ⟨rfl, rfl, rfl, rfl, rfl, rfl, rfl, rfl, hp, rfl, hbytes, hsame, ⟨0#5, fun r _ => rfl⟩,
        fun _ => ⟨rfl, rfl, rfl⟩, fun hr => by simp at hr⟩
    · obtain ⟨hregs, -, hpc, h1, h2, h3, h4, -, h5, h6, h7, h8, h9, h10, h11, -⟩ :=
        csrFrame_advancePc_writeReg (drawn s m) T l rd v
      refine ⟨h1, h2, h3, h4, h5, h6, h8, h9, h10.trans hp, h11, by simpa using hbytes, by simpa using hsame,
        ⟨rd, hregs⟩, fun hr => ?_, fun _ => hpc⟩
      exact absurd (h7.trans hnone) hr

end Sys2Proof.Claims
end

section
/-! PROOFS. What LegalCfg and LegalAddr store. -/

namespace Sys2Proof.Machine

/-- A legal byte: not the reserved combination, and no NA4 with G >= 1 (R17, R18, R109). -/
theorem cfgLegal_iff (g : Nat) (b : Byte) :
    cfgLegal g b = true ↔ ¬(cfgR b = false ∧ cfgW b = true) ∧ (1 ≤ g → cfgA b ≠ 2#2) := by
  have hsel : cfgSelectable g b = true ↔ (1 ≤ g → cfgA b ≠ 2#2) := by
    rw [cfgSelectable, Bool.or_eq_true, decide_eq_true_iff, Bool.not_eq_true', decide_eq_false_iff_not,
      cfgMode_eq_na4_iff, or_iff_not_imp_left, Nat.one_le_iff_ne_zero]
  have hres : cfgReserved b = false ↔ ¬(cfgR b = false ∧ cfgW b = true) := by
    rw [cfgReserved]
    cases cfgR b <;> cases cfgW b <;> simp
  rw [cfgLegal, Bool.and_eq_true, hsel, Bool.not_eq_true', hres]

end Sys2Proof.Machine

namespace Sys2Proof.Claims

open Sys2Proof.Machine

/-- Settles O23: what is stored is legal and within the mask, and a legal byte is kept. -/
theorem legalCfgStoresLegalBytes : Obligations.LegalCfgStoresLegalBytes := by
  unfold Obligations.LegalCfgStoresLegalBytes
  intro p i old w hw
  obtain ⟨hmask, hunused, hlegal⟩ := (legalCfg_spec p i old w).2 hw
  obtain ⟨hres, hsel⟩ := (cfgLegal_iff p.grain _).mp hlegal
  exact ⟨hmask, hunused, hres, hsel, fun h1 h2 => legalCfg_of_legal p i old w hw ((cfgLegal_iff p.grain _).mpr ⟨h1, h2⟩)⟩

/-- Settles O24: what is stored is within the mask, a value within it is kept, and the mask has no bit above the address
bits. -/
theorem legalAddrStoresRepresentableAddresses : Obligations.LegalAddrStoresRepresentableAddresses := by
  unfold Obligations.LegalAddrStoresRepresentableAddresses
  intro m p i old v hw
  obtain ⟨hmask, hkept⟩ := (legalAddr_spec m p i old v).2 hw
  refine ⟨hmask, hkept, legalAddr_of_masked old v hw, ?_⟩
  apply BitVec.eq_of_getLsbD_eq
  intro j hj
  simp [BitVec.getLsbD_extractLsb', addrMaskOf, addrBitsMask, addrBits]

end Sys2Proof.Claims
end

section
/-! PROOFS. Matching in the TOR and NAPOT modes, and the regions of all modes as intervals. -/

namespace Sys2Proof.Machine

/-- Dropping the low n bits of an address leaves q exactly for the 2^n addresses from q * 2^n. -/
theorem shiftRight_eq_iff (y n q : Nat) : y >>> n = q ↔ q * 2 ^ n ≤ y ∧ y < q * 2 ^ n + 2 ^ n := by
  rw [Nat.shiftRight_eq_div_pow, Nat.div_eq_iff (Nat.two_pow_pos n)]
  have := Nat.two_pow_pos n
  omega

/-- The TOR bound in byte addresses: four times the address register with its low G bits dropped (R128, R131). -/
theorem torBound_eq (g : Nat) (S : Settings) (j : Nat) :
    torBound g S j = 4 * ((addrAt S j).toNat / 2 ^ g * 2 ^ g) := by
  simp only [torBound, Nat.shiftRight_eq_div_pow, Nat.shiftLeft_eq]
  omega

section Regions
variable {g : Nat} {S : Settings} {i : Nat}

/-- The mode is NAPOT exactly when the A field holds 3 (R18, R76). -/
theorem cfgMode_eq_napot_iff (b : Byte) : cfgMode b = .napot ↔ cfgA b = 3#2 := by
  obtain ⟨ha, hm⟩ | ⟨ha, hm⟩ | ⟨ha, hm⟩ | ⟨ha, hm⟩ := cfgMode_cases b <;> simp [ha, hm]

/-- A NAPOT entry matches the addresses whose bits above the region's size are the register's (R134). -/
theorem matchByte_of_napot (y : Nat) (h : cfgA (cfgAt S i) = 3#2) :
    matchByte g S i y
      = decide (y >>> (cto (addrRead g S i) + 3) = (addrRead g S i).toNat >>> (cto (addrRead g S i) + 1)) := by
  simp only [matchByte, (cfgMode_eq_napot_iff _).mpr h]

/-- The region of each mode (R136). -/
theorem regionOf_cases (g : Nat) (S : Settings) (i : Nat) :
    (cfgA (cfgAt S i) = 0#2 ∧ regionOf g S i = (0, 0)) ∨
      (cfgA (cfgAt S i) = 1#2 ∧ regionOf g S i = (torBottom g S i, torBound g S i)) ∨
      (cfgA (cfgAt S i) = 2#2 ∧ regionOf g S i = (4 * (addrAt S i).toNat, 4 * (addrAt S i).toNat + 4)) ∨
      (cfgA (cfgAt S i) = 3#2 ∧ regionOf g S i = (napotBase (addrRead g S i),
        napotBase (addrRead g S i) + napotSize (addrRead g S i))) := by
  have hna4 : (addrAt S i).toNat <<< 2 = 4 * (addrAt S i).toNat := by rw [Nat.shiftLeft_eq]; omega
  refine (cfgMode_cases (cfgAt S i)).imp ?_ (Or.imp ?_ (Or.imp ?_ ?_)) <;>
    exact fun ⟨ha, hm⟩ => ⟨ha, by simp only [regionOf, hm, hna4]⟩

/-- The region of a NAPOT entry is the one that its read view names (R134, R135). -/
theorem regionOf_of_napot (h : cfgA (cfgAt S i) = 3#2) : regionOf g S i =
    (napotBase (addrRead g S i), napotBase (addrRead g S i) + napotSize (addrRead g S i)) := by
  simp only [regionOf, (cfgMode_eq_napot_iff _).mpr h]

/-- The base of a NAPOT region by arithmetic (R134). -/
theorem napotBase_eq (v : Word) : napotBase v = v.toNat / 2 ^ (cto v + 1) * 2 ^ (cto v + 3) := by
  simp only [napotBase, Nat.shiftRight_eq_div_pow, Nat.shiftLeft_eq]

/-- The bytes an entry matches are those of its region (R136). -/
theorem matchByte_iff_mem_region (y : Nat) :
    matchByte g S i y = true ↔ (regionOf g S i).1 ≤ y ∧ y < (regionOf g S i).2 := by
  obtain ⟨ha, hr⟩ | ⟨ha, hr⟩ | ⟨ha, hr⟩ | ⟨ha, hr⟩ := regionOf_cases g S i <;> rw [hr]
  · simp [matchByte_of_off g y ha]
  · rw [matchByte_of_tor g y ha, decide_eq_true_iff]
  · rw [matchByte_of_na4 g y ha, decide_eq_true_iff, shiftRight_eq_iff, Nat.mul_comm]
    rfl
  · rw [matchByte_of_napot y ha, decide_eq_true_iff, shiftRight_eq_iff, napotBase_eq, napotSize,
      Nat.shiftRight_eq_div_pow]

/-- `A[1]` is set in NAPOT (R18). -/
theorem cfgA1_of_napot {b : Byte} (h : cfgA b = 3#2) : cfgA1 b = true := by
  rw [cfgA1_eq, h]
  decide

end Regions

/-- A value whose low n bits are ones. -/
theorem mod_two_pow_of_ones {v n : Nat} (h : ∀ k, k < n → v.testBit k = true) : v % 2 ^ n = 2 ^ n - 1 := by
  refine Nat.eq_of_testBit_eq fun k => ?_
  rw [Nat.testBit_mod_two_pow, Nat.testBit_two_pow_sub_one]
  by_cases hk : k < n
  · simp [hk, h k hk]
  · simp [hk]

/-- A value whose low n bits are ones, with a zero above them. -/
theorem mod_two_pow_succ_of_ones {v n : Nat} (h : ∀ k, k < n → v.testBit k = true) (h0 : v.testBit n = false) :
    v % 2 ^ (n + 1) = 2 ^ n - 1 := by
  refine Nat.eq_of_testBit_eq fun k => ?_
  rw [Nat.testBit_mod_two_pow, Nat.testBit_two_pow_sub_one]
  rcases Nat.lt_trichotomy k n with hk | rfl | hk
  · simp [hk, h k hk, Nat.lt_succ_of_lt hk]
  · simp [h0]
  · simp [Nat.not_lt_of_lt hk, Nat.not_lt.mpr (Nat.succ_le_of_lt hk)]

/-- The count of trailing ones stays within its bound. -/
theorem trailingOnesUpTo_le (fuel v : Nat) : trailingOnesUpTo fuel v ≤ fuel := by
  induction fuel generalizing v with
  | zero => rfl
  | succ fuel ih =>
    unfold trailingOnesUpTo
    split
    · exact Nat.succ_le_succ (ih _)
    · exact Nat.zero_le _

/-- `cto` of a value whose lowest zero bit is bit k, one past the top bit included (R10). -/
theorem cto_eq_of_le {v : Word} {k : Nat} (hk : k ≤ 64) (h : v.toNat % 2 ^ (k + 1) = 2 ^ k - 1) : cto v = k := by
  obtain hlt | rfl := Nat.lt_or_eq_of_le hk
  · exact cto_eq hlt h
  · refine Nat.le_antisymm (trailingOnesUpTo_le 64 _) (le_trailingOnesUpTo le_rfl ?_)
    have hv := v.isLt
    omega

section Napot
variable {g : Nat} {S : Settings} {i : Nat} (ha : cfgA (cfgAt S i) = 3#2) (hg : g < 54)
include ha hg

/-- The read view of a NAPOT entry ends in at least G-1 ones (R34, R135). -/
theorem le_cto_addrRead : g - 1 ≤ cto (addrRead g S i) := by
  refine le_trailingOnesUpTo (by omega) (mod_two_pow_of_ones fun k hk => ?_)
  have hlow : k + 1 < g := by omega
  rw [BitVec.testBit_toNat, getLsbD_addrRead_of_cfgA1_true g (by omega) (cfgA1_of_napot ha)]
  simp [hlow]

/-- With G >= 1 the read view of a NAPOT entry whose stored bit G-1 is zero ends in exactly G-1 ones (R135). -/
theorem cto_addrRead_of_zero (hpos : 1 ≤ g) (h0 : (addrAt S i).getLsbD (g - 1) = false) :
    cto (addrRead g S i) = g - 1 := by
  have hbit (k : Nat) (hk : k < 64) := getLsbD_addrRead_of_cfgA1_true (k := k) g hk (cfgA1_of_napot ha)
  refine cto_eq_of_le (by omega) (mod_two_pow_succ_of_ones (fun k hk => ?_) ?_)
  · have hlow : k + 1 < g := by omega
    rw [BitVec.testBit_toNat, hbit k (by omega)]
    simp [hlow]
  · rw [BitVec.testBit_toNat, hbit _ (by omega), h0]
    simp [Nat.sub_add_cancel hpos]

end Napot

/-- Where the low G-1 bits of the register are ones, the read view of a NAPOT entry is the stored value (R135). -/
theorem addrRead_eq_of_ones {g : Nat} {S : Settings} {i : Nat} (ha : cfgA (cfgAt S i) = 3#2)
    (h : ∀ k, k + 1 < g → k < 64 → (addrAt S i).getLsbD k = true) : addrRead g S i = addrAt S i := by
  apply BitVec.eq_of_getLsbD_eq
  intro k hk
  rw [getLsbD_addrRead_of_cfgA1_true g hk (cfgA1_of_napot ha)]
  by_cases hlow : k + 1 < g
  · simp [hlow, h k hlow hk]
  · simp [hlow]

/-- The base and the size that a NAPOT value with k trailing ones names (R134). -/
theorem napot_of_cto {v : Word} {k : Nat} (h : cto v = k) :
    napotBase v = v.toNat / 2 ^ (k + 1) * 2 ^ (k + 3) ∧ napotSize v = 2 ^ (k + 3) := by
  subst h
  exact ⟨napotBase_eq v, rfl⟩

/-- The software encoding of a NAPOT region by arithmetic: the base's upper bits, a zero, and ones (R95). -/
theorem napotEncode_eq (b k : Nat) : napotEncode (2 ^ (k + 3) * b) (k + 3) = 2 ^ (k + 1) * b + (2 ^ k - 1) := by
  have hshift : (2 ^ (k + 3) * b) >>> 2 = 2 ^ (k + 1) * b := by
    rw [Nat.shiftRight_eq_div_pow, show 2 ^ (k + 3) * b = 2 ^ (k + 1) * b * 2 ^ 2 by ring,
      Nat.mul_div_cancel _ (by decide)]
  have hlt : 2 ^ k - 1 < 2 ^ (k + 1) := by
    have := Nat.two_pow_pos k
    rw [Nat.pow_succ]; omega
  rw [napotEncode, hshift, Nat.add_sub_cancel, Nat.two_pow_add_eq_or_of_lt hlt]

/-- A TOR bound is a multiple of the grain (R131, R138). -/
theorem grain_dvd_torBound (g : Nat) (S : Settings) (j : Nat) : 2 ^ (g + 2) ∣ torBound g S j := by
  rw [torBound_eq]
  exact ⟨(addrAt S j).toNat / 2 ^ g, by ring⟩

end Sys2Proof.Machine

namespace Sys2Proof.Claims

open Sys2Proof.Machine

/-- Settles O28: the two bounds in byte addresses, the bottom of entry 0 being zero. -/
theorem torMatchesTheRangeBelowItsTop : Obligations.TorMatchesTheRangeBelowItsTop := by
  unfold Obligations.TorMatchesTheRangeBelowItsTop
  intro g S y
  refine ⟨fun i ha => ?_, fun ha => ?_⟩
  · simp [matchByte_of_tor g y ha, torBottom, torBound_eq]
  · simp [matchByte_of_tor g y ha, torBottom, torBound_eq]

/-- Settles O32: the trailing ones of the value used give the region's size, the bits above them its base. -/
theorem napotMatchesItsAlignedRegion : Obligations.NapotMatchesItsAlignedRegion := by
  unfold Obligations.NapotMatchesItsAlignedRegion
  intro g S i y k ha hk hones
  rw [matchByte_of_napot y ha, cto_eq hk hones, decide_eq_true_iff, shiftRight_eq_iff, Nat.shiftRight_eq_div_pow]

/-- Settles O33: the read view of a NAPOT entry ends in at least G-1 ones. -/
theorem napotRegionIsAtLeastTheGrain : Obligations.NapotRegionIsAtLeastTheGrain := by
  unfold Obligations.NapotRegionIsAtLeastTheGrain
  intro g S i ha hg
  have hcto := le_cto_addrRead ha hg
  refine ⟨?_, ?_, fun hpos h0 => ?_, fun hsmall => addrRead_eq_of_ones ha fun k hk => by omega⟩
  · exact Nat.pow_le_pow_right (n := 2) (by decide) (Nat.le_add_left 3 _)
  · exact Nat.pow_le_pow_right (by decide) (by omega)
  · rw [(napot_of_cto (cto_addrRead_of_zero ha hg hpos h0)).2]
    congr 1
    omega

/-- Settles O34: each mode's test is membership in the interval of its region. -/
theorem matchIsOneInterval : Obligations.MatchIsOneInterval := by
  unfold Obligations.MatchIsOneInterval
  intro g S i y
  exact ⟨matchByte_of_off g y, matchByte_iff_mem_region y⟩

/-- Settles O35: TOR bounds drop the grain's bits, NA4 needs the finest grain, and NAPOT regions are at least the grain. -/
theorem regionsAreAlignedToTheGrain : Obligations.RegionsAreAlignedToTheGrain := by
  unfold Obligations.RegionsAreAlignedToTheGrain
  intro g S i hlegal hg
  obtain ⟨-, hr⟩ | ⟨-, hr⟩ | ⟨ha, hr⟩ | ⟨ha, hr⟩ := regionOf_cases g S i <;> rw [hr]
  · exact ⟨dvd_zero _, dvd_zero _⟩
  · refine ⟨?_, grain_dvd_torBound g S i⟩
    unfold torBottom
    split
    · exact dvd_zero _
    · exact grain_dvd_torBound g S (i - 1)
  · obtain rfl := grain_eq_zero_of_legal_na4 ha hlegal
    exact ⟨dvd_mul_right 4 _, (dvd_mul_right 4 _).add (dvd_refl 4)⟩
  · have hcto := le_cto_addrRead ha hg
    have hsize : 2 ^ (g + 2) ∣ napotSize (addrRead g S i) := pow_dvd_pow 2 (by omega)
    have hbase : 2 ^ (g + 2) ∣ napotBase (addrRead g S i) := by
      rw [napotBase_eq]
      exact hsize.mul_left _
    exact ⟨hbase, hbase.add hsize⟩

/-- Settles O36: the encoding's ones make the read view the stored value, which ends in exactly s-3 ones. -/
theorem napotEncodingNamesItsRegion : Obligations.NapotEncodingNamesItsRegion := by
  unfold Obligations.NapotEncodingNamesItsRegion
  intro g S i base e ha hg he hge hdvd hval
  obtain ⟨k, rfl⟩ : ∃ k, e = k + 3 := ⟨e - 3, by omega⟩
  obtain ⟨b, rfl⟩ := hdvd
  have hpow := Nat.two_pow_pos k
  have hlow : 2 ^ k - 1 < 2 ^ (k + 1) := by rw [Nat.pow_succ]; omega
  rw [napotEncode_eq] at hval
  have hk : k ≤ 64 := by
    by_contra hk
    have h65 : 2 ^ 65 ≤ 2 ^ k := Nat.pow_le_pow_right (by decide) (by omega)
    have := (addrAt S i).isLt
    omega
  have hmod : (addrAt S i).toNat % 2 ^ (k + 1) = 2 ^ k - 1 := by
    rw [hval, Nat.mul_add_mod, Nat.mod_eq_of_lt hlow]
  have hdiv : (addrAt S i).toNat / 2 ^ (k + 1) = b := by
    rw [hval, Nat.mul_add_div (Nat.two_pow_pos _), Nat.div_eq_of_lt hlow, Nat.add_zero]
  have hview : addrRead g S i = addrAt S i := addrRead_eq_of_ones ha fun j hj _ => by
    have hbit := congrArg (·.testBit j) hmod
    simp only [Nat.testBit_mod_two_pow, Nat.testBit_two_pow_sub_one] at hbit
    simpa [BitVec.testBit_toNat, show j < k + 1 by omega, show j < k by omega] using hbit
  obtain ⟨hbase, hsize⟩ := napot_of_cto (cto_eq_of_le hk hmod)
  rw [regionOf_of_napot ha, hview, hbase, hsize, hdiv, Nat.mul_comm]

end Sys2Proof.Claims
end

section
/-! PROOFS. The check by intervals, the defaults, and the check without a lock. -/

namespace Sys2Proof.Machine

section Intervals
variable {g : Nat} {S : Settings} {i y n : Nat}

open Sys2Proof.Claims

/-- For an access of at least one byte, an entry matches some byte exactly when its region meets the access (R136, R141). -/
theorem intervalMeets_eq (hn : 1 ≤ n) : intervalMeets g S i y n = matchesAny g S i y n := by
  rw [Bool.eq_iff_iff, intervalMeets, decide_eq_true_iff, matchesAny_iff]
  simp only [matchByte_iff_mem_region]
  constructor
  · rintro ⟨hne, hlo, hhi⟩
    exact ⟨(regionOf g S i).1 - y, by omega, by omega, by omega⟩
  · rintro ⟨k, hk, hlo, hhi⟩
    omega

/-- For an access of at least one byte, an entry matches every byte exactly when its region covers the access (R136,
R142). -/
theorem intervalCovers_eq (hn : 1 ≤ n) : intervalCovers g S i y n = matchesAll g S i y n := by
  rw [Bool.eq_iff_iff, intervalCovers, decide_eq_true_iff, matchesAll_iff]
  simp only [matchByte_iff_mem_region]
  constructor
  · rintro ⟨hlo, hhi⟩ k hk
    omega
  · intro h
    have hfirst := h 0 hn
    have hlast := h (n - 1) (by omega)
    omega

/-- The check by intervals over some entries is the decision of the deciding entry among them (R141, R149). -/
theorem intervalCheckFrom_eq (c : Config) (t : AccessType) (p : Priv) (hn : 1 ≤ n) (count i : Nat) :
    intervalCheckFrom c S y n t p count i =
      match decidingFrom c.grain S y n count i with
      | some j => entryDecision c.grain S j y n t p
      | none => decide (p = .M) || decide (entryTotal c = 0) := by
  induction count generalizing i with
  | zero => simp [intervalCheckFrom, decidingFrom]
  | succ count ih =>
    rw [intervalCheckFrom, decidingFrom, intervalMeets_eq hn, intervalCovers_eq hn, ih]
    split <;> rfl

end Intervals

/-- The check of an access that no entry decides: M-mode, or no entry implemented (R145 to R147). -/
theorem pmpCheck_of_none {c : Config} {S : Settings} {y n : Nat} (t : AccessType) (p : Priv)
    (h : decidingEntry c S y n = none) : pmpCheck c S y n t p = (decide (p = .M) || decide (entryTotal c = 0)) := by
  simp only [pmpCheck, h]

/-- N is zero exactly when no entry is implemented (R14). -/
theorem entryTotal_eq_zero_iff (c : Config) : entryTotal c = 0 ↔ c.entryCount = .zero := by
  unfold entryTotal
  cases c.entryCount <;> simp [entryCountNat]

end Sys2Proof.Machine

namespace Sys2Proof.Claims

open Sys2Proof.Machine

/-- Settles O39: an access that no entry decides takes the default, and entries that are OFF decide none. -/
theorem unmatchedAccessTakesTheDefault : Obligations.UnmatchedAccessTakesTheDefault := by
  unfold Obligations.UnmatchedAccessTakesTheDefault
  intro c S y n t p
  refine ⟨fun hnone => ?_, fun hN hoff => ?_⟩
  · have hcheck := pmpCheck_of_none t p (decidingEntry_eq_none_iff.mpr hnone)
    simp only [entryTotal_eq_zero_iff] at hcheck
    rw [hcheck]
    exact ⟨fun hp => by simp [hp], fun hp hN => by simp [hp, hN], fun hN => by simp [hN]⟩
  · have hnone := decidingEntry_eq_none_iff.mpr fun j hj k (_ : k < n) => matchByte_of_off c.grain (y + k) (hoff j hj)
    simp [pmpCheck_of_none t _ hnone, entryTotal_eq_zero_iff, hN]

/-- Settles O41: for an access of at least one byte the interval tests are the tests of every byte. -/
theorem pmpCheckEqualsIntervalCheck : Obligations.PmpCheckEqualsIntervalCheck := by
  unfold Obligations.PmpCheckEqualsIntervalCheck
  intro c S y n t p hn
  rw [intervalCheckFrom_eq c t p hn]
  rfl

/-- Settles O42: without a lock the deciding entry allows M-mode wherever it matches all bytes, and without a deciding entry
M-mode passes. -/
theorem unlockedEntriesBindMachineModeOnlyByPartialMatch :
    Obligations.UnlockedEntriesBindMachineModeOnlyByPartialMatch := by
  unfold Obligations.UnlockedEntriesBindMachineModeOnlyByPartialMatch
  intro c S y n t hunlocked
  cases hd : decidingEntry c S y n with
  | none => simp [pmpCheck_of_none t .M hd]
  | some i =>
    obtain ⟨hi, -, -⟩ := decidingEntry_eq_some_iff.mp hd
    rw [pmpCheck_of_decidingEntry t .M hd]
    simp only [Option.some.injEq, exists_eq_left', ← matchesAll_eq_false_iff]
    cases hall : matchesAll c.grain S i y n with
    | false => simp [entryDecision_of_partial t .M hall]
    | true => simp [entryDecision_of_unlocked t hall (hunlocked i hi)]

end Sys2Proof.Claims
end

section
/-! PROOFS. The accesses that the environment presents: their classes, the settings they are checked with, and the accesses
of an instruction or of a reference in parts. -/

namespace Sys2Proof.Machine

/-- A pending operation of the environment is performed first, on the state without it (log entry 14). -/
theorem step_of_pending {s : State} {op : EnvOp} {rest : List EnvOp} (h : s.pending = op :: rest) :
    step s = runEnv op { s with pending := rest } := by simp only [step, h]

/-- After a fence of all a check uses the current settings (R168). -/
theorem checkSettings_sfenceVmaAll (s : State) (k : Nat) : checkSettings (sfenceVmaAll s) k = s.pmp := by
  cases h : s.params.hasVm with
  | false => exact (checkSettings_spec (sfenceVmaAll s) k).1 h
  | true => exact (checkSettings_spec (sfenceVmaAll s) k).2 h

/-- The accesses of an instruction that can be checked are performed with their verdicts (R151, R156). -/
theorem step_of_accesses {s : State} {m : MemInstr} {rest : List EnvOp} (hp : s.pending = .accesses m :: rest)
    (h : Presentable s m.cls m.accesses) :
    ∃ vs, Verdicts s m.cls m.accesses vs ∧ step s = .next (performInstr { s with pending := rest } m vs) := by
  obtain ⟨vs, hvs, hv⟩ := checkAll_of_presentable (s := { s with pending := rest }) h
  refine ⟨vs, hv, ?_⟩
  rw [step_of_pending hp, runEnv, envAccesses, hvs]

/-- A write has its data exactly when the reference that it is part of needs none, or comes with it (D25). -/
theorem dataFits_wholeOf_iff (r : Reference) :
    dataFits r.cls (wholeOf r) = true ↔
      (refType r.cls = .write → r.data.length = r.n ∨ (r.cls = .storeConditional ∧ r.data = [])) := by
  rw [dataFits_iff, isWrite, decide_eq_true_iff, ← AccessClass.own.injEq r.cls]
  exact Iff.rfl

/-- The accesses of a reference in its parts, as one instruction (R157). -/
def instrOf (r : Reference) : MemInstr :=
  { cls := r.cls, accesses := partsOf r.y r.data r.parts, misaligned := r.misaligned }

/-- A reference inside the address space in parts that `Decompose` admits, with its data, is the accesses of its parts (R151,
R157). -/
theorem step_of_reference {s : State} {r : Reference} {rest : List EnvOp} (hp : s.pending = .reference r :: rest)
    (hn : 1 ≤ r.n) (hy : r.y + r.n ≤ 2 ^ palen s.mxlen)
    (hd : decomposes s.params r.cls r.y r.n (r.parts.map Prod.fst) = true)
    (hdata : refType r.cls = .write → r.data.length = r.n ∨ (r.cls = .storeConditional ∧ r.data = [])) :
    step s = step { s with pending := .accesses (instrOf r) :: rest } := by
  have ha := (accessRefusal_none_iff s.mxlen r.y r.n).mpr ⟨by omega, hy⟩
  rw [step_of_pending hp, step_of_pending (s := { s with pending := .accesses (instrOf r) :: rest }) rfl]
  simp [runEnv, envReference, instrOf, ha, hd, (dataFits_wholeOf_iff r).mpr hdata]

end Sys2Proof.Machine

namespace Sys2Proof.Claims

open Sys2Proof.Machine

section Parts
variable {r : Reference}

/-- The j-th access of a reference in parts. -/
def partAccess (r : Reference) (j : Nat) : Access :=
  { pageTable := none, y := partStart r j, n := partSize r j,
    data := (r.data.drop (partStart r j - r.y)).take (partSize r j), pmaOk := (r.parts.getD j (0, false)).2 }

/-- The accesses of a reference are those of its parts, in order (R157). -/
theorem partsOf_getElem_eq {j : Nat} (hj : j < r.parts.length) :
    (partsOf r.y r.data r.parts)[j]? = some (partAccess r j) := by
  rw [partsOf_getElem (List.getElem?_eq_getElem hj)]
  simp [partAccess, partStart, partSize, hj]

/-- An access of a reference in parts is that of one of its parts. -/
theorem eq_partAccess {j : Nat} {a : Access} (h : (partsOf r.y r.data r.parts)[j]? = some a) :
    j < r.parts.length ∧ a = partAccess r j := by
  have hj : j < r.parts.length := by simpa using (List.getElem?_eq_some_iff.mp h).1
  rw [partsOf_getElem_eq hj] at h
  exact ⟨hj, (Option.some.inj h).symm⟩

/-- The first part begins where the reference does. -/
@[simp] theorem partStart_zero (r : Reference) : partStart r 0 = r.y := by simp [partStart]

/-- Each part begins where the one before it ends (R157). -/
theorem partStart_succ (r : Reference) (j : Nat) : partStart r (j + 1) = partStart r j + partSize r j := by
  by_cases hj : j < r.parts.length
  · simp [partStart, partSize, hj, List.take_add_one, Nat.add_assoc]
  · have hle := Nat.le_of_not_lt hj
    simp [partStart, partSize, hle, List.take_of_length_le, Nat.le_succ_of_le hle]

/-- Later parts begin later. -/
theorem partStart_mono (r : Reference) : Monotone (partStart r) :=
  monotone_nat_of_le_succ fun j => by rw [partStart_succ]; exact Nat.le_add_right _ _

/-- The last part ends where the sizes end. -/
theorem partStart_length (r : Reference) : partStart r r.parts.length = r.y + (r.parts.map Prod.fst).sum := by
  rw [partStart, List.take_of_length_le (by simp)]

/-- An address of the j-th part. -/
abbrev InPart (r : Reference) (j q : Nat) : Prop := partStart r j ≤ q ∧ q < partStart r j + partSize r j

/-- No part begins before the reference. -/
theorem le_partStart (r : Reference) (j : Nat) : r.y ≤ partStart r j :=
  partStart_zero r ▸ partStart_mono r (Nat.zero_le j)

/-- No address is in two parts. -/
theorem inPart_unique {j j' q : Nat} (h : InPart r j q) (h' : InPart r j' q) : j = j' := by
  have apart {i i' : Nat} (hlt : i < i') (hi : InPart r i q) (hi' : InPart r i' q) : False := by
    have hmono := partStart_mono r (Nat.succ_le_of_lt hlt)
    rw [Nat.succ_eq_add_one, partStart_succ] at hmono
    omega
  rcases Nat.lt_trichotomy j j' with hlt | heq | hlt
  · exact (apart hlt h h').elim
  · exact heq
  · exact (apart hlt h' h).elim

/-- Every address between the start and the end of the first parts is in one of them. -/
theorem exists_inPart {q : Nat} (hlo : r.y ≤ q) (count : Nat) (hhi : q < partStart r count) :
    ∃ j, j < count ∧ InPart r j q := by
  induction count with
  | zero => rw [partStart_zero] at hhi; omega
  | succ count ih =>
    by_cases hq : q < partStart r count
    · obtain ⟨j, hj, hin⟩ := ih hq
      exact ⟨j, Nat.lt_succ_of_lt hj, hin⟩
    · rw [partStart_succ] at hhi
      exact ⟨count, Nat.lt_succ_self count, Nat.le_of_not_lt hq, hhi⟩

/-- Every byte of the data of a reference in admitted parts is in one of them (R157). -/
theorem exists_part_of_data {c : Config} (hd : decomposes c r.cls r.y r.n (r.parts.map Prod.fst) = true)
    (hdata : r.data.length = r.n ∨ (r.cls = .storeConditional ∧ r.data = [])) {k : Nat} (hk : k < r.data.length) :
    ∃ j, j < r.parts.length ∧ InPart r j (r.y + k) := by
  obtain ⟨⟨-, hsum⟩, -⟩ := (decomposes_iff _ _ _ _ _).mp hd
  have hle : r.data.length ≤ r.n := hdata.elim Nat.le_of_eq fun h => by simp [h.2]
  refine exists_inPart (Nat.le_add_right _ _) r.parts.length ?_
  rw [partStart_length, hsum]
  omega

/-- A part stores within itself and within the data of the reference. -/
theorem inPart_of_writesTo {cls : RefClass} {j q : Nat} (h : WritesTo cls (partAccess r j) q) :
    InPart r j q ∧ q < r.y + r.data.length := by
  obtain ⟨-, hlo, hhi⟩ := h
  have hy := le_partStart r j
  simp only [partAccess, List.length_take, List.length_drop] at hlo hhi
  exact ⟨⟨hlo, by omega⟩, by omega⟩

section Landed
variable {cls : RefClass} {done : Nat → Bool} {old new : Memory}
  (hP : Performed cls (partsOf r.y r.data r.parts) done old new)
include hP

/-- No byte outside the data of the reference changes (R157). -/
theorem readByte_outside_parts {q : Nat} (hq : q < r.y ∨ r.y + r.data.length ≤ q) :
    readByte new q = readByte old q := by
  refine hP.1 q fun j a ha _ hw => ?_
  obtain ⟨-, rfl⟩ := eq_partAccess ha
  obtain ⟨⟨hlo, -⟩, hhi⟩ := inPart_of_writesTo hw
  have hy := le_partStart r j
  omega

/-- No byte of a part that was not performed changes (R156, R157). -/
theorem readByte_part_not_done {j q : Nat} (hj : done j = false) (hq : InPart r j q) :
    readByte new q = readByte old q := by
  refine hP.1 q fun j' a ha hd hw => ?_
  obtain ⟨-, rfl⟩ := eq_partAccess ha
  rw [inPart_unique hq (inPart_of_writesTo hw).1, hd] at hj
  cases hj

/-- A byte of a part that was performed reads as stored (R156, R157). -/
theorem readByte_part_done {j k : Nat} (hjlt : j < r.parts.length) (hj : done j = true) (hwrite : refType cls = .write)
    (hk : k < r.data.length) (hin : InPart r j (r.y + k)) : readByte new (r.y + k) = some r.data[k] := by
  have hy := le_partStart r j
  obtain ⟨b, hb⟩ : ∃ b, r.y + k = partStart r j + b := ⟨r.y + k - partStart r j, by omega⟩
  have hlen : b < (partAccess r j).data.length := by
    simp only [partAccess, List.length_take, List.length_drop]
    omega
  have hstored := hP.2 j (partAccess r j) b hlen (partsOf_getElem_eq hjlt) hj
    (by simp [isWrite, partAccess, classOf, accessType, hwrite]) fun j' a' hlt ha' _ hw' => by
      obtain ⟨-, rfl⟩ := eq_partAccess ha'
      have hin' := (inPart_of_writesTo hw').1
      rw [show (partAccess r j).y = partStart r j from rfl, ← hb] at hin'
      exact absurd (inPart_unique hin hin') (Nat.ne_of_lt hlt)
  rw [show (partAccess r j).y = partStart r j from rfl, ← hb] at hstored
  rw [hstored]
  simp only [partAccess, List.getElem_take, List.getElem_drop, Option.some.injEq]
  congr 1
  omega

end Landed

/-- The parts of a writing reference that `Decompose` admits, inside the address space and with an effective mode, can be
checked (R150, R157). -/
theorem presentable_partsOf {s : State} {p : Priv} (hy : r.y + r.n ≤ 2 ^ palen s.mxlen)
    (hd : decomposes s.params r.cls r.y r.n (r.parts.map Prod.fst) = true)
    (hdata : r.data.length = r.n ∨ (r.cls = .storeConditional ∧ r.data = []))
    (hp : effPriv (.own r.cls) s.hart.priv s.hart.mprv s.hart.mpp = some p) :
    Presentable s r.cls (partsOf r.y r.data r.parts) := by
  obtain ⟨⟨hpos, hsum⟩, -⟩ := (decomposes_iff _ _ _ _ _).mp hd
  intro a ha
  obtain ⟨j, hj⟩ := List.mem_iff_getElem?.mp ha
  obtain ⟨hjlt, rfl⟩ := eq_partAccess hj
  have hsize : 0 < partSize r j :=
    hpos _ (List.mem_map.mpr ⟨r.parts[j], List.getElem_mem hjlt, by simp [partSize, hjlt]⟩)
  have hstart := le_partStart r j
  have hend := partStart_mono r (Nat.succ_le_of_lt hjlt)
  rw [Nat.succ_eq_add_one, partStart_succ, partStart_length, hsum] at hend
  refine ⟨Nat.ne_of_gt hsize, hend.trans hy, by simp [partAccess, classOf, hp], fun _ => hdata.imp (fun hlen => ?_) ?_⟩
  · simp only [partAccess, List.length_take, List.length_drop]
    omega
  · rintro ⟨hcls, hnil⟩
    simp [partAccess, classOf, hcls, hnil]

/-- The verdicts of the parts of a writing reference (R49, R51, R156). -/
theorem verdicts_partsOf {s : State} {p : Priv} {vs : List Bool} (hwrite : refType r.cls = .write)
    (hp : effPriv (.own r.cls) s.hart.priv s.hart.mprv s.hart.mpp = some p)
    (h : Verdicts s r.cls (partsOf r.y r.data r.parts) vs) :
    vs.length = r.parts.length ∧ ∀ j, j < r.parts.length → vs[j]? = some (partPasses s r p j) := by
  obtain ⟨hlen, hv⟩ := h
  refine ⟨by simpa using hlen, fun j hj => ?_⟩
  obtain ⟨p', hp', hvj⟩ := hv j _ (partsOf_getElem_eq hj)
  have hclass : classOf r.cls (partAccess r j) = .own r.cls := rfl
  rw [hclass, hp] at hp'
  cases hp'
  rw [hvj, hclass, accessType, hwrite]
  rfl

/-- Some part fails exactly when some verdict does. -/
theorem false_mem_iff {s : State} {p : Priv} {vs : List Bool} (hlen : vs.length = r.parts.length)
    (hv : ∀ j, j < r.parts.length → vs[j]? = some (partPasses s r p j)) :
    false ∈ vs ↔ ∃ j, j < r.parts.length ∧ partPasses s r p j = false := by
  rw [List.mem_iff_getElem?]
  constructor
  · rintro ⟨j, hj⟩
    have hjlt : j < r.parts.length := hlen ▸ (List.getElem?_eq_some_iff.mp hj).1
    exact ⟨j, hjlt, Option.some.inj ((hv j hjlt).symm.trans hj)⟩
  · rintro ⟨j, hjlt, hj⟩
    exact ⟨j, by rw [hv j hjlt, hj]⟩

end Parts

/-- Settles O43: the mode by the class, MPRV and MPP. -/
theorem effectivePrivilegeOfEachClass : Obligations.EffectivePrivilegeOfEachClass := by
  unfold Obligations.EffectivePrivilegeOfEachClass
  refine ⟨fun _ _ _ _ _ => rfl, fun _ _ _ => rfl, fun c hc priv mpp => ?_⟩
  cases c with
  | fetch => exact absurd rfl hc
  | load => exact ⟨rfl, rfl, rfl, rfl, rfl⟩
  | loadReserved => exact ⟨rfl, rfl, rfl, rfl, rfl⟩
  | store => exact ⟨rfl, rfl, rfl, rfl, rfl⟩
  | storeConditional => exact ⟨rfl, rfl, rfl, rfl, rfl⟩
  | amo => exact ⟨rfl, rfl, rfl, rfl, rfl⟩

/-- Settles O44: the type and the fault by the class. -/
theorem accessTypeAndFaultOfEachClass : Obligations.AccessTypeAndFaultOfEachClass := by
  unfold Obligations.AccessTypeAndFaultOfEachClass
  refine ⟨⟨rfl, rfl⟩, ?_, ?_, fun c => ⟨rfl, rfl⟩, fun u c => rfl, fun c a h => ?_, fun c a u h => ?_⟩
  · rintro c (rfl | rfl) <;> exact ⟨rfl, rfl⟩
  · rintro c (rfl | rfl | rfl) <;> exact ⟨rfl, rfl⟩
  · simp only [classOf, h]
  · simp only [classOf, h]

/-- Settles O45: a check picks from `stale` only with virtual memory, and a fence leaves one member to pick. -/
theorem checkUsesAPermittedSettingsValue : Obligations.CheckUsesAPermittedSettingsValue := by
  unfold Obligations.CheckUsesAPermittedSettingsValue
  intro s k
  exact ⟨(checkSettings_spec s k).1, fun hvm hne => checkSettings_mem hvm hne k, checkSettings_sfenceVmaAll s k⟩

/-- Settles O47: the precondition of `PmpCheck` refuses the two cases, and is met otherwise. -/
theorem pmpCheckOperationAnswersInsideTheAddressSpace : Obligations.PmpCheckOperationAnswersInsideTheAddressSpace := by
  unfold Obligations.PmpCheckOperationAnswersInsideTheAddressSpace
  intro s S y n t p rest hp
  rw [step_of_pending hp, runEnv, envPmpCheck]
  refine ⟨fun hn => ?_, fun hn hy => ?_, fun hn hy => ?_⟩
  · simp [accessRefusal, hn]
  · simp [accessRefusal, hn, hy]
  · simp [(accessRefusal_none_iff s.mxlen y n).mpr ⟨hn, hy⟩]

/-- Settles O40: `Decompose` is a partition that the rule of the class admits, and an admitted reference with its data is the
accesses of its parts. -/
theorem decomposeSaysWhichPartsAreAdmitted : Obligations.DecomposeSaysWhichPartsAreAdmitted := by
  unfold Obligations.DecomposeSaysWhichPartsAreAdmitted
  refine ⟨fun c cls y n sizes hn => ?_, fun s r rest hp hn hy => ?_, fun s => ?_⟩
  · simp only [decomposes_iff]
    refine ⟨fun hrule => ?_, fun hrule => by simp [hrule], fun hrule => by simp [hrule]⟩
    have hwhole : sizes = [n] → (∀ k ∈ sizes, 0 < k) ∧ sizes.sum = n := by
      rintro rfl
      simpa using (show 0 < n from hn)
    simpa [hrule] using hwhole
  · have ha := (accessRefusal_none_iff s.mxlen r.y r.n).mpr ⟨by omega, hy⟩
    refine ⟨fun hd => ?_, fun hd hwrite hlen hsc => ?_, fun hd hdata => ?_⟩
    · simp [step_of_pending hp, runEnv, envReference, ha, hd]
    · have hfit : dataFits r.cls (wholeOf r) = false := by
        rw [← Bool.not_eq_true, dataFits_wholeOf_iff]
        exact fun h => (h hwrite).elim hlen hsc
      simp [step_of_pending hp, runEnv, envReference, ha, hd, hfit]
    · refine ⟨instrOf r, rfl, rfl, length_partsOf _ _ _, fun j => partsOf_getElem_eq, ?_⟩
      exact step_of_reference hp hn hy hd hdata
  · obtain ⟨⟨hpos, hsum⟩, hadmitted⟩ := fetchSizes_spec s
    refine ⟨hpos, hsum, fun hwhole => hadmitted.elim (fun hd => ?_) id, hadmitted⟩
    obtain ⟨-, h, -⟩ := (decomposes_iff _ _ _ _ _).mp hd
    exact h (by simpa [splitRule] using hwhole)

/-- Settles O48: the verdicts decide between done and the access-fault, and only writes that passed were performed. -/
theorem faultOfAnInstructionIsCertain : Obligations.FaultOfAnInstructionIsCertain := by
  unfold Obligations.FaultOfAnInstructionIsCertain
  intro s m rest hp hm hpresent
  obtain ⟨vs, hv, hstep⟩ := step_of_accesses hp hpresent
  obtain ⟨h1, h2, h3, h4, h5, h6, h7, h8, -⟩ := performInstr_fields { s with pending := rest } m vs
  obtain ⟨hmem, hfail, hpass⟩ := performInstr_aligned (s := { s with pending := rest }) (vs := vs) hm
  obtain ⟨done, hdone, hall, hperf⟩ := accessedMem_spec { s with pending := rest } m.cls hv.1
  refine ⟨vs, _, done, hv, hstep, h3, h4, h5, h2, h1, h7, h8, h6, hdone, by rwa [hmem], hfail, fun hnone => ?_⟩
  obtain ⟨hraised, hreply⟩ := hpass hnone
  exact ⟨hraised, hreply, hall hnone⟩

/-- Settles O50: the parameter decides only when a verdict fails. -/
theorem misalignedAndAccessFaultOrderIsTheParameter : Obligations.MisalignedAndAccessFaultOrderIsTheParameter := by
  unfold Obligations.MisalignedAndAccessFaultOrderIsTheParameter
  intro s m rest hp hm hpresent
  obtain ⟨vs, hv, hstep⟩ := step_of_accesses hp hpresent
  obtain ⟨h1, h2, h3, h4, h5, h6, h7, h8, -⟩ := performInstr_fields { s with pending := rest } m vs
  obtain ⟨hfirst, hfault⟩ := performInstr_misaligned (s := { s with pending := rest }) (vs := vs) hm
  obtain ⟨done, hdone, -, hperf⟩ := accessedMem_spec { s with pending := rest } m.cls hv.1
  refine ⟨vs, _, hv, hstep, h3, h4, h5, h2, h1, h7, h8, h6, hfirst, fun hfail hparam => ?_⟩
  obtain ⟨hreply, hraised, hmem⟩ := hfault hfail hparam
  exact ⟨hreply, hraised, done, hdone, by rwa [hmem]⟩

/-- Settles O49: each part is performed only when it passes, the parts are disjoint, and together they are the reference. -/
theorem storeInPartsLandsWhereItsPartsPass : Obligations.StoreInPartsLandsWhereItsPartsPass := by
  unfold Obligations.StoreInPartsLandsWhereItsPartsPass
  intro s r p rest hp hcls hm hdata hn hy hd heff
  obtain ⟨hwrite, hfault⟩ : refType r.cls = .write ∧ refFault r.cls = .storeAccessFault := by
    obtain h | h | h := hcls <;> rw [h] <;> exact ⟨rfl, rfl⟩
  obtain ⟨vs, hv, hstep⟩ := step_of_accesses (s := { s with pending := .accesses (instrOf r) :: rest }) rfl
    (presentable_partsOf hy hd hdata heff)
  rw [← step_of_reference hp hn hy hd fun _ => hdata] at hstep
  obtain ⟨hlen, hpasses⟩ := verdicts_partsOf (s := s) hwrite heff hv
  have hfalse := false_mem_iff hlen hpasses
  obtain ⟨h1, h2, h3, h4, h5, h6, h7, h8, -⟩ := performInstr_fields { s with pending := rest } (instrOf r) vs
  obtain ⟨hmem, hfail, hpass⟩ := performInstr_aligned (s := { s with pending := rest }) (m := instrOf r) (vs := vs) hm
  obtain ⟨done, hdone, hall, hperf⟩ := accessedMem_spec { s with pending := rest } r.cls hv.1
  have hpart := fun k (hk : k < r.data.length) => exists_part_of_data hd hdata hk
  have hnotDone : ∀ j, j < r.parts.length → partPasses s r p j = false → done j = false := fun j hj hf => by
    rw [← Bool.not_eq_true]
    intro hd
    exact Bool.false_ne_true (hf.symm.trans (Option.some.inj ((hpasses j hj).symm.trans (hdone j hd))))
  refine ⟨_, hstep, h3, h4, h5, h2, h1, h7, h8, h6, fun a ha => ?_, fun hok => ?_, fun hbad => ?_⟩
  · rw [hmem]
    exact readByte_outside_parts hperf ha
  · have hnone : ¬false ∈ vs := fun h => by
      obtain ⟨j, hj, hf⟩ := hfalse.mp h
      exact Bool.false_ne_true (hf.symm.trans (hok j hj))
    obtain ⟨hraised, hreply⟩ := hpass hnone
    refine ⟨hraised, hreply, fun k hk => ?_⟩
    obtain ⟨j, hj, hin⟩ := hpart k hk
    rw [hmem]
    exact readByte_part_done hperf hj (hall hnone j (by simpa [instrOf] using hj)) hwrite hk hin
  · obtain ⟨hraised, hreply⟩ := hfail (hfalse.mpr hbad)
    refine ⟨hraised.trans (congrArg some hfault), hreply.trans (congrArg Reply.raised hfault), fun j hj hf k hk => ?_,
      fun k hk => ?_, fun hone a => ?_⟩
    · rw [hmem]
      exact readByte_part_not_done hperf (hnotDone j hj hf) ⟨Nat.le_add_right _ _, by omega⟩
    · obtain ⟨j, hj, hin⟩ := hpart k hk
      rw [hmem]
      cases hdj : done j with
      | false => exact .inl (readByte_part_not_done hperf hdj hin)
      | true => exact .inr (readByte_part_done hperf hj hdj hwrite hk hin)
    · obtain ⟨j, hj, hf⟩ := hbad
      rw [hmem]
      by_cases hin : a < r.y ∨ r.y + r.data.length ≤ a
      · exact readByte_outside_parts hperf hin
      · obtain ⟨j', hj', hin'⟩ := hpart (a - r.y) (by omega)
        rw [Nat.add_sub_cancel' (by omega)] at hin'
        exact readByte_part_not_done hperf (hnotDone j' hj' (by rwa [show j' = j by omega])) hin'

/-- Settles O51: the aligned region of an address, and the next of the same size. -/
theorem additionalReadRegionsAsComputed : Obligations.AdditionalReadRegionsAsComputed := by
  unfold Obligations.AdditionalReadRegionsAsComputed
  intro m p a
  have hpos : 0 < prefetchSize p := Nat.two_pow_pos _
  have hmod := Nat.mod_lt a hpos
  refine ⟨⟨p.prefetchExp, rfl⟩, ⟨a - a % prefetchSize p, Nat.dvd_sub_mod a, by omega, ?_, rfl, rfl⟩, ?_⟩
  · have := Nat.mod_le a (prefetchSize p)
    omega
  · rintro ⟨-, hpage⟩ hvm f r hr
    have hsize : r.2 = prefetchSize p := by
      cases f with
      | false => rw [List.mem_singleton.mp hr]
      | true =>
        obtain rfl | hr := List.mem_cons.mp hr
        · rfl
        · rw [List.mem_singleton.mp hr]
    exact hsize ▸ hpage hvm

end Sys2Proof.Claims
end

section
/-! PROOFS. What `Reset()` leaves in every entry, and what a change of MXLEN keeps. -/

namespace Sys2Proof.Machine

/-- What `Reset()` leaves in an implemented entry (R190 to R193). -/
theorem getD_resetEntries (m : Mxlen) (p : Config) (draws : List ResetDraw) {i : Nat} (hi : i < entryTotal p) :
    (resetEntries m p draws).getD i { cfg := 0#8, addr := 0#64 }
      = resetEntry m p i (draws.getD i { rwx := 0#3, addr := 0#64 }) := by
  simp [resetEntries, List.getD_eq_getElem?_getD, hi]

/-- A draw of X, W, R leaves the bits above them zero (R190, R191). -/
theorem getLsbD_cfgMadeLegal_of_draw (p : Config) (i : Nat) (d : BitVec 3) {k : Nat} (hk : 3 ≤ k) :
    (cfgMadeLegal p i (d.setWidth 8)).getLsbD k = false := by
  unfold cfgMadeLegal
  split
  · simp [BitVec.getLsbD_of_ge d k hk]
  · simp

/-- A byte whose bits above X, W, R are zero is unlocked and OFF (R16). -/
theorem unlocked_off_of_bits {b : Byte} (h : ∀ k, 3 ≤ k → b.getLsbD k = false) : cfgL b = false ∧ cfgA b = 0#2 := by
  refine ⟨h 7 (by decide), ?_⟩
  apply BitVec.eq_of_getLsbD_eq
  intro j hj
  simp [cfgA, BitVec.getLsbD_extractLsb', h (3 + j) (Nat.le_add_right 3 j)]

/-- A draw of X, W, R that is legal and within the mask is kept (R192). -/
theorem cfgMadeLegal_of_draw {p : Config} {i : Nat} {d : BitVec 3} (hmask : d.setWidth 8 &&& ~~~(wmaskOf p i) = 0#8)
    (hres : cfgReserved (d.setWidth 8) = false) : cfgMadeLegal p i (d.setWidth 8) = d.setWidth 8 := by
  have hkeep := (and_not_eq_zero_iff _ _).mp hmask
  have hoff := (unlocked_off_of_bits (b := d.setWidth 8) fun k hk => by simp [BitVec.getLsbD_of_ge d k hk]).2
  have hlegal : cfgLegal p.grain (d.setWidth 8) = true := by
    simp [cfgLegal, cfgSelectable, hres, (cfgMode_eq_off_iff _).mpr hoff]
  rw [cfgMadeLegal_of_legal p i _ (by rwa [hkeep]), hkeep]

/-- What `Reset()` leaves in an entry that is not hardwired (R190 to R193). -/
theorem resetEntry_of_not_hardwired (m : Mxlen) {p : Config} {i : Nat} (d : ResetDraw)
    (hw : (entryParams p i).hardwired = none) :
    resetEntry m p i d = { cfg := cfgMadeLegal p i (d.rwx.setWidth 8), addr := d.addr &&& addrMaskOf m p i } := by
  simp only [resetEntry, hw]

end Sys2Proof.Machine

namespace Sys2Proof.Claims

open Sys2Proof.Machine

/-- Settles O52: an entry that is not hardwired takes a draw of X, W, R made legal, whose other bits are zero. -/
theorem resetEstablishesUnlockedOffEntries : Obligations.ResetEstablishesUnlockedOffEntries := by
  unfold Obligations.ResetEstablishesUnlockedOffEntries
  intro s draws h rest hp
  refine ⟨_, step_of_pending hp, by simp [resetUnit, resetEntries], rfl, rfl, rfl, rfl, fun i hi => ?_⟩
  simp only [resetUnit, cfgAt, addrAt, getD_resetEntries s.mxlen s.params draws hi]
  generalize draws.getD i { rwx := 0#3, addr := 0#64 } = d
  refine ⟨fun hw => ?_, fun c hw => by simp [resetEntry, hw]⟩
  rw [resetEntry_of_not_hardwired s.mxlen d hw]
  obtain ⟨hmask, hunused, hlegal⟩ := cfgMadeLegal_spec s.params i (d.rwx.setWidth 8)
  obtain ⟨hl, ha⟩ := unlocked_off_of_bits fun k => getLsbD_cfgMadeLegal_of_draw s.params i d.rwx
  exact ⟨hl, ha, hunused, ((cfgLegal_iff _ _).mp hlegal).1, hmask, and_mask_and_not _ _⟩

/-- Settles O53: the choice itself is the draw. -/
theorem resetReachesEveryLegalDraw : Obligations.ResetReachesEveryLegalDraw := by
  unfold Obligations.ResetReachesEveryLegalDraw
  intro s rwx addr hlegal
  refine ⟨(List.range (entryTotal s.params)).map fun i => { rwx := rwx i, addr := addr i }, fun h rest => ?_⟩
  refine ⟨_, step_of_pending (s := { s with pending := .reset _ h :: rest }) rfl, fun i hi hw => ?_⟩
  obtain ⟨hmask, hres, haddr⟩ := hlegal i hi hw
  simp only [resetUnit, cfgAt, addrAt, getD_resetEntries s.mxlen s.params _ hi, resetEntry_of_not_hardwired s.mxlen _ hw]
  simp only [List.getD_eq_getElem?_getD, List.getElem?_map, List.getElem?_range hi, Option.map_some, Option.getD_some]
  exact ⟨cfgMadeLegal_of_draw hmask hres, (and_not_eq_zero_iff _ _).mp haddr⟩

/-- Settles O54: `SetMxlen` modulates the addresses and records the settings. -/
theorem mxlenChangePreservesConfiguration : Obligations.MxlenChangePreservesConfiguration := by
  unfold Obligations.MxlenChangePreservesConfiguration
  intro s m rest hp hg
  have hstep : step s = .next { setMxlen { s with pending := rest } m with reply := .done } := by
    simp [step_of_pending hp, runEnv, envSetMxlen, hg]
  refine ⟨_, hstep, ?_⟩
  simp only [cfgAt_setMxlen, addrAt_setMxlen, implies_true, true_and]
  simp [setMxlen, mem_recordCurrent_stale]

end Sys2Proof.Claims
end

section
/-! PROOFS. The fetch: how the pc is translated, when the fetch passes, and what the step does then. -/

namespace Sys2Proof.Machine

/-- What was performed depends only on what is said of the accesses of the list. -/
theorem Performed.congr {cls : RefClass} {as : List Access} {done done' : Nat → Bool} {old new : Memory}
    (h : Performed cls as done old new) (hd : ∀ j, j < as.length → done j = done' j) :
    Performed cls as done' old new := by
  have hsame : ∀ (j : Nat) (a : Access), as[j]? = some a → done j = done' j :=
    fun j a ha => hd j (List.getElem?_eq_some_iff.mp ha).1
  refine ⟨fun q hq => h.1 q fun j a ha hj => hq j a ha (hsame j a ha ▸ hj), fun j a k hk ha hj hw later => ?_⟩
  exact h.2 j a k hk ha ((hsame j a ha).trans hj) hw fun j' a' hlt ha' hj' =>
    later j' a' hlt ha' (hsame j' a' ha' ▸ hj')

/-- With nothing pending and no exception outstanding a step is that of the instruction at the pc. -/
theorem step_eq_stepInstr {s : State} (hp : s.pending = []) (hr : s.raised = none) : step s = stepInstr s := by
  simp only [step, hp, hr]

/-- Without virtual memory, in M-mode, and where no translation covers the pc, nothing translates it (R165, R169). -/
theorem translationOf_eq_none {s : State}
    (h : s.hart.priv = .M ∨ s.params.hasVm = false ∨
      ∀ t ∈ s.translations, ¬(t.virtual ≤ fetchPc s ∧ fetchPc s < t.virtual + t.size)) : translationOf s = none := by
  unfold translationOf
  obtain hM | hvm | hnone := h
  · simp [hM]
  · simp [hvm]
  · split
    · rw [List.find?_eq_none]
      intro t ht
      simpa using hnone t ht
    · rfl

/-- Otherwise the first translation that covers the pc does (R163). -/
theorem translationOf_eq_some {s : State} {t : Translation} {before after : List Translation}
    (hl : s.translations = before ++ t :: after) (hM : s.hart.priv ≠ .M) (hvm : s.params.hasVm = true)
    (ht : t.virtual ≤ fetchPc s ∧ fetchPc s < t.virtual + t.size)
    (hb : ∀ u ∈ before, ¬(u.virtual ≤ fetchPc s ∧ fetchPc s < u.virtual + u.size)) : translationOf s = some t := by
  have hfind : s.translations.find?
      (fun t => decide (t.virtual ≤ fetchPc s) && decide (fetchPc s < t.virtual + t.size)) = some t := by
    rw [hl, List.find?_append, List.find?_eq_none.mpr fun u hu => by simpa using hb u hu]
    simp [ht]
  simp [translationOf, hM, hvm, hfind]

end Sys2Proof.Machine

namespace Sys2Proof.Claims

open Sys2Proof.Machine

section Verdict
variable {s : State} {vs : List Bool} (hv : Verdicts s .fetch (fetchAccesses s) vs)
include hv

/-- The verdict of a page-table access of the fetch: mode S (R54, R163). -/
theorem verdict_walk {j : Nat} (h : j < (fetchWalk s).length) :
    ∃ v, vs[j]? = some v ∧ (v = true ↔ WalkPasses s j (fetchWalk s)[j]) := by
  obtain ⟨p, hp, hj⟩ := hv.2 j _ (fetchAccesses_walk h)
  obtain ⟨u, -, hclass⟩ := classOf_fetchWalk (List.getElem_mem h)
  have hS : p = .S := by
    rw [hclass] at hp
    exact (Option.some.inj hp).symm
  subst hS
  exact ⟨_, hj, Bool.and_eq_true_iff⟩

/-- The verdict of a part of the word: the current mode, and no byte where the PMA checks deny a fetch (R49, R52, R152). -/
theorem verdict_part {j : Nat} (hf : fetchPageFaults s = false) (h : j < (fetchSizes s).length) :
    ∃ v, vs[(fetchWalk s).length + j]? = some v ∧ (v = true ↔
      pmpCheck s.params (checkSettings s (s.freeCount + ((fetchWalk s).length + j)))
          (fetchAddress s + ((fetchSizes s).take j).sum) ((fetchSizes s).getD j 0) .exec s.hart.priv = true ∧
        ∀ k, k < (fetchSizes s).getD j 0 → ∀ r ∈ s.pmaNoFetch,
          ¬(r.1 ≤ fetchAddress s + ((fetchSizes s).take j).sum + k ∧
            fetchAddress s + ((fetchSizes s).take j).sum + k < r.1 + r.2)) := by
  have hn := List.getElem?_eq_getElem h
  obtain ⟨p, hp, hj⟩ := hv.2 _ _ (fetchAccesses_part hf hn)
  obtain rfl : s.hart.priv = p := Option.some.inj hp
  refine ⟨_, hj, ?_⟩
  rw [Bool.and_eq_true_iff, pmaAllowsFetch_iff, List.getD_eq_getElem _ _ h]
  exact Iff.rfl

/-- The fetch passes exactly when no verdict is a failure (R156). -/
theorem fetchPasses_iff : FetchPasses s ↔ ¬false ∈ vs := by
  constructor
  · rintro ⟨hwalk, hparts⟩ hmem
    obtain ⟨j, hj⟩ := List.mem_iff_getElem?.mp hmem
    have hlt := (List.getElem?_eq_some_iff.mp hj).1
    rw [hv.1, length_fetchAccesses] at hlt
    by_cases h : j < (fetchWalk s).length
    · obtain ⟨v, hvj, hiff⟩ := verdict_walk hv h
      rw [hiff.mpr (hwalk j h), hj] at hvj
      cases hvj
    · obtain ⟨i, rfl⟩ : ∃ i, j = (fetchWalk s).length + i := ⟨j - (fetchWalk s).length, by omega⟩
      cases hf : fetchPageFaults s with
      | true => simp [hf] at hlt
      | false =>
        have hi : i < (fetchSizes s).length := by simpa [hf] using hlt
        obtain ⟨v, hvj, hiff⟩ := verdict_part hv hf hi
        rw [hiff.mpr (hparts hf i hi), hj] at hvj
        cases hvj
  · intro hnone
    have htrue {j : Nat} {v : Bool} (h : vs[j]? = some v) : v = true := by
      rw [← Bool.not_eq_false]
      rintro rfl
      exact hnone (List.mem_of_getElem? h)
    refine ⟨fun j h => ?_, fun hf j h => ?_⟩
    · obtain ⟨v, hvj, hiff⟩ := verdict_walk hv h
      exact hiff.mp (htrue hvj)
    · obtain ⟨v, hvj, hiff⟩ := verdict_part hv hf h
      exact hiff.mp (htrue hvj)

end Verdict

/-- A fetch that passes performs its updates of page-table entries and no other write, and gives the bytes then at its
address (R85, R152, R163). -/
theorem fetch_of_passes {s : State} (hpresent : FetchPresentable s) (hf : fetchPageFaults s = false)
    (hpass : FetchPasses s) :
    ∃ m, Performed .fetch (fetchWalk s) (fun _ => true) s.mem m ∧ (fetchWalk s = [] → m = s.mem) ∧
      ∀ b0 b1 b2 b3 : Byte,
        readByte m (fetchAddress s) = some b0 → readByte m (fetchAddress s + 1) = some b1 →
        readByte m (fetchAddress s + 2) = some b2 → readByte m (fetchAddress s + 3) = some b3 →
        fetch s = .bytes [b0, b1, b2, b3] m := by
  obtain ⟨halign, hwalk, hspace⟩ := hpresent
  obtain ⟨vs, hvs, hv⟩ := checkAll_of_presentable (presentable_fetchAccesses hwalk hspace)
  have hnone := (fetchPasses_iff hv).mp hpass
  obtain ⟨done, -, hall, hperf⟩ := accessedMem_spec s .fetch hv.1
  refine ⟨_, (performed_fetchWalk hperf).congr fun j hj => hall hnone j ?_, fun h => accessedMem_fetch_of_no_walk h vs,
    fun b0 b1 b2 b3 h0 h1 h2 h3 => (fetch_spec halign hvs).2.2 hnone hf _ rfl fun k hk => ?_⟩
  · rw [length_fetchAccesses]
    omega
  · match k, hk with
    | 0, _ => exact h0
    | 1, _ => exact h1
    | 2, _ => exact h2
    | 3, _ => exact h3

/-- Settles O27: the first translation that covers the pc decides, and its page-table accesses are of class PageTable. -/
theorem fetchIsTranslatedByItsInput : Obligations.FetchIsTranslatedByItsInput := by
  unfold Obligations.FetchIsTranslatedByItsInput
  intro s
  refine ⟨fun h => fetch_identity (translationOf_eq_none h), fun t before after hl hM hvm ht hb => ?_,
    fun w => ⟨rfl, rfl, rfl, rfl, rfl, rfl, rfl⟩, fun l rest hp => step_of_pending hp, fun l rest hp => step_of_pending hp⟩
  have htr := translationOf_eq_some hl hM hvm ht hb
  refine ⟨by simp [fetchWalk, htr], fun hnone => by simp [fetchPageFaults, htr, hnone], fun p hp => ?_⟩
  simp [fetchPageFaults, fetchAddress, htr, hp]

/-- Settles O6: a fetch that passes gives the bytes at its address, and the step executes what they decode to. -/
theorem stepRunsTheDecodedInstruction : Obligations.StepRunsTheDecodedInstruction := by
  unfold Obligations.StepRunsTheDecodedInstruction
  intro s hp hr hpresent hf hpass
  obtain ⟨m, hperf, hsame, hfetch⟩ := fetch_of_passes hpresent hf hpass
  refine ⟨m, hperf, hsame, fun b0 b1 b2 b3 i h0 h1 h2 h3 hd => ?_⟩
  rw [step_eq_stepInstr hp hr, stepInstr, hfetch b0 b1 b2 b3 h0 h1 h2 h3]
  simp only [decodeFetched, hd]
  rfl

/-- Settles O7: a failing verdict denies the fetch, and the updates performed are among those that passed. -/
theorem deniedFetchRaisesInstructionAccessFault : Obligations.DeniedFetchRaisesInstructionAccessFault := by
  unfold Obligations.DeniedFetchRaisesInstructionAccessFault
  intro s hp hr ⟨halign, hwalk, hspace⟩ hdenied
  obtain ⟨vs, hvs, hv⟩ := checkAll_of_presentable (presentable_fetchAccesses hwalk hspace)
  have hfail : false ∈ vs := not_not.mp fun h => hdenied ((fetchPasses_iff hv).mpr h)
  obtain ⟨done, hdone, -, hperf⟩ := accessedMem_spec s .fetch hv.1
  refine ⟨_, done, fun j a ha hj => ?_, performed_fetchWalk hperf, fun h => accessedMem_fetch_of_no_walk h vs, ?_⟩
  · obtain ⟨hlt, rfl⟩ := List.getElem?_eq_some_iff.mp ha
    obtain ⟨v, hvj, hiff⟩ := verdict_walk hv hlt
    exact hiff.mp (Option.some.inj (hvj.symm.trans (hdone j hj)))
  · rw [step_eq_stepInstr hp hr, stepInstr, (fetch_spec halign hvs).1 hfail]
    rfl

/-- Settles O8: a word that no row covers does not decode, and the step refuses its bytes. -/
theorem wordOutsideTheTableIsRefused : Obligations.WordOutsideTheTableIsRefused := by
  unfold Obligations.WordOutsideTheTableIsRefused
  intro s hp hr hpresent hf hpass
  obtain ⟨m, hperf, hsame, hfetch⟩ := fetch_of_passes hpresent hf hpass
  refine ⟨m, hperf, hsame, fun b0 b1 b2 b3 h0 h1 h2 h3 hrows => ?_⟩
  obtain ⟨e, he⟩ : ∃ e, decodeWord (wordOfBytes b0 b1 b2 b3) = .error e := by
    cases hd : decodeWord (wordOfBytes b0 b1 b2 b3) with
    | error e => exact ⟨e, rfl⟩
    | ok i =>
      obtain ⟨r, hrow, hcover⟩ := (decodeWord_ok_iff _).mp ⟨i, hd⟩
      rw [hrows r hrow] at hcover
      cases hcover
  rw [step_eq_stepInstr hp hr, stepInstr, hfetch b0 b1 b2 b3 h0 h1 h2 h3]
  simp only [decodeFetched, decode, he]

/-- Settles O9: the queue is looked at first, then the outstanding exception, then the fetch. -/
theorem stepOrderOfOperationsAndExceptions : Obligations.StepOrderOfOperationsAndExceptions := by
  unfold Obligations.StepOrderOfOperationsAndExceptions
  refine ⟨fun s op rest => step_of_pending, fun s e hp hr => by simp only [step, hp, hr],
    fun s hp hr ⟨halign, hwalk, hspace⟩ hpass hf => ?_⟩
  obtain ⟨vs, hvs, hv⟩ := checkAll_of_presentable (presentable_fetchAccesses hwalk hspace)
  rw [step_eq_stepInstr hp hr, stepInstr, (fetch_spec halign hvs).2.1 ((fetchPasses_iff hv).mp hpass) hf]

end Sys2Proof.Claims
end
